-- ==== Sys2Proof/Word.lean ====
section
/-! DEFINITION. Word.lean: the widths the machine works in. -/

namespace Sys2Proof

/-- One register, one bus data word, one binary32 encoding: 32 bits, bit 0 the least significant
(rules R10, R46, R100). -/
abbrev Word := BitVec 32

/-- One byte lane of the host bus (rule R73). -/
abbrev Byte := BitVec 8

end Sys2Proof
end

