-- ==== Sys2Proof/Syntax.lean ====
section
/-! DEFINITION. Syntax.lean: what a host can ask of the block. Every row of spec/opcode_table.json is one
constructor of `Instr`; a bus transaction and an event at the block's pins are the forms they arrive in. -/

namespace Sys2Proof

/-- The seven rows of the opcode table. A command row (CMD32) stands for the full-width WRITE to CMD that
carries its word (rules R105, R107, R111). -/
inductive Instr where
  /-- READ(offset), rule R230; `be` are the bus's byte enables, which a read ignores (rule R76). -/
  | read (offset : BitVec 10) (be : BitVec 4)
  /-- WRITE(offset, data), rule R231; a write with any byte enable clear is ignored (rule R76). -/
  | write (offset : BitVec 10) (be : BitVec 4) (data : Word)
  /-- NOP, rule R233. -/
  | nop
  /-- STEP, rule R234. -/
  | step
  /-- LANE_RESET, rule R235. -/
  | laneReset
  /-- FULL_RESET, rule R236. -/
  | fullReset
  /-- CLEAR_STATUS, rule R237. -/
  | clearStatus
deriving DecidableEq, Repr

/-- A host transaction as it stands on the bus (rules R70, R71, R76, R104): the kind bit W, the low ten
bits of the offset from BASE, one byte enable a byte, and the data word (meaningless for a READ). -/
structure Transaction where
  /-- The kind bit W: true for WRITE, false for READ. -/
  isWrite : Bool
  /-- The byte offset in the 1 KiB window. -/
  offset : BitVec 10
  /-- The byte enables, bit k for byte k of the word. -/
  be : BitVec 4
  /-- The write data. -/
  data : Word
deriving DecidableEq, Repr

/-- What the platform can do to the block: offer a transaction, or assert hardware reset, possibly while a
transaction is in progress (rules R280, R290). -/
inductive HostEvent where
  /-- The interconnect delivers a transaction. -/
  | transaction (t : Transaction)
  /-- Hardware reset is asserted; `inFlight` is the transaction it abandons, if one is in progress. -/
  | hardReset (inFlight : Option Transaction)
deriving DecidableEq, Repr

/-- The five commands of rule R107. -/
inductive Command where
  | nop
  | step
  | laneReset
  | fullReset
  | clearStatus
deriving DecidableEq, Repr

end Sys2Proof
end

