-- ==== Sys2Proof/Machine/Window.lean ====
section
/-! DEFINITION. Machine/Window.lean: the 1 KiB register window, its word index and the register at each word
(rules R49, R70–R72). -/

namespace Sys2Proof.Machine

/-- The host-visible registers of rule R49. -/
inductive Reg where
  | id
  | params
  | config
  | ctrl
  | status
  | channels
  | sampleInterval
  | freqKnob
  | fineKnob
  | shapeKnob
  | cmd
  | pitchCv (i : Fin 16)
  | shapeCv (i : Fin 16)
  | out (i : Fin 16)
  | phase (i : Fin 16)
  | shape (i : Fin 16)
  | freq (i : Fin 16)
  /-- A reserved offset, or a lane slot at or above MAX_CHANNELS (rule R67). -/
  | reserved
deriving DecidableEq, Repr

/-- A field placed with its low bit at `lo`, zero-extended (rules R10, R102). Fields are joined by `|||`. -/
def fieldAt {n : Nat} (lo : Nat) (v : BitVec n) : Word := v.setWidth 32 <<< lo

/-- The word index `offset[9:2]` (rules R71, R75): bits [1:0] are ignored. -/
def wordIndex (offset : BitVec 10) : BitVec 8 := offset.extractLsb' 2 8

/-- The word index of CMD, offset 0x028 (rule R60). -/
def cmdIndex : BitVec 8 := 10#8

/-- The five defined command words (rule R107). -/
def commandWords : List Word :=
  [0x00000000#32, 0x01000000#32, 0x02000000#32, 0x03000000#32, 0x04000000#32]

/-- A WRITE that the command decoder takes: to CMD, with every byte enable set, of a defined word. -/
def isCommandWrite (offset : BitVec 10) (be : BitVec 4) (data : Word) : Bool :=
  wordIndex offset == cmdIndex && be == 15#4 && commandWords.contains data

/-- A lane slot exists below MAX_CHANNELS only (rule R72). -/
def laneSlot (maxChannels : Nat) (reg : Fin 16 → Reg) (i : Fin 16) : Reg :=
  if i.val < maxChannels then reg i else .reserved

/-- The register at a byte offset of the window (rules R49, R67, R71, R72, R75): the six lane arrays are blocks
of sixteen words, so the slot is the low four bits of the word index. -/
def regAt (maxChannels : Nat) (offset : BitVec 10) : Reg :=
  let w := (wordIndex offset).toNat
  let i : Fin 16 := Fin.ofNat 16 w
  match w / 16 with
  | 0 =>
    match w with
    | 0 => .id
    | 1 => .params
    | 2 => .config
    | 3 => .ctrl
    | 4 => .status
    | 5 => .channels
    | 6 => .sampleInterval
    | 7 => .freqKnob
    | 8 => .fineKnob
    | 9 => .shapeKnob
    | 10 => .cmd
    | _ => .reserved
  | 1 => laneSlot maxChannels .pitchCv i
  | 2 => laneSlot maxChannels .shapeCv i
  | 3 => laneSlot maxChannels .out i
  | 4 => laneSlot maxChannels .phase i
  | 5 => laneSlot maxChannels .shape i
  | 6 => laneSlot maxChannels .freq i
  | _ => .reserved

/-- The byte offset of a register (rule R49); a reserved word stands for the first one, 0x02C. -/
def regOffset : Reg → BitVec 10
  | .id => 0x000#10
  | .params => 0x004#10
  | .config => 0x008#10
  | .ctrl => 0x00C#10
  | .status => 0x010#10
  | .channels => 0x014#10
  | .sampleInterval => 0x018#10
  | .freqKnob => 0x01C#10
  | .fineKnob => 0x020#10
  | .shapeKnob => 0x024#10
  | .cmd => 0x028#10
  | .pitchCv i => BitVec.ofNat 10 (0x040 + 4 * i)
  | .shapeCv i => BitVec.ofNat 10 (0x080 + 4 * i)
  | .out i => BitVec.ofNat 10 (0x0C0 + 4 * i)
  | .phase i => BitVec.ofNat 10 (0x100 + 4 * i)
  | .shape i => BitVec.ofNat 10 (0x140 + 4 * i)
  | .freq i => BitVec.ofNat 10 (0x180 + 4 * i)
  | .reserved => 0x02C#10

end Sys2Proof.Machine
end

