-- ==== Sys2Proof/WellFormed.lean ====
section
/-! DEFINITION. WellFormed.lean: the terms of `Instr` that an encoding can stand for. The field widths are in the
types; what remains is that a full-width WRITE to CMD of a defined command word is written as that command. -/

namespace Sys2Proof

open Sys2Proof.Machine

/-- A term some encoding decodes to: a WRITE that is a command stands only under the command's own constructor. -/
def Instr.wf : Instr → Bool
  | .read _ _ => true
  | .write offset be data => !isCommandWrite offset be data
  | .nop => true
  | .step => true
  | .laneReset => true
  | .fullReset => true
  | .clearStatus => true

end Sys2Proof
end

