-- ==== Sys2Proof/Decode.lean ====
section
/-! DEFINITION. Decode.lean: from the bits on the bus to an instruction, and back. The command words are the
spec's (rules R105–R108). The spec gives a transaction's fields and puts W at bit 0 (rule R104 and the opcode
table) and no other place for them; the frame below is the model's layout (DESIGN CHOICE, log entry 2):
word 0 holds W in bit 0, the offset in bits [10:1], the byte enables in bits [14:11] and zeros above, word 1 holds the
data, each word little-endian (rule R73). -/

namespace Sys2Proof

open Sys2Proof.Machine

/-- The command a CMD32 word stands for, the whole word compared (rules R106, R107); every other word is reserved
(rule R108). -/
def decodeCommand (word : Word) : Option Command :=
  if word = 0x00000000#32 then some .nop
  else if word = 0x01000000#32 then some .step
  else if word = 0x02000000#32 then some .laneReset
  else if word = 0x03000000#32 then some .fullReset
  else if word = 0x04000000#32 then some .clearStatus
  else none

/-- The instruction of a command (rule R111). -/
def instrOfCommand : Command → Instr
  | .nop => .nop
  | .step => .step
  | .laneReset => .laneReset
  | .fullReset => .fullReset
  | .clearStatus => .clearStatus

/-- The instruction a transaction is: a READ, a command written whole to CMD, or any other WRITE (rules R104,
R106, R232). Total: every transaction is one. -/
def decodeTransaction (t : Transaction) : Instr :=
  if t.isWrite then
    if wordIndex t.offset = cmdIndex ∧ t.be = 15#4 then
      match decodeCommand t.data with
      | some c => instrOfCommand c
      | none => .write t.offset t.be t.data
    else .write t.offset t.be t.data
  else .read t.offset t.be

/-- Why bytes are not a frame. -/
inductive DecodeError where
  /-- A frame is exactly eight bytes (rule R109: one word a transaction, one word a command). -/
  | frameLength
  /-- Bits [31:15] of a frame's first word are 0. -/
  | reservedFrameBits
deriving DecidableEq, Repr

/-- The four bytes of a word, little-endian (rule R73). -/
def wordBytes (w : Word) : List Byte :=
  [w.extractLsb' 0 8, w.extractLsb' 8 8, w.extractLsb' 16 8, w.extractLsb' 24 8]

/-- The word of four bytes, little-endian (rule R73). -/
def wordOfBytes (b0 b1 b2 b3 : Byte) : Word :=
  fieldAt 24 b3 ||| fieldAt 16 b2 ||| fieldAt 8 b1 ||| fieldAt 0 b0

/-- The transaction in a frame's two words. -/
def transactionOfWords (w0 w1 : Word) : Transaction where
  isWrite := w0.getLsbD 0
  offset := w0.extractLsb' 1 10
  be := w0.extractLsb' 11 4
  data := w1

/-- The instruction in a frame of bytes. -/
def decode : List Byte → Except DecodeError Instr
  | [b0, b1, b2, b3, b4, b5, b6, b7] =>
    let w0 := wordOfBytes b0 b1 b2 b3
    if w0.extractLsb' 15 17 = 0#17 then
      .ok (decodeTransaction (transactionOfWords w0 (wordOfBytes b4 b5 b6 b7)))
    else .error .reservedFrameBits
  | _ => .error .frameLength

/-- The transaction that carries a word to CMD, all byte enables set (rule R111). -/
def commandTransaction (word : Word) : Transaction where
  isWrite := true
  offset := 0x028#10
  be := 15#4
  data := word

/-- The command word of a command (rule R107). -/
def encodeCommand : Command → Word
  | .nop => 0x00000000#32
  | .step => 0x01000000#32
  | .laneReset => 0x02000000#32
  | .fullReset => 0x03000000#32
  | .clearStatus => 0x04000000#32

/-- The transaction of an instruction (rules R104, R111); a READ's data word is 0. -/
def encodeTransaction : Instr → Transaction
  | .read offset be => { isWrite := false, offset := offset, be := be, data := 0#32 }
  | .write offset be data => { isWrite := true, offset := offset, be := be, data := data }
  | .nop => commandTransaction (encodeCommand .nop)
  | .step => commandTransaction (encodeCommand .step)
  | .laneReset => commandTransaction (encodeCommand .laneReset)
  | .fullReset => commandTransaction (encodeCommand .fullReset)
  | .clearStatus => commandTransaction (encodeCommand .clearStatus)

/-- Word 0 of a transaction's frame. -/
def frameWord0 (t : Transaction) : Word :=
  fieldAt 11 t.be ||| fieldAt 1 t.offset ||| fieldAt 0 (BitVec.ofBool t.isWrite)

/-- The frame of an instruction: its two words, each little-endian. -/
def encode (i : Instr) : List Byte :=
  wordBytes (frameWord0 (encodeTransaction i)) ++ wordBytes (encodeTransaction i).data

/-- The transaction whose bits are `w` as spec/opcode_table.json numbers them: a 32-bit row (CMD32) is the data of
a full-width WRITE to CMD; any other row (BUS) starts at bit 0 of the frame. Bits above `nbits` are 0. -/
def tableTransaction (nbits w : Nat) : Transaction :=
  if nbits = 32 then commandTransaction (BitVec.ofNat 32 w)
  else transactionOfWords (BitVec.ofNat 32 w) (BitVec.ofNat 32 (w / 2 ^ 32))

/-- The instruction read from the bits `w` of an opcode-table row of `nbits` bits: a CMD32 row is framed as a
WRITE to CMD, a BUS row is the frame itself, and the frame's bytes go to the decoder. -/
def decodeTableWord (nbits w : Nat) : Option Instr :=
  let bytes :=
    if nbits = 32 then
      wordBytes (frameWord0 (commandTransaction 0#32)) ++ wordBytes (BitVec.ofNat 32 w)
    else wordBytes (BitVec.ofNat 32 w) ++ wordBytes (BitVec.ofNat 32 (w / 2 ^ 32))
  match decode bytes with
  | .ok i => some i
  | .error _ => none

end Sys2Proof
end

