-- ==== Sys2Proof/Machine/Binary32.lean ====
section
/-! DEFINITION. Machine/Binary32.lean: IEEE 754 binary32 encodings, their order, and rounding to nearest
(rules R11, R12, R100). Nothing here depends on an implementation parameter. -/

namespace Sys2Proof.Machine

/-- 1.0. -/
def one : Word := 0x3F800000#32

/-- -1.0. -/
def minusOne : Word := 0xBF800000#32

/-- TWO_PI = RN32(2π) (rule R101). -/
def twoPi : Word := 0x40C90FDB#32

/-- Bit 31 of the encoding (rule R100). -/
def signBit (w : Word) : Bool := w.getLsbD 31

/-- Bits [30:23], the biased exponent (rule R100). -/
def expField (w : Word) : Nat := (w.extractLsb' 23 8).toNat

/-- Bits [22:0], the fraction (rule R100). -/
def fracField (w : Word) : Nat := (w.extractLsb' 0 23).toNat

/-- Bits [30:0]. On encodings that are not NaN they rise with the absolute value. -/
def magnitude (w : Word) : Nat := (w.extractLsb' 0 31).toNat

/-- `isNaN(x)` is true for any NaN encoding (rules R12, R100). -/
def isNaN (w : Word) : Bool := expField w == 255 && fracField w != 0

/-- Plus or minus infinity (rule R100). -/
def isInf (w : Word) : Bool := expField w == 255 && fracField w == 0

/-- Neither an infinity nor a NaN. -/
def isFinite (w : Word) : Bool := expField w != 255

/-- Plus or minus zero. -/
def isZero (w : Word) : Bool := magnitude w == 0

/-- The integer significand of a finite encoding: with the hidden bit when the exponent field is not 0. -/
def significand (w : Word) : Nat :=
  if expField w = 0 then fracField w else 2 ^ 23 + fracField w

/-- The power of two the significand counts: a finite `w` is worth
`± significand w * 2 ^ ulpExponent w` (bias 127, 23 fraction bits). -/
def ulpExponent (w : Word) : Int := (max (expField w) 1 : Nat) - 150

/-- The significand with the sign of the encoding. -/
def signedSignificand (w : Word) : Int :=
  if signBit w then -(significand w : Int) else significand w

/-- An integer that orders the encodings that are not NaN as their values are ordered; both zeros are 0. -/
def orderKey (w : Word) : Int :=
  if signBit w then -(magnitude w : Int) else magnitude w

/-- `a < b` on binary32 values; false when either is a NaN. -/
def flt (a b : Word) : Bool := !isNaN a && !isNaN b && decide (orderKey a < orderKey b)

/-- `a ≤ b` on binary32 values; false when either is a NaN. -/
def fle (a b : Word) : Bool := !isNaN a && !isNaN b && decide (orderKey a ≤ orderKey b)

/-- `abs(x)` clears the sign bit (rule R12). -/
def fabs (w : Word) : Word := w &&& 0x7FFFFFFF#32

/-- The encoding with the other sign. -/
def fneg (w : Word) : Word := w ^^^ 0x80000000#32

/-- `min(a, b)` is `a` if `a <= b`, else `b` (rule R12). -/
def fmin (a b : Word) : Word := if fle a b then a else b

/-- `clamp(x, lo, hi)`: `lo` for a NaN or for `x < lo`, `hi` for `x > hi`, else `x` (rule R12). -/
def fclamp (x lo hi : Word) : Word :=
  if isNaN x || flt x lo then lo else if flt hi x then hi else x

/-- The encoding with the given sign and bits [30:0]. -/
def withSign (neg : Bool) (mag : Nat) : Word :=
  BitVec.ofNat 32 (if neg then 2 ^ 31 + mag else mag)

/-- Bits [30:0] of an infinity. -/
def infMagnitude : Nat := 0x7F800000

/-- The natural number nearest `n / d`, ties to even. -/
def roundDiv (n d : Nat) : Nat :=
  let q := n / d
  let r := n % d
  if d < 2 * r ∨ (2 * r = d ∧ q % 2 = 1) then q + 1 else q

/-- `⌊log2 (n / d)⌋` for positive `n` and `d`. -/
def ratioLog2 (n d : Nat) : Int :=
  let k : Int := (n.log2 : Int) - d.log2
  if 0 ≤ k then
    if d * 2 ^ k.toNat ≤ n then k else k - 1
  else
    if d ≤ n * 2 ^ (-k).toNat then k else k - 1

/-- Bits [30:0] of `RN32(n / d * 2 ^ e)` (rule R12): the value is counted in the spacing `2 ^ q` of the
binary32 numbers of its size (never finer than `2 ^ -149`, the subnormal spacing) and the count is rounded to
nearest, ties to even. A count that reaches the next power of two carries into the exponent field, and past the
largest finite number that gives infinity. -/
def roundMagnitude (n d : Nat) (e : Int) : Nat :=
  if n = 0 then 0
  else
    let l := ratioLog2 n d + e
    if 127 < l then infMagnitude
    else if l < -150 then 0
    else
      let q := max (l - 23) (-149)
      let s := e - q
      let m := if 0 ≤ s then roundDiv (n * 2 ^ s.toNat) d else roundDiv n (d * 2 ^ (-s).toNat)
      (q + 149).toNat * 2 ^ 23 + m

/-- `RN32` of `± n / d * 2 ^ e`, for positive `d` (rules R11, R12); a result of zero keeps the sign. -/
def rn32 (neg : Bool) (n d : Nat) (e : Int) : Word := withSign neg (roundMagnitude n d e)

/-- `RN32` of the integer-scaled real `z * 2 ^ e`; an exact zero is +0.0. -/
def rn32Int (z : Int) (e : Int) : Word := rn32 (decide (z < 0)) z.natAbs 1 e

/-- `floor(x)` of a finite encoding, as an unbounded integer (rule R12). An infinity or a NaN, which the spec
never passes, gives 0. -/
def floorInt (w : Word) : Int :=
  if isFinite w then
    let e := ulpExponent w
    if 0 ≤ e then signedSignificand w * 2 ^ e.toNat else signedSignificand w / 2 ^ (-e).toNat
  else 0

/-- `floor(x)` as a binary32 value (rule R12); it is always representable. -/
def ffloor (w : Word) : Word := if isFinite w then rn32Int (floorInt w) 0 else w

/-- `RN32(x - floor(x))` of a finite encoding: the exact difference, rounded once (rule R204). -/
def fracPart (w : Word) : Word :=
  let e := ulpExponent w
  if 0 ≤ e then 0#32 else rn32Int (signedSignificand w % 2 ^ (-e).toNat) e

/-- `f32(k)` of a natural number. -/
def f32Nat (k : Nat) : Word := rn32 false k 1 0

/-- `ldexp32(v, n) = RN32(v * 2^n)` (rule R12); an infinity or a NaN is returned unchanged. -/
def ldexp32 (w : Word) (n : Int) : Word :=
  if isFinite w then rn32 (signBit w) (significand w) 1 (ulpExponent w + n) else w

end Sys2Proof.Machine
end

