-- ==== Sys2Proof/Config.lean ====
section
/-! DEFINITION. Config.lean: the implementation parameters of rule R8, those the spec leaves OPEN as constants
without a body, and the legality conditions of spec/92_eei_decisions.md section 6. -/

namespace Sys2Proof.Config

open Sys2Proof.Machine

/-- EXP2_MODE (rules R52, R204, R205). -/
inductive Exp2Mode where
  | taylor5
  | exact
deriving DecidableEq, Repr

/-- The parameters of rule R8 that differ between implementations or are OPEN, and the NaN encodings that rules
R11 and R12 leave unstated. Every shared operation that needs them takes them as an argument. -/
structure Params where
  /-- MAX_CHANNELS, 1..16 (rule R9). -/
  maxChannels : Nat
  /-- GROUP_WIDTH, 1..MAX_CHANNELS (rule R9). -/
  groupWidth : Nat
  /-- LFO_SUPPORTED (rules R8, R52, R53). -/
  lfoSupported : Bool
  /-- EXP2_MODE (rules R8, R52). -/
  exp2Mode : Exp2Mode
  /-- DETUNE_TABLE, entries 0..GROUP_WIDTH-1 (rule R203, OPEN). -/
  detune : Nat → Word
  /-- MINBLEP_STEP, the ROM `S[0..512]` (rules R42, R171, OPEN). -/
  rom : Nat → Word
  /-- COS32 (rule R154, OPEN). -/
  cos32 : Word → Word
  /-- The encoding stored when a stored result is a NaN, which the spec leaves unstated: a fresh choice for every
  STEP since the model's counter was 0, every lane and every storing site. -/
  nan : (count lane site : Nat) → Word

/-- A configuration a model must accept (rules R9, R154, R171, R203; spec/92_eei_decisions.md section 6). -/
structure Params.Legal (p : Params) : Prop where
  channels_pos : 1 ≤ p.maxChannels
  channels_le : p.maxChannels ≤ 16
  width_pos : 1 ≤ p.groupWidth
  width_le : p.groupWidth ≤ p.maxChannels
  detune_finite : ∀ k, k < p.groupWidth → isFinite (p.detune k) = true
  rom_finite : ∀ k, k ≤ 512 → isFinite (p.rom k) = true
  rom_first : p.rom 0 = 0#32
  rom_last : p.rom 512 = one
  cos_zero : p.cos32 0#32 = one
  cos_range : ∀ x, fle 0#32 x = true → fle x twoPi = true →
    fle minusOne (p.cos32 x) = true ∧ fle (p.cos32 x) one = true
  nan_isNaN : ∀ count lane site, isNaN (p.nan count lane site) = true

/-- The detune offsets of the hardware, before the finiteness condition: OPEN (rule R203). -/
opaque freeDetune : Nat → Word

/-- The minBLEP table of the hardware, before the conditions of rule R171: OPEN. -/
opaque freeRom : Nat → Word

/-- The cosine of the hardware, before the conditions of rule R154: OPEN. -/
opaque freeCos : Word → Word

/-- The encodings of stored NaNs, before the condition that they are NaNs: unstated. -/
opaque freeNaN : (count lane site : Nat) → Word

/-- BASE, the platform's placement of the register window (rules R70, R78): OPEN. -/
opaque base : Nat

/-- A finite encoding: every finite word is itself; the others lose exponent bit 30. -/
def toFinite (w : Word) : Word := if isFinite w then w else w &&& 0xBFFFFFFF#32

/-- A NaN encoding: every NaN is itself. -/
def toNaN (w : Word) : Word := if isNaN w then w else 0x7FC00000#32

/-- The table `S` that a choice of entries makes: `S[0] = +0.0`, `S[512] = 1.0` and every entry finite (rule R171). A
choice that meets the rule is kept as it is. -/
def legalRom (entries : Nat → Word) (k : Nat) : Word :=
  if k = 0 then 0#32 else if k = 512 then one else toFinite (entries k)

/-- MBOSC as specified: the values rule R8 fixes, and for each OPEN parameter an arbitrary member of exactly the
set the spec admits (the constraints are met by construction, and every admissible choice is some choice of the
constants above). -/
def hw : Params where
  maxChannels := 16
  groupWidth := 4
  lfoSupported := true
  exp2Mode := .taylor5
  detune k := toFinite (freeDetune k)
  rom := legalRom freeRom
  cos32 x :=
    if x = 0#32 then one
    else if fle 0#32 x && fle x twoPi then fclamp (freeCos x) minusOne one
    else freeCos x
  nan count lane site := toNaN (freeNaN count lane site)

end Sys2Proof.Config
end

