-- ==== Sys2Proof/Machine/Arith.lean ====
section
/-! DEFINITION. Machine/Arith.lean: the four binary32 operations, each rounded once to nearest, ties to even,
with subnormals kept and no flag recorded (rule R11). A NaN result is the one working value `quietNaN`; which
encoding a NaN has where it is stored is a free value (Machine/Ops.lean, `storedBits`). -/

namespace Sys2Proof.Machine

/-- The working value of a NaN inside one STEP. No rule lets a host see it: where a NaN result is stored, its
encoding is replaced by a free value. -/
def quietNaN : Word := 0x7FC00000#32

/-- The exact sum of two finite values, rounded once; an exact zero is +0.0 unless both operands are −0.0. -/
def addFinite (a b : Word) : Word :=
  let e := min (ulpExponent a) (ulpExponent b)
  let z := signedSignificand a * 2 ^ (ulpExponent a - e).toNat
    + signedSignificand b * 2 ^ (ulpExponent b - e).toNat
  if z = 0 then withSign (signBit a && signBit b) 0 else rn32Int z e

/-- binary32 addition (rule R11). -/
def fadd (a b : Word) : Word :=
  if isNaN a || isNaN b then quietNaN
  else if isInf a then (if isInf b && signBit a != signBit b then quietNaN else a)
  else if isInf b then b
  else addFinite a b

/-- binary32 subtraction (rule R11). -/
def fsub (a b : Word) : Word := fadd a (fneg b)

/-- binary32 multiplication (rule R11). -/
def fmul (a b : Word) : Word :=
  let neg := signBit a != signBit b
  if isNaN a || isNaN b then quietNaN
  else if isInf a || isInf b then
    (if isZero a || isZero b then quietNaN else withSign neg infMagnitude)
  else rn32 neg (significand a * significand b) 1 (ulpExponent a + ulpExponent b)

/-- binary32 division (rule R11). -/
def fdiv (a b : Word) : Word :=
  let neg := signBit a != signBit b
  if isNaN a || isNaN b then quietNaN
  else if isInf a then (if isInf b then quietNaN else withSign neg infMagnitude)
  else if isInf b then withSign neg 0
  else if isZero b then (if isZero a then quietNaN else withSign neg infMagnitude)
  else rn32 neg (significand a) (significand b) (ulpExponent a - ulpExponent b)

end Sys2Proof.Machine
end

