-- ==== Sys2Proof/Machine/State.lean ====
section
/-! DEFINITION. Machine/State.lean: everything the spec gives the machine, as plain data, and the state after
reset (spec/10_state.md, rule R68). -/

namespace Sys2Proof.Machine

/-- The waveform variants of rule R103. Code 3 is never stored (rule R53), so there is no fourth constructor. -/
inductive Variant where
  | czSaw
  | czSawPulse
  | moogInvSaw
deriving DecidableEq, Repr

/-- One oscillator lane (rules R31–R38). Real fields are binary32 encodings. -/
structure Lane where
  /-- The phase (rule R32). -/
  phase : Word
  /-- The frequency in Hz (rule R33). -/
  freq : Word
  /-- The normalized shape (rule R34). -/
  shape : Word
  /-- The corrected sample in waveform units, not host-readable (rule R35). -/
  out : Word
  /-- The output voltage, OUT[i] (rule R36). -/
  outv : Word
  /-- The delay line of future corrections (rule R37). -/
  dl : Vector Word 32
  /-- The delay-line index the next PROCESS reads (rule R38). -/
  pos : Fin 32
deriving DecidableEq, Repr

/-- What the bus last reported to the host: nothing since reset, the word of a completed READ, or the completion
of a WRITE (rules R77, R82, R230). There is no error response (rule R260). The model's own field: the spec gives
the word to the bus and not to a register. -/
inductive BusResponse where
  | none
  | readData (word : Word)
  | writeDone
deriving DecidableEq, Repr

/-- The block (rules R30–R68), the host's pending events at its pins, and the model's own counter. -/
structure State where
  /-- CTRL.VARIANT (rule R53). -/
  variant : Variant
  /-- CTRL.LFO_EN (rule R53). -/
  lfoEn : Bool
  /-- CTRL.DETUNE_EN (rule R53). -/
  detuneEn : Bool
  /-- STATUS.BADCMD, sticky (rules R54, R261). -/
  badCmd : Bool
  /-- STATUS.BADACC, sticky (rules R54, R261). -/
  badAcc : Bool
  /-- STATUS.OUT_CHANNELS (rules R54, R210). -/
  outChannels : BitVec 5
  /-- STATUS.ACTIVE_GROUPS (rules R54, R210). -/
  activeGroups : BitVec 5
  /-- CHANNELS[4:0] (rule R55). -/
  channels : BitVec 5
  /-- SAMPLE_INTERVAL (rule R56). -/
  sampleInterval : Word
  /-- FREQ_KNOB (rule R57). -/
  freqKnob : Word
  /-- FINE_KNOB (rule R58). -/
  fineKnob : Word
  /-- SHAPE_KNOB (rule R59). -/
  shapeKnob : Word
  /-- PITCH_CV[i] (rule R61). -/
  pitchCv : Vector Word 16
  /-- SHAPE_CV[i] (rule R62). -/
  shapeCv : Vector Word 16
  /-- The lanes (rule R31); those at and above MAX_CHANNELS do not exist for the host and are never active. -/
  lanes : Vector Lane 16
  /-- The host's pending events, in the order the interconnect delivers them (rules R80, R81). The model's own
  field: the host stands outside the block. -/
  queue : List HostEvent
  /-- What the bus last reported. -/
  response : BusResponse
  /-- How many STEPs have drawn free NaN encodings. The model's own field; no statement rests on its value. -/
  freeCount : Nat
deriving DecidableEq, Repr

/-- Why a step stops with a fault: never. "No host transaction and no command traps, faults, aborts or returns a
bus error" (rule R260), so there is no constructor, and no false claim can rest on one (safe). -/
inductive Fault where
deriving DecidableEq, Repr

/-- Why a step has no meaning. -/
inductive Refusal where
  /-- Raised by the dispatcher for an instruction without a meaning; no arm raises it. Safe: the model stops. -/
  | notModelled (mnemonic : String)
deriving DecidableEq, Repr

/-- A lane after any reset (rules R68, R235); the shape is what MAP gives for zero inputs (rule R34). -/
def Lane.reset : Lane where
  phase := 0#32
  freq := 0#32
  shape := 0x3C23D70B#32
  out := 0#32
  outv := 0#32
  dl := Vector.replicate 32 0#32
  pos := 0

/-- The machine right after hardware reset (rules R68, R281), with nothing asked of it yet. -/
def State.reset : State where
  variant := .czSaw
  lfoEn := false
  detuneEn := false
  badCmd := false
  badAcc := false
  outChannels := 0#5
  activeGroups := 0#5
  channels := 0#5
  sampleInterval := 0#32
  freqKnob := 0#32
  fineKnob := 0#32
  shapeKnob := 0#32
  pitchCv := Vector.replicate 16 0#32
  shapeCv := Vector.replicate 16 0#32
  lanes := Vector.replicate 16 Lane.reset
  queue := []
  response := .none
  freeCount := 0

end Sys2Proof.Machine
end

