-- ==== Sys2Proof/Machine/Operands.lean ====
section
/-! DEFINITION. Machine/Operands.lean: the constants of rule R101, the fields of CTRL, the values a WARL register
stores (rules R53, R55, R57–R59, R110) and the inputs a STEP reads. -/

namespace Sys2Proof.Machine

open Sys2Proof.Config

/-- INC_MIN (rule R101). -/
def incMin : Word := 0x358637BD#32

/-- INC_MAX (rule R101). -/
def incMax : Word := 0x3EB33333#32

/-- SHAPE_RAW_LO (rule R101). -/
def shapeRawLo : Word := 0x3DCCCCCD#32

/-- SHAPE_RAW_HI (rule R101). -/
def shapeRawHi : Word := 0x411E6666#32

/-- SHAPE_SCALE (rule R101). -/
def shapeScale : Word := 0x3DCCCCCD#32

/-- OUT_GAIN (rule R101). -/
def outGain : Word := 0x40A00000#32

/-- F_REF (rules R101, R206). -/
def fRef : Word := 0x4382D014#32

/-- TWELVE (rule R101). -/
def twelve : Word := 0x41400000#32

/-- FINE_RANGE_OCT (rule R101). -/
def fineRangeOct : Word := 0x3E800000#32

/-- LFO_SHIFT_OCT (rule R101). -/
def lfoShiftOct : Word := 0x41000000#32

/-- LFO_DC_VOLTS (rule R101). -/
def lfoDcVolts : Word := 0x40A00000#32

/-- QUALITY (rule R8). -/
def quality : Nat := 16

/-- OVERSAMPLE (rule R8). -/
def oversample : Nat := 16

/-- The code of a variant in CTRL[1:0] (rule R103). -/
def variantCode : Variant → BitVec 2
  | .czSaw => 0#2
  | .czSawPulse => 1#2
  | .moogInvSaw => 2#2

/-- The variant a code names; 3 is reserved (rule R103). -/
def variantOfCode (code : BitVec 2) : Option Variant :=
  if code = 0#2 then some .czSaw
  else if code = 1#2 then some .czSawPulse
  else if code = 2#2 then some .moogInvSaw
  else none

/-- JUMP_TABLE (rules R8, R103, R175): 0.0, 0.0, 2.0. -/
def jump : Variant → Word
  | .czSaw => 0#32
  | .czSawPulse => 0#32
  | .moogInvSaw => 0x40000000#32

/-- CTRL.LFO_EN as every rule reads it: hardwired 0 without LFO_SUPPORTED (rules R53, R202). -/
def lfoOn (p : Params) (s : State) : Bool := p.lfoSupported && s.lfoEn

/-- What CHANNELS stores: `min(w, MAX_CHANNELS)`, the whole word read as unsigned (rule R55). -/
def channelsStored (p : Params) (data : Word) : BitVec 5 :=
  BitVec.ofNat 5 (min data.toNat p.maxChannels)

/-- What FREQ_KNOB stores: the value clamped to [-54.0, 54.0] (rule R57). -/
def freqKnobStored (data : Word) : Word := fclamp data 0xC2580000#32 0x42580000#32

/-- What FINE_KNOB stores: the value clamped to [-1.0, 1.0] (rule R58). -/
def fineKnobStored (data : Word) : Word := fclamp data minusOne one

/-- What SHAPE_KNOB stores: the value clamped to [0.0, 10.0] (rule R59). -/
def shapeKnobStored (data : Word) : Word := fclamp data 0x00000000#32 0x41200000#32

/-- The active channel count of a STEP, `max(1, CHANNELS)` (rule R208). -/
def activeCount (s : State) : Nat := max 1 s.channels.toNat

end Sys2Proof.Machine
end

