-- ==== Sys2Proof/Machine/Exp2.lean ====
section
/-! DEFINITION. Machine/Exp2.lean: EXP2 in both modes (rules R204, R205). -/

namespace Sys2Proof.Machine

open Sys2Proof.Config

/-- The coefficients T5, T4, …, T0 of rule R101, in the order Horner's rule takes them (rule R204). -/
def taylorCoefficients : List Word :=
  [0x3C1D955B#32, 0x3D635847#32, 0x3E75FDF0#32, 0x3F317218#32, 0x3F800000#32]

/-- T5 (rule R101), where Horner's rule starts. -/
def taylorT5 : Word := 0x3AAEC3FF#32

/-- The polynomial of rule R204 at `fr`: `p = (fr * p) + T` for T4 down to T0. -/
def taylorPoly (fr : Word) : Word :=
  taylorCoefficients.foldl (fun p t => fadd (fmul fr p) t) taylorT5

/-- EXP2 of a finite argument in mode TAYLOR5 (rule R204). -/
def exp2Taylor (x : Word) : Word := ldexp32 (taylorPoly (fracPart x)) (floorInt x)

/-- The number of factors two of `m`, at most `fuel`. -/
def twosIn : (fuel m : Nat) → Nat
  | 0, _ => 0
  | fuel + 1, m => if m % 2 = 0 then twosIn fuel (m / 2) + 1 else 0

/-- Bounds on `c ^ (2 ^ k)`: numbers `lo`, `hi`, `s` with `lo * 2 ^ s ≤ c ^ (2 ^ k) ≤ hi * 2 ^ s`, kept to about
192 bits by squaring `k` times and dropping low bits outwards. -/
def powBounds (c : Nat) : (k : Nat) → Nat × Nat × Nat
  | 0 => (c, c, 0)
  | k + 1 =>
    let b := powBounds c k
    let drop := (b.2.1 * b.2.1).log2 + 1 - 192
    if drop = 0 then (b.1 * b.1, b.2.1 * b.2.1, 2 * b.2.2)
    else (b.1 * b.1 / 2 ^ drop, b.2.1 * b.2.1 / 2 ^ drop + 1, 2 * b.2.2 + drop)

/-- `c ^ (2 ^ k) ≤ 2 ^ E` for positive `c`, decided from the bounds where they decide it and from the powers
themselves where they do not; the answer is exact in both cases. -/
def powLe (c k : Nat) (E : Int) : Bool :=
  let b := powBounds c k
  let loLog : Int := b.1.log2 + b.2.2
  let hiLog : Int := b.2.1.log2 + b.2.2
  if hiLog < E then true
  else if E < loLog ∨ (E = loLog ∧ b.1 ≠ 2 ^ b.1.log2) then false
  else decide (0 ≤ E ∧ c ^ 2 ^ k ≤ 2 ^ E.toNat)

/-- The greatest `m < 2 ^ bits` with `le m`, for a predicate that holds at 0 and is downward closed. -/
def greatest (le : Nat → Bool) (bits : Nat) : Nat :=
  (List.range bits).foldl (fun m j => let m' := m + 2 ^ (bits - 1 - j); if le m' then m' else m) 0

/-- EXP2 of a finite argument in mode EXACT: `RN32(2^x)` (rule R205). The argument is `n / 2 ^ k` in lowest
terms; in the spacing `2 ^ q` of the result, the count is the greatest `m` with `m * 2 ^ q ≤ 2 ^ x`, raised by
one when `2 ^ x` is past the midpoint above it or on it with `m` odd (on it only for an integer `x`). -/
def exp2Exact (x : Word) : Word :=
  if isZero x then one
  else if 127 < floorInt x then withSign false infMagnitude
  else if floorInt x < -150 then 0#32
  else
    let t := twosIn 24 (significand x)
    let e := ulpExponent x + t
    let k := (-e).toNat
    let n := signedSignificand x / 2 ^ t * 2 ^ e.toNat
    let q := max (floorInt x - 23) (-149)
    let le := fun c : Nat => powLe c k (n - q * 2 ^ k)
    let m := greatest le 24
    let half := n - (q - 1) * 2 ^ k
    let past := powLe (2 * m + 1) k half
    let tie := k == 0 && decide (0 ≤ half ∧ 2 * m + 1 = 2 ^ half.toNat)
    let up := past && !(tie && m % 2 == 0)
    withSign false ((q + 149).toNat * 2 ^ 23 + if up then m + 1 else m)

/-- `EXP2(x)`: +0.0 for a NaN or −∞, +∞ for +∞, otherwise by the build's mode (rules R204, R205). -/
def exp2 (p : Params) (x : Word) : Word :=
  if isNaN x then 0#32
  else if isInf x then (if signBit x then 0#32 else withSign false infMagnitude)
  else match p.exp2Mode with
    | .taylor5 => exp2Taylor x
    | .exact => exp2Exact x

end Sys2Proof.Machine
end

