-- ==== Sys2Proof/Machine/Flags.lean ====
section
/-! DEFINITION. Machine/Flags.lean: STATUS and its sticky error bits (rules R54, R210, R237, R261), the words of
the packed registers, and the one condition flag of the datapath (rule R39). -/

namespace Sys2Proof.Machine

open Sys2Proof.Config

/-- `STATUS.BADCMD <- 1` (rules R238, R261). -/
def setBadCmd (s : State) : State := { s with badCmd := true }

/-- `STATUS.BADACC <- 1` (rules R74, R76, R261). -/
def setBadAcc (s : State) : State := { s with badAcc := true }

/-- `STATUS.BADCMD <- 0; STATUS.BADACC <- 0` (rule R237). -/
def clearErrors (s : State) : State := { s with badCmd := false, badAcc := false }

/-- `ceil(n / GROUP_WIDTH)` (rule R210). -/
def groupsOf (p : Params) (n : Nat) : Nat := (n + p.groupWidth - 1) / p.groupWidth

/-- The dispatch report at the end of a STEP over `n` lanes (rule R210). -/
def reportDispatch (p : Params) (n : Nat) (s : State) : State :=
  { s with outChannels := BitVec.ofNat 5 n, activeGroups := BitVec.ofNat 5 (groupsOf p n) }

/-- STATUS as read (rule R54): BADCMD at 0, BADACC at 1, OUT_CHANNELS at [12:8], ACTIVE_GROUPS at [20:16]. -/
def statusWord (s : State) : Word :=
  fieldAt 16 s.activeGroups ||| fieldAt 8 s.outChannels ||| fieldAt 1 (BitVec.ofBool s.badAcc) |||
    fieldAt 0 (BitVec.ofBool s.badCmd)

/-- CTRL as read (rule R53): VARIANT at [1:0], LFO_EN at 2, DETUNE_EN at 3. -/
def ctrlWord (p : Params) (s : State) : Word :=
  fieldAt 3 (BitVec.ofBool s.detuneEn) ||| fieldAt 2 (BitVec.ofBool (lfoOn p s)) ||| fieldAt 0 (variantCode s.variant)

/-- ID (rule R50). -/
def idWord : Word := 0x4D4F5343#32

/-- PARAMS as read (rule R51): MAX_CHANNELS, GROUP_WIDTH, QUALITY and OVERSAMPLE from the low byte up. -/
def paramsWord (p : Params) : Word :=
  fieldAt 24 (BitVec.ofNat 8 oversample) ||| fieldAt 16 (BitVec.ofNat 8 quality) |||
    fieldAt 8 (BitVec.ofNat 8 p.groupWidth) ||| fieldAt 0 (BitVec.ofNat 8 p.maxChannels)

/-- The bit that reports EXP2_MODE: 0 for TAYLOR5, 1 for EXACT (rule R52). -/
def exp2ModeBit : Exp2Mode → BitVec 1
  | .taylor5 => 0#1
  | .exact => 1#1

/-- CONFIG as read (rule R52): LFO_SUPPORTED at 0, EXP2_MODE at 1. -/
def configWord (p : Params) : Word :=
  fieldAt 1 (exp2ModeBit p.exp2Mode) ||| fieldAt 0 (BitVec.ofBool p.lfoSupported)

/-- The wrap flag of ADVANCE for the sum `p` of phase and increment: `p >= 1.0` (rules R39, R130). -/
def wrapFlag (sum : Word) : Bool := fle one sum

end Sys2Proof.Machine
end

