-- ==== Sys2Proof/Machine/Ops.lean ====
section
/-! DEFINITION. Machine/Ops.lean: the named operations over the block's storage: reading and writing the register
window, the delay line's storing rule, the resets, and the completion of a transaction. MBOSC takes no exception
and returns from none (rules R260, R265, R266); what stands in that place is the recording of a bad access or
command in STATUS, `setBadAcc` and `setBadCmd` of Machine/Flags.lean. -/

namespace Sys2Proof.Machine

open Sys2Proof.Config

/-- The transaction completes and the bus reports it (rules R77, R80, R82). -/
def complete (r : BusResponse) (s : State) : State := { s with response := r }

/-- The word a READ of a register returns (rules R46, R60, R230). It depends on the state alone: no register has
a read side effect (rule R77). -/
def readReg (p : Params) (s : State) : Reg → Word
  | .id => idWord
  | .params => paramsWord p
  | .config => configWord p
  | .ctrl => ctrlWord p s
  | .status => statusWord s
  | .channels => s.channels.setWidth 32
  | .sampleInterval => s.sampleInterval
  | .freqKnob => s.freqKnob
  | .fineKnob => s.fineKnob
  | .shapeKnob => s.shapeKnob
  | .cmd => 0#32
  | .pitchCv i => s.pitchCv[i]
  | .shapeCv i => s.shapeCv[i]
  | .out i => s.lanes[i].outv
  | .phase i => s.lanes[i].phase
  | .shape i => s.lanes[i].shape
  | .freq i => s.lanes[i].freq
  | .reserved => 0#32

/-- The word a READ at a byte offset returns (rules R71, R75, R230). -/
def readWindow (p : Params) (s : State) (offset : BitVec 10) : Word :=
  readReg p s (regAt p.maxChannels offset)

/-- The byte at a byte offset of the window, little-endian in its word (rule R73). -/
def readWindowByte (p : Params) (s : State) (offset : BitVec 10) : Byte :=
  (readWindow p s offset).extractLsb' (8 * (offset.extractLsb' 0 2).toNat) 8

/-- CTRL after a write of `data` (rules R53, R231): VARIANT keeps its value for code 3, LFO_EN is written only
with LFO_SUPPORTED, bits [31:4] are ignored. -/
def writeCtrl (p : Params) (data : Word) (s : State) : State :=
  { s with
    variant := (variantOfCode (data.extractLsb' 0 2)).getD s.variant
    lfoEn := if p.lfoSupported then data.getLsbD 2 else s.lfoEn
    detuneEn := data.getLsbD 3 }

/-- A full-width write of a register other than CMD (rules R46, R74, R110, R231): an RW register stores what its
rule names, an RO or reserved one records a bad access and nothing else. A CMD write is not stored; the caller
executes it. -/
def writeReg (p : Params) (data : Word) (s : State) : Reg → State
  | .ctrl => writeCtrl p data s
  | .channels => { s with channels := channelsStored p data }
  | .sampleInterval => { s with sampleInterval := data }
  | .freqKnob => { s with freqKnob := freqKnobStored data }
  | .fineKnob => { s with fineKnob := fineKnobStored data }
  | .shapeKnob => { s with shapeKnob := shapeKnobStored data }
  | .pitchCv i => { s with pitchCv := s.pitchCv.set i data }
  | .shapeCv i => { s with shapeCv := s.shapeCv.set i data }
  | .cmd => s
  | .id => setBadAcc s
  | .params => setBadAcc s
  | .config => setBadAcc s
  | .status => setBadAcc s
  | .out _ => setBadAcc s
  | .phase _ => setBadAcc s
  | .shape _ => setBadAcc s
  | .freq _ => setBadAcc s
  | .reserved => setBadAcc s

/-- `bits(x)` of a result that is stored: its encoding, and for a NaN a free value (the spec states no encoding;
DESIGN CHOICE, log entry 6). `site` tells the storing places of one lane's STEP apart. -/
def storedBits (p : Params) (count lane site : Nat) (x : Word) : Word :=
  if isNaN x then p.nan count lane site else x

/-- Every lane returns to its reset state (rules R235, R283). -/
def resetLanes (s : State) : State := { s with lanes := Vector.replicate 16 Lane.reset }

/-- Every state element of the block takes its reset value (rules R68, R281, R282). The host's queue and the
model's own fields are not the block's and stay. -/
def resetBlock (s : State) : State :=
  { State.reset with queue := s.queue, response := s.response, freeCount := s.freeCount }

/-- Hardware reset (rules R281, R290): the block is reset, and a transaction that was in progress never reports
completion. -/
def hardwareReset (s : State) : State := complete .none (resetBlock s)

end Sys2Proof.Machine
end

