-- ==== Sys2Proof/Machine/Mapper.lean ====
section
/-! DEFINITION. Machine/Mapper.lean: STEP stage MAP (rules R200–R207). -/

namespace Sys2Proof.Machine

open Sys2Proof.Config

/-- The fine-tune term in octaves, `(FINE_KNOB * |FINE_KNOB|) * FINE_RANGE_OCT` (rule R201). -/
def fineTerm (s : State) : Word := fmul (fmul s.fineKnob (fabs s.fineKnob)) fineRangeOct

/-- The panel's pitch in octaves, `p1` of rule R200: the fine term outside LFO mode (rule R201), the LFO shift in
it (rule R202). -/
def knobOctaves (p : Params) (s : State) : Word :=
  let ko := fdiv s.freqKnob twelve
  if lfoOn p s then fsub ko lfoShiftOct else fadd ko (fineTerm s)

/-- Lane `i`'s pitch in octaves, `p3` of rule R200, with its detune (rule R203). -/
def pitchOctaves (p : Params) (s : State) (i : Fin 16) : Word :=
  let p2 := fadd (knobOctaves p s) s.pitchCv[i]
  if s.detuneEn then fadd p2 (p.detune (i.val % p.groupWidth)) else p2

/-- Lane `i`'s frequency, `F_REF * EXP2(p3)` (rule R206). -/
def laneFreq (p : Params) (s : State) (i : Fin 16) : Word := fmul fRef (exp2 p (pitchOctaves p s i))

/-- The normalized shape of a raw control value: clamp to [0.1, 9.9], times 0.1 (rule R207). -/
def shapeOfRaw (raw : Word) : Word := fmul (fclamp raw shapeRawLo shapeRawHi) shapeScale

/-- Lane `i`'s shape (rule R207). -/
def laneShape (s : State) (i : Fin 16) : Word := shapeOfRaw (fadd s.shapeCv[i] s.shapeKnob)

/-- MAP(i) (rule R200). -/
def mapLane (p : Params) (s : State) (i : Fin 16) (l : Lane) : Lane :=
  { l with freq := laneFreq p s i, shape := laneShape s i }

end Sys2Proof.Machine
end

