-- ==== Sys2Proof/Machine/MinBlep.lean ====
section
/-! DEFINITION. Machine/MinBlep.lean: STEP stages LOOKUP, INSERT and PROCESS (rules R173, R174, R176). -/

namespace Sys2Proof.Machine

open Sys2Proof.Config

/-- 16.0, the table points a sample (rule R173). -/
def pointsPerSample : Word := 0x41800000#32

/-- 512.0, the table's span in points (rule R173). -/
def spanPoints : Word := 0x44000000#32

/-- LOOKUP(t): the step response `t` samples after the discontinuity (rule R173). -/
def lookup (p : Params) (t : Word) : Word :=
  let x := fmul t pointsPerSample
  if fle spanPoints x then p.rom 512
  else
    let k := (floorInt x).toNat
    let frac := fsub x (f32Nat k)
    let a := p.rom k
    fadd a (fmul (fsub (p.rom (k + 1)) a) frac)

/-- The correction `J * (S(j + d) - 1)` due `j` samples from now (rule R174). -/
def correction (p : Params) (d J : Word) (j : Nat) : Word :=
  fmul J (fsub (lookup p (fadd (f32Nat j) d)) one)

/-- One turn of INSERT's loop: the correction for `j` is added to its delay-line entry (rule R174). -/
def insertAt (p : Params) (count lane : Nat) (d J : Word) (pos : Fin 32) (dl : Vector Word 32) (j : Nat) :
    Vector Word 32 :=
  let k : Fin 32 := pos + Fin.ofNat 32 j
  dl.set k (storedBits p count lane j (fadd dl[k] (correction p d J j)))

/-- INSERT(i, d, J) on a delay line: `j` from 0 to 31 in increasing order (rule R174). -/
def insert (p : Params) (count lane : Nat) (d J : Word) (pos : Fin 32) (dl : Vector Word 32) : Vector Word 32 :=
  (List.range 32).foldl (insertAt p count lane d J pos) dl

/-- PROCESS(i): the correction due now, and the lane with its entry cleared and its index advanced modulo 32
(rule R176). -/
def process (l : Lane) : Word × Lane :=
  (l.dl[l.pos], { l with dl := l.dl.set l.pos 0#32, pos := l.pos + 1 })

end Sys2Proof.Machine
end

