-- ==== Sys2Proof/Machine/Phase.lean ====
section
/-! DEFINITION. Machine/Phase.lean: STEP stage ADVANCE (rules R130, R131). -/

namespace Sys2Proof.Machine

/-- The clamped increment of a frequency and a sample interval (rule R130). -/
def increment (freq dt : Word) : Word := fclamp (fmul freq dt) incMin incMax

/-- What ADVANCE makes of a phase and an increment (rules R39, R130, R131). -/
structure Advanced where
  /-- The new phase. -/
  phase : Word
  /-- The STEP-local wrap flag. -/
  wrapped : Bool
  /-- The sub-sample offset; without a wrap it is not computed, and no rule reads it. -/
  d : Word
deriving DecidableEq, Repr

/-- ADVANCE on a phase and an increment: the sum, the wrap at 1.0 by subtracting the floor, and on a wrap the
offset `d = phase / inc` of the new phase (rules R130, R131). -/
def advance (phase inc : Word) : Advanced :=
  let sum := fadd phase inc
  if wrapFlag sum then
    let phase' := fsub sum (ffloor sum)
    { phase := phase', wrapped := true, d := fdiv phase' inc }
  else { phase := sum, wrapped := false, d := 0#32 }

end Sys2Proof.Machine
end

