-- ==== Sys2Proof/Machine/Shaper.lean ====
section
/-! DEFINITION. Machine/Shaper.lean: STEP stage SHAPE, the three closed-form waveforms (rules R150–R154). The
names of the intermediate values are the rules'. -/

namespace Sys2Proof.Machine

open Sys2Proof.Config

/-- 0.5. -/
def half : Word := 0x3F000000#32

/-- 2.0. -/
def two : Word := 0x40000000#32

/-- 4.0. -/
def four : Word := 0x40800000#32

/-- `m` of CZ_SAW (rule R151): the warped position in the cosine's cycle. -/
def czSawPosition (φ s : Word) : Word :=
  let t := fmul s half
  let l := fsub half t
  let n := fsub half l
  let su := fdiv n l
  let dd := fsub one l
  let sd := fdiv n dd
  let a := fmul φ su
  let om := fsub one φ
  let b := fmul om sd
  fadd φ (fmin a b)

/-- `m` of CZ_SAW_PULSE (rule R152). -/
def czSawPulsePosition (φ s : Word) : Word :=
  let om := fsub one φ
  let a := fmul two om
  let q := fsub one s
  let k := fdiv s q
  let oa := fsub one a
  let b := fmul oa k
  let df := fsub a (fmin a b)
  let c := fmul half df
  fmin c φ

/-- MOOG_INVSAW (rule R153). -/
def moogInvSaw (φ : Word) : Word :=
  let om := fsub one φ
  let t := fmul two om
  let a := fsub t one
  let sq := fmul a a
  let n := fsub sq one
  let b := fdiv n four
  fadd a b

/-- SHAPE: the naive sample of a phase and a shape (rules R150–R154). -/
def naiveSample (p : Params) (v : Variant) (φ s : Word) : Word :=
  match v with
  | .czSaw => p.cos32 (fmul twoPi (czSawPosition φ s))
  | .czSawPulse => p.cos32 (fmul twoPi (czSawPulsePosition φ s))
  | .moogInvSaw => moogInvSaw φ

end Sys2Proof.Machine
end

