-- ==== Sys2Proof/Machine/LaneStep.lean ====
section
/-! DEFINITION. Machine/LaneStep.lean: one active lane's part of a STEP, stage by stage, and the STEP over the
active lanes (rules R177, R178, R208–R211, R234). -/

namespace Sys2Proof.Machine

open Sys2Proof.Config

/-- The storing sites of `storedBits` after the delay line's 0..31: the corrected sample and the voltage. -/
def outSite : Nat := 32

/-- See `outSite`. -/
def outvSite : Nat := 33

/-- The output voltage of a corrected sample: times 5.0, and in LFO mode plus `FINE_KNOB * LFO_DC_VOLTS`
(rule R211). -/
def outputVolts (p : Params) (s : State) (out : Word) : Word :=
  let v := fmul out outGain
  if lfoOn p s then fadd v (fmul s.fineKnob lfoDcVolts) else v

/-- The output stage: the corrected sample and its voltage are stored (rules R177, R211). -/
def emit (p : Params) (s : State) (i : Fin 16) (y corr : Word) (l : Lane) : Lane :=
  let out := storedBits p s.freeCount i outSite (fadd y corr)
  { l with out := out, outv := storedBits p s.freeCount i outvSite (outputVolts p s out) }

/-- The lane after MAP and ADVANCE, with the wrap flag and the offset for the stages after them (rules R130, R200,
R234). -/
def mapAdvance (p : Params) (s : State) (i : Fin 16) (l : Lane) : Lane × Advanced :=
  let l := mapLane p s i l
  let a := advance l.phase (increment l.freq s.sampleInterval)
  ({ l with phase := a.phase }, a)

/-- INSERT when the lane wrapped, with the variant's jump (rules R175, R178). -/
def insertOnWrap (p : Params) (s : State) (i : Fin 16) (a : Advanced) (l : Lane) : Lane :=
  if a.wrapped then { l with dl := insert p s.freeCount i a.d (jump s.variant) l.pos l.dl } else l

/-- One active lane's STEP: MAP, ADVANCE, SHAPE, INSERT on a wrap, PROCESS, output (rule R234). The inputs are the
registers of `s`, as they stand when the command is accepted (rule R86). -/
def stepLane (p : Params) (s : State) (i : Fin 16) (l : Lane) : Lane :=
  let ma := mapAdvance p s i l
  let y := naiveSample p s.variant ma.1.phase ma.1.shape
  let pr := process (insertOnWrap p s i ma.2 ma.1)
  emit p s i y pr.1 pr.2

/-- The lanes after a STEP: lane `i` is active exactly when `i < n` and otherwise untouched (rule R209). No lane
reads another, so the order of the loop does not show (rule R30). -/
def stepLanes (p : Params) (s : State) : Vector Lane 16 :=
  Vector.ofFn fun i => if i.val < activeCount s then stepLane p s i s.lanes[i] else s.lanes[i]

/-- STEP on the block: the lanes, then the dispatch report (rules R210, R234). The model's counter advances, so
that every STEP's NaN encodings are free of the others'. -/
def stepBlock (p : Params) (s : State) : State :=
  reportDispatch p (activeCount s) { s with lanes := stepLanes p s, freeCount := s.freeCount + 1 }

end Sys2Proof.Machine
end

