-- ==== Sys2Proof/Machine/Commands.lean ====
section
/-! DEFINITION. Machine/Commands.lean: EXECUTE and the five commands (rules R232–R238). Each meaning completes its
CMD write when the command's whole effect is done (rule R232). -/

namespace Sys2Proof.Machine

open Sys2Proof.Config

/-- A defined command's effect on the block (rules R233–R237). -/
def performCommand (p : Params) (s : State) : Command → State
  | .nop => s
  | .step => stepBlock p s
  | .laneReset => resetLanes s
  | .fullReset => resetBlock s
  | .clearStatus => clearErrors s

/-- EXECUTE(word): a defined command is performed, a reserved word only sets BADCMD (rules R232, R238). -/
def execute (p : Params) (word : Word) (s : State) : State :=
  match decodeCommand word with
  | some c => performCommand p s c
  | none => setBadCmd s

/-- NOP (rule R233). -/
def execNop (s : State) : Host.Outcome State Fault Refusal :=
  .next (complete .writeDone (performCommand hw s .nop))

/-- STEP (rule R234). -/
def execStep (s : State) : Host.Outcome State Fault Refusal :=
  .next (complete .writeDone (performCommand hw s .step))

/-- LANE_RESET (rules R235, R283). -/
def execLaneReset (s : State) : Host.Outcome State Fault Refusal :=
  .next (complete .writeDone (performCommand hw s .laneReset))

/-- FULL_RESET (rules R236, R282). -/
def execFullReset (s : State) : Host.Outcome State Fault Refusal :=
  .next (complete .writeDone (performCommand hw s .fullReset))

/-- CLEAR_STATUS (rule R237). -/
def execClearStatus (s : State) : Host.Outcome State Fault Refusal :=
  .next (complete .writeDone (performCommand hw s .clearStatus))

end Sys2Proof.Machine
end

