-- ==== Sys2Proof/Machine/Bus.lean ====
section
/-! DEFINITION. Machine/Bus.lean: the two bus transactions (rules R230, R231). -/

namespace Sys2Proof.Machine

open Sys2Proof.Config

/-- A WRITE's effect on the block: ignored with a byte enable clear, but for BADACC (rules R76, R264); to CMD it
executes the word; to any other register it writes it (rule R231). -/
def performWrite (p : Params) (offset : BitVec 10) (be : BitVec 4) (data : Word) (s : State) : State :=
  if be = 15#4 then
    match regAt p.maxChannels offset with
    | .cmd => execute p data s
    | r => writeReg p data s r
  else setBadAcc s

/-- READ(offset): the register's word goes to the bus, whatever the byte enables; nothing else changes
(rules R76, R77, R230). -/
def execRead (offset : BitVec 10) (_be : BitVec 4) (s : State) : Host.Outcome State Fault Refusal :=
  .next (complete (.readData (readWindow hw s offset)) s)

/-- WRITE(offset, data) (rule R231). -/
def execWrite (offset : BitVec 10) (be : BitVec 4) (data : Word) (s : State) :
    Host.Outcome State Fault Refusal :=
  .next (complete .writeDone (performWrite hw offset be data s))

end Sys2Proof.Machine
end

