-- ==== Sys2Proof/Machine/Dispatch.lean ====
section
/-! DEFINITION. Machine/Dispatch.lean: one meaning for each row of spec/opcode_table.json. -/

namespace Sys2Proof.Machine

def exec (i : Instr) (s : State) : Host.Outcome State Fault Refusal :=
  match i with
  | .read offset be => Sys2Proof.Machine.execRead offset be s
  | .write offset be data => Sys2Proof.Machine.execWrite offset be data s
  | .nop => Sys2Proof.Machine.execNop s
  | .step => Sys2Proof.Machine.execStep s
  | .laneReset => Sys2Proof.Machine.execLaneReset s
  | .fullReset => Sys2Proof.Machine.execFullReset s
  | .clearStatus => Sys2Proof.Machine.execClearStatus s

end Sys2Proof.Machine
end

