-- ==== Sys2Proof/Machine/Step.lean ====
section
/-! DEFINITION. Machine/Step.lean: one step of the block: the host's next event, taken to completion (rules R30,
R80). There is no program counter and no fetch (rule R40); what stands in its place is the host's queue. -/

namespace Sys2Proof.Machine

/-- One step. With nothing asked of it the block does nothing (rule R272); a hardware reset resets the block and
abandons the transaction in progress (rules R281, R290); a transaction is decoded and performed whole before the
next one is looked at (rules R80, R106). -/
def step (s : State) : Host.Outcome State Fault Refusal :=
  match s.queue with
  | [] => .next s
  | .hardReset _ :: rest => .next (hardwareReset { s with queue := rest })
  | .transaction t :: rest => exec (decodeTransaction t) { s with queue := rest }

/-- The state with one more transaction at the head of the host's queue: the one whose bits are `w`, numbered as
spec/opcode_table.json numbers them. -/
def State.withFetchWord (s : State) (nbits w : Nat) : State :=
  { s with queue := .transaction (tableTransaction nbits w) :: s.queue }

end Sys2Proof.Machine
end

