-- ==== Sys2Proof/Machine/HostProgram.lean ====
section
/-! DEFINITION. Machine/HostProgram.lean: how a host's accesses become the block's transactions: bus addresses
(rules R13, R71, R78), the host-program statements with their pseudo-instructions (rules R111, R112), and one
sample of the source's `configure` (rule R239). -/

namespace Sys2Proof.Machine

open Sys2Proof.Config

/-- The offset of a bus address: the low ten bits of `A - BASE`; the block does not decode the bits above
(rule R71). -/
def offsetOfAddress (base address : Nat) : BitVec 10 := BitVec.ofInt 10 ((address : Int) - base)

/-- `BusRead(addr)` (rule R13), all byte enables set. -/
def busRead (base address : Nat) : Transaction :=
  { isWrite := false, offset := offsetOfAddress base address, be := 15#4, data := 0#32 }

/-- `BusWrite(addr, data)` (rule R13), all byte enables set. -/
def busWrite (base address : Nat) (data : Word) : Transaction :=
  { isWrite := true, offset := offsetOfAddress base address, be := 15#4, data := data }

/-- The number of a `wrf` statement (rule R112): a decimal as the fraction `num / den`, or a token. A decimal has a
positive `den`; a zero one has no sign here (log entry 18). -/
inductive Literal where
  | decimal (num : Int) (den : Nat)
  | nan
  | inf
  | negInf
deriving DecidableEq, Repr

/-- The word a `wrf` number stands for: `bits(RN32(decimal))`, or the token's word (rule R112). RN32 is a rule on
reals, so which zero a decimal that rounds to zero writes is the model's choice (DESIGN CHOICE, log entry 18): a zero
decimal, `-0.0` too, writes +0.0, and a nonzero one too small for binary32 writes the zero of its sign. -/
def literalWord : Literal → Word
  | .decimal num den => rn32 (decide (num < 0)) num.natAbs den 0
  | .nan => 0x7FC00000#32
  | .inf => 0x7F800000#32
  | .negInf => 0xFF800000#32

/-- A lane array of rule R49. -/
inductive LaneArray where
  | pitchCv
  | shapeCv
  | out
  | phase
  | shape
  | freq
deriving DecidableEq, Repr

/-- Slot `i` of a lane array (rule R49). -/
def laneArrayReg : LaneArray → Fin 16 → Reg
  | .pitchCv => .pitchCv
  | .shapeCv => .shapeCv
  | .out => .out
  | .phase => .phase
  | .shape => .shape
  | .freq => .freq

/-- A host-program statement (rules R111, R112). An operand is the byte offset its register name or raw offset
stands for. -/
inductive Stmt where
  | rd (offset : BitVec 10)
  | wr (offset : BitVec 10) (imm : Word)
  | nop
  | step
  | lreset
  | reset
  | clrst
  | wrf (offset : BitVec 10) (x : Literal)
  | setch (n : Nat)
  | variant (v : Variant) (lfo detune : Bool)
  | steps (n : Nat)
  | wrall (a : LaneArray) (x : Literal)
deriving DecidableEq, Repr

/-- A full-width write. -/
def writeAt (offset : BitVec 10) (data : Word) : Transaction :=
  { isWrite := true, offset := offset, be := 15#4, data := data }

/-- The transactions of a statement (rules R111, R112). -/
def stmtTransactions (p : Params) : Stmt → List Transaction
  | .rd offset => [{ isWrite := false, offset := offset, be := 15#4, data := 0#32 }]
  | .wr offset imm => [writeAt offset imm]
  | .nop => [commandTransaction (encodeCommand .nop)]
  | .step => [commandTransaction (encodeCommand .step)]
  | .lreset => [commandTransaction (encodeCommand .laneReset)]
  | .reset => [commandTransaction (encodeCommand .fullReset)]
  | .clrst => [commandTransaction (encodeCommand .clearStatus)]
  | .wrf offset x => [writeAt offset (literalWord x)]
  | .setch n => [writeAt (regOffset .channels) (BitVec.ofNat 32 n)]
  | .variant v lfo detune =>
    [writeAt (regOffset .ctrl)
      (fieldAt 3 (BitVec.ofBool detune) ||| fieldAt 2 (BitVec.ofBool lfo) ||| fieldAt 0 (variantCode v))]
  | .steps n => List.replicate n (commandTransaction (encodeCommand .step))
  | .wrall a x =>
    (List.range p.maxChannels).map fun i => writeAt (regOffset (laneArrayReg a (Fin.ofNat 16 i))) (literalWord x)

/-- The transactions of a program, statement by statement (rule R111). -/
def programTransactions (p : Params) (program : List Stmt) : List Transaction :=
  program.flatMap (stmtTransactions p)

/-- One sample of `configure(controlInputs) → AudioSample`: the input writes, STEP, then the reads of OUT[i] for
the lanes the STEP reports (rule R239). -/
def sampleTransactions (inputs : List (BitVec 10 × Word)) (channels : Nat) : List Transaction :=
  inputs.map (fun w => writeAt w.1 w.2) ++ [commandTransaction (encodeCommand .step)] ++
    (List.range channels).map fun i =>
      { isWrite := false, offset := regOffset (.out (Fin.ofNat 16 i)), be := 15#4, data := 0#32 }

/-- The state with a host's transactions behind those it already has pending (rule R80). -/
def offer (ts : List Transaction) (s : State) : State :=
  { s with queue := s.queue ++ ts.map .transaction }

end Sys2Proof.Machine
end

