-- ==== Sys2Proof/Safety.lean ====
section
/-! DEFINITION. Safety.lean: the terms the claims use: what a safe step is, the real values encodings stand for,
rounding to nearest as a relation, and the invariants the spec states of the block's state. -/

namespace Sys2Proof.Safety

open Sys2Proof.Machine Sys2Proof.Config

/-- What an instruction does to a build: for the hardware's it is the state `exec` answers. -/
def buildExec (p : Params) (i : Instr) (s : State) : State :=
  match i with
  | .read offset _ => complete (.readData (readWindow p s offset)) s
  | .write offset be data => complete .writeDone (performWrite p offset be data s)
  | .nop => complete .writeDone (performCommand p s .nop)
  | .step => complete .writeDone (performCommand p s .step)
  | .laneReset => complete .writeDone (performCommand p s .laneReset)
  | .fullReset => complete .writeDone (performCommand p s .fullReset)
  | .clearStatus => complete .writeDone (performCommand p s .clearStatus)

/-- One step of a build (rules R30, R80, R290): for the hardware's it is the state `step` answers. Claims that need a
premise on an OPEN parameter are stated of it, for every build. -/
def buildStep (p : Params) (s : State) : State :=
  match s.queue with
  | [] => s
  | .hardReset _ :: rest => hardwareReset { s with queue := rest }
  | .transaction t :: rest => buildExec p (decodeTransaction t) { s with queue := rest }

/-- A step that completes (rule R260). -/
def Completes (s : State) : Prop := ∃ t, step s = .next t

/-- The value of bits [30:0] of an encoding that is no NaN (rule R100); for the infinity's bits it is `2 ^ 128`,
the value at which RN32 overflows. -/
def magValue (m : ℕ) : ℚ :=
  if m / 2 ^ 23 = 0 then (m : ℚ) * 2 ^ (-149 : ℤ)
  else ((2 ^ 23 + m % 2 ^ 23 : ℕ) : ℚ) * 2 ^ ((m / 2 ^ 23 : ℕ) - 150 : ℤ)

/-- The real value of a finite encoding (rule R100). -/
def value (w : Word) : ℚ := signedSignificand w * 2 ^ ulpExponent w

/-- `m` is bits [30:0] of `RN32(x)` for a real `x ≥ 0` (rule R12): no other binary32 magnitude is nearer, and of
two equally near it is the even one. `2 ^ 128` stands for the infinity. -/
def RoundsTo (x : ℝ) (m : ℕ) : Prop :=
  m ≤ infMagnitude ∧ ∀ k, k ≤ infMagnitude → k ≠ m →
    |(magValue m : ℝ) - x| < |(magValue k : ℝ) - x| ∨
      (|(magValue m : ℝ) - x| = |(magValue k : ℝ) - x| ∧ m % 2 = 0)

/-- `w` is `RN32(x)` for a real `x ≠ 0`: the sign of `x` and the rounding of its size. -/
def IsRN32 (x : ℝ) (w : Word) : Prop := signBit w = decide (x < 0) ∧ RoundsTo |x| (magnitude w)

/-- The phase invariant `0 ≤ phase < 1`, with no −0.0 and no NaN (rules R32, R132). -/
def PhaseOk (w : Word) : Prop := w.toNat < 0x3F800000

/-- The shape range of rule R34. -/
def ShapeOk (w : Word) : Prop := 0x3C23D70B ≤ w.toNat ∧ w.toNat ≤ 0x3F7D70A3

/-- A frequency is +0.0, positive finite or +∞ (rule R33). -/
def FreqOk (w : Word) : Prop := w.toNat ≤ 0x7F800000

/-- The closed range between two binary32 values; a NaN is in none. -/
def InRange (lo hi w : Word) : Prop := fle lo w = true ∧ fle w hi = true

/-- The invariants of a lane (rules R32–R34, R179). -/
structure LaneSound (l : Lane) : Prop where
  phase : PhaseOk l.phase
  shape : ShapeOk l.shape
  freq : FreqOk l.freq
  noNegZero : ∀ k : Fin 32, l.dl[k] ≠ 0x80000000#32

/-- The invariants of the block for a build: the lanes', the WARL ranges of rules R55 and R57–R59, and the field
ranges of rule R102. -/
structure Sound (p : Params) (s : State) : Prop where
  lanes : ∀ i : Fin 16, LaneSound s.lanes[i]
  channels : s.channels.toNat ≤ p.maxChannels
  outChannels : s.outChannels.toNat ≤ p.maxChannels
  activeGroups : s.activeGroups.toNat ≤ groupsOf p p.maxChannels
  freqKnob : InRange 0xC2580000#32 0x42580000#32 s.freqKnob
  fineKnob : InRange minusOne one s.fineKnob
  shapeKnob : InRange 0x00000000#32 0x41200000#32 s.shapeKnob

/-- Every pending correction of a lane is at most `2 ^ 127` in size: finite, and no NaN (rule R179). -/
def CorrectionsBounded (l : Lane) : Prop := ∀ k : Fin 32, magnitude l.dl[k] ≤ 0x7F000000

/-- Every table entry is below `2 ^ 100` in size, the condition of rule R179. -/
def TableBounded (p : Params) : Prop := ∀ k, k ≤ 512 → magnitude (p.rom k) < 0x71800000

/-- Two states that differ at most in what the bus last reported. -/
def SameButResponse (s t : State) : Prop := ∃ r, t = { s with response := r }

end Sys2Proof.Safety
end

