-- ==== Sys2Proof/Certificates/Slice0/Obligations.lean ====
section
/-! DEFINITION. Certificates/Slice0/Obligations.lean: the statements for the provers, in the spec's order. Wherever
one shows `queue`, `response` or `freeCount`, that clause is about a field of the model's own (log entries 5 and 6),
not about a rule of the spec. -/

open Sys2Proof Sys2Proof.Machine Sys2Proof.Config Sys2Proof.Safety

/-! ### Arithmetic (spec/00_scope.md section 4) -/

/-- Rule R12's RN32: `roundMagnitude` answers the nearest binary32 magnitude, ties to even, and the infinity from
the midpoint above the largest finite number on. -/
def Obligations.RoundMagnitudeIsNearestTiesToEven : Prop :=
  ∀ (n d : ℕ) (e : ℤ), 0 < d → RoundsTo (((n : ℚ) / d * 2 ^ e : ℚ) : ℝ) (roundMagnitude n d e)

/-- Rule R11: on finite operands each of the four operations is the exact real result rounded once by RN32; an
exact zero sum is +0.0 unless both operands are −0.0, and a zero product or quotient has the product of the signs.
Operands that are not finite follow IEEE 754. -/
def Obligations.BinaryOperationsRoundTheExactResult : Prop :=
  ∀ a b : Word,
    (isFinite a = true → isFinite b = true →
      (value a + value b ≠ 0 → IsRN32 ((value a + value b : ℚ) : ℝ) (fadd a b)) ∧
      (value a + value b = 0 → fadd a b = if a = 0x80000000#32 ∧ b = 0x80000000#32 then 0x80000000#32 else 0#32) ∧
      (value a - value b ≠ 0 → IsRN32 ((value a - value b : ℚ) : ℝ) (fsub a b)) ∧
      (value a - value b = 0 → fsub a b = if a = 0x80000000#32 ∧ b = 0#32 then 0x80000000#32 else 0#32) ∧
      (value a * value b ≠ 0 → IsRN32 ((value a * value b : ℚ) : ℝ) (fmul a b)) ∧
      (value a * value b = 0 → fmul a b = if signBit a = signBit b then 0#32 else 0x80000000#32) ∧
      (value a ≠ 0 → value b ≠ 0 → IsRN32 ((value a / value b : ℚ) : ℝ) (fdiv a b)) ∧
      (value a = 0 → value b ≠ 0 → fdiv a b = if signBit a = signBit b then 0#32 else 0x80000000#32) ∧
      (value a ≠ 0 → value b = 0 → fdiv a b = if signBit a = signBit b then 0x7F800000#32 else 0xFF800000#32) ∧
      (value a = 0 → value b = 0 → isNaN (fdiv a b) = true)) ∧
    (isNaN a = true ∨ isNaN b = true →
      isNaN (fadd a b) = true ∧ isNaN (fsub a b) = true ∧ isNaN (fmul a b) = true ∧ isNaN (fdiv a b) = true) ∧
    (isInf a = true → isFinite b = true →
      fadd a b = a ∧ fadd b a = a ∧ fsub a b = a ∧ fsub b a = fneg a ∧
      (value b = 0 → isNaN (fmul a b) = true ∧ isNaN (fmul b a) = true) ∧
      (value b ≠ 0 → fmul a b = (if signBit a = signBit b then 0x7F800000#32 else 0xFF800000#32) ∧
        fmul b a = fmul a b) ∧
      fdiv a b = (if signBit a = signBit b then 0x7F800000#32 else 0xFF800000#32) ∧
      fdiv b a = (if signBit a = signBit b then 0#32 else 0x80000000#32)) ∧
    (isInf a = true → isInf b = true →
      (signBit a = signBit b → fadd a b = a ∧ isNaN (fsub a b) = true ∧ fmul a b = 0x7F800000#32) ∧
      (signBit a ≠ signBit b → isNaN (fadd a b) = true ∧ fsub a b = a ∧ fmul a b = 0xFF800000#32) ∧
      isNaN (fdiv a b) = true)

/-! ### Encoding and the step (spec/30_encoding.md, spec/20_memory.md) -/

/-- Decoding the frame of a well-formed instruction gives it back, every operand at every value. The frame's layout
is the model's choice (log entry 2); the fields and the command words are the spec's. -/
def Obligations.DecodeOfEncodeIsTheInstruction : Prop :=
  ∀ i : Instr, i.wf = true → decode (encode i) = .ok i

/-- Rules R106 and R107: the decoder takes exactly the five command words, compared whole. -/
def Obligations.CommandDecoderTakesExactlyTheFiveWords : Prop :=
  (∀ (w : Word) (c : Command), decodeCommand w = some c ↔ w = encodeCommand c) ∧
    encodeCommand .nop = 0x00000000#32 ∧ encodeCommand .step = 0x01000000#32 ∧
    encodeCommand .laneReset = 0x02000000#32 ∧ encodeCommand .fullReset = 0x03000000#32 ∧
    encodeCommand .clearStatus = 0x04000000#32

/-- The words of the opcode table decode to their rows, and a reserved command word to a WRITE of CMD. How a row's bits
are framed is the model's choice (log entries 2 and 3). -/
def Obligations.TableWordsDecodeToTheirRows : Prop :=
  decodeTableWord 8 0 = some (.read 0#10 0#4) ∧ decodeTableWord 8 1 = some (.write 0#10 0#4 0#32) ∧
    decodeTableWord 32 0x00000000 = some .nop ∧ decodeTableWord 32 0x01000000 = some .step ∧
    decodeTableWord 32 0x02000000 = some .laneReset ∧ decodeTableWord 32 0x03000000 = some .fullReset ∧
    decodeTableWord 32 0x04000000 = some .clearStatus ∧
    decodeTableWord 32 0x05000000 = some (.write 0x028#10 15#4 0x05000000#32)

/-- A step runs the decoded instruction: the transaction at the head of the host's queue decodes to a well-formed
instruction, the step is that instruction's meaning on the state without the event, and the transaction of every
well-formed instruction decodes to it. (The queue stands where other machines fetch: log entries 1 and 5.) -/
def Obligations.StepRunsTheDecodedInstruction : Prop :=
  (∀ (s : State) (t : Transaction) (rest : List HostEvent), s.queue = .transaction t :: rest →
    (decodeTransaction t).wf = true ∧ step s = exec (decodeTransaction t) { s with queue := rest }) ∧
  (∀ i : Instr, i.wf = true → decodeTransaction (encodeTransaction i) = i)

/-- What the byte decoder reads from an opcode-table word is what the next step runs when that word is offered. The
framing is the model's choice (log entries 2 and 3). -/
def Obligations.StepRunsTheOfferedTableWord : Prop :=
  ∀ (s : State) (nbits w : Nat) (i : Instr), decodeTableWord nbits w = some i →
    step (s.withFetchWord nbits w) = exec i s

/-- Rule R260: every step completes; a transaction leaves the queue, and the bus reports a READ's word or a WRITE's
completion, never an error (log entry 5). -/
def Obligations.EveryTransactionCompletes : Prop :=
  ∀ s : State, ∃ t : State, step s = .next t ∧
    ∀ (tr : Transaction) (rest : List HostEvent), s.queue = .transaction tr :: rest →
      t.queue = rest ∧
        (tr.isWrite = true → t.response = .writeDone) ∧
        (tr.isWrite = false → t.response = .readData (readWindow hw s tr.offset))

/-- Events are taken one at a time in their order, and what is offered later has no effect on the earlier ones
(spec/20_memory.md section 3; the queue is the model's own field, log entry 5). -/
def Obligations.EventsArePerformedInOrder : Prop :=
  ∀ (es : List HostEvent) (s : State), ∃ t : State, t.queue = [] ∧
    Host.Core.run core es.length ({ s with queue := es } : State) = .next t ∧
    ∀ later : List HostEvent,
      Host.Core.run core es.length ({ s with queue := es ++ later } : State) = .next ({ t with queue := later } : State)

/-- With nothing asked of it the block keeps all its state (spec/60_exceptions.md section 5). -/
def Obligations.IdleBlockKeepsItsState : Prop := ∀ s : State, s.queue = [] → step s = .next s

/-! ### Bus transactions (spec/10_state.md section 5, spec/44_host_commands.md section 1) -/

/-- A READ returns the named register's word, whatever the byte enables and offset bits [1:0], and changes nothing
but what the bus reports. -/
def Obligations.ReadReturnsTheRegisterAndChangesNothing : Prop :=
  ∀ (r : Reg) (off : BitVec 10) (be : BitVec 4) (s : State), r ≠ .reserved →
    wordIndex off = wordIndex (regOffset r) →
    exec (.read off be) s = .next { s with response := .readData (match r with
      | .id => 0x4D4F5343#32
      | .params => 0x10100410#32
      | .config => 0x00000001#32
      | .ctrl => BitVec.ofNat 32 ((match s.variant with | .czSaw => 0 | .czSawPulse => 1 | .moogInvSaw => 2) +
          4 * s.lfoEn.toNat + 8 * s.detuneEn.toNat)
      | .status => BitVec.ofNat 32 (s.badCmd.toNat + 2 * s.badAcc.toNat + 2 ^ 8 * s.outChannels.toNat +
          2 ^ 16 * s.activeGroups.toNat)
      | .channels => BitVec.ofNat 32 s.channels.toNat
      | .sampleInterval => s.sampleInterval
      | .freqKnob => s.freqKnob
      | .fineKnob => s.fineKnob
      | .shapeKnob => s.shapeKnob
      | .cmd => 0#32
      | .pitchCv i => s.pitchCv[i]
      | .shapeCv i => s.shapeCv[i]
      | .out i => s.lanes[i].outv
      | .phase i => s.lanes[i].phase
      | .shape i => s.lanes[i].shape
      | .freq i => s.lanes[i].freq
      | .reserved => 0#32) }

/-- Rule R71: a host address selects a word by bits [9:2] of its distance from BASE, and the bits above are not
decoded. -/
def Obligations.AddressSelectsTheWord : Prop :=
  (∀ b n : Nat, (wordIndex (offsetOfAddress b (b + n))).toNat = n / 4 % 256) ∧
  (∀ b a k : Nat, offsetOfAddress b (a + 1024 * k) = offsetOfAddress b a) ∧
  (∀ (b n : Nat) (s : State), ∃ t : State,
    step { s with queue := [.transaction (busRead b (b + n))] } = .next t ∧
      t.response = .readData (readWindow hw s (BitVec.ofNat 10 n)))

/-- Rule R72: the lane slots that exist. -/
def Obligations.LaneSlotsExistBelowMaxChannels : Prop :=
  (∀ (m : Nat) (i : Fin 16),
    regAt m (BitVec.ofNat 10 (0x040 + 4 * i)) = (if i.val < m then .pitchCv i else .reserved) ∧
    regAt m (BitVec.ofNat 10 (0x080 + 4 * i)) = (if i.val < m then .shapeCv i else .reserved) ∧
    regAt m (BitVec.ofNat 10 (0x0C0 + 4 * i)) = (if i.val < m then .out i else .reserved) ∧
    regAt m (BitVec.ofNat 10 (0x100 + 4 * i)) = (if i.val < m then .phase i else .reserved) ∧
    regAt m (BitVec.ofNat 10 (0x140 + 4 * i)) = (if i.val < m then .shape i else .reserved) ∧
    regAt m (BitVec.ofNat 10 (0x180 + 4 * i)) = (if i.val < m then .freq i else .reserved)) ∧
  hw.maxChannels = 16

/-- Rule R74: a full-width write of an RO register (words 0, 1, 2, 4 and 48..111) or a reserved offset (words
11..15 and 112..255) only sets BADACC; a read of a reserved offset returns 0; no read sets BADACC. -/
def Obligations.ReadOnlyAndReservedAccesses : Prop :=
  ∀ (off : BitVec 10) (be : BitVec 4) (data : Word) (s : State),
    let w := (wordIndex off).toNat
    ((w < 3 ∨ w = 4 ∨ (11 ≤ w ∧ w < 16) ∨ 48 ≤ w) →
      exec (.write off 15#4 data) s = .next { s with badAcc := true, response := .writeDone }) ∧
    (((11 ≤ w ∧ w < 16) ∨ 112 ≤ w) → exec (.read off be) s = .next { s with response := .readData 0#32 }) ∧
    (∃ t, exec (.read off be) s = .next t ∧ t.badAcc = s.badAcc)

/-- Rule R75: offset bits [1:0] are ignored: two transactions that differ only there have the same step. -/
def Obligations.LowOffsetBitsAreIgnored : Prop :=
  ∀ (s : State) (t t' : Transaction) (rest : List HostEvent),
    t.isWrite = t'.isWrite → t.be = t'.be → t.data = t'.data →
    t.offset.extractLsb' 2 8 = t'.offset.extractLsb' 2 8 →
    step { s with queue := .transaction t :: rest } = step { s with queue := .transaction t' :: rest }

/-- Rule R76: a write with a byte enable clear is ignored and sets BADACC, to CMD too; a read ignores the byte
enables. -/
def Obligations.PartialByteEnables : Prop :=
  ∀ (off : BitVec 10) (be : BitVec 4) (data : Word) (s : State),
    (be ≠ 15#4 → exec (.write off be data) s = .next { s with badAcc := true, response := .writeDone }) ∧
    exec (.read off be) s = exec (.read off 15#4) s

/-- A full-width write of CTRL stores its fields: VARIANT keeps its value for code 3 while the other fields change,
bits [31:4] are ignored, and a read returns the fields. -/
def Obligations.CtrlWriteStoresItsFields : Prop :=
  ∀ (off : BitVec 10) (data : Word) (s : State), wordIndex off = 3#8 →
    ∃ t : State, exec (.write off 15#4 data) s = .next t ∧
      t = { s with
        variant := (match data.toNat % 4 with
          | 0 => .czSaw | 1 => .czSawPulse | 2 => .moogInvSaw | _ => s.variant)
        lfoEn := data.getLsbD 2
        detuneEn := data.getLsbD 3
        response := .writeDone } ∧
      (data.toNat % 4 ≠ 3 → readWindow hw t off = BitVec.ofNat 32 (data.toNat % 16)) ∧
      (data.toNat % 4 = 3 →
        readWindow hw t off = BitVec.ofNat 32 (data.toNat % 16 - 3 + (readWindow hw s off).toNat % 4))

/-- Rule R55: CHANNELS stores the saturated count, reads it back, resets to 0, and 0 still runs one lane. -/
def Obligations.ChannelsWriteSaturates : Prop :=
  (∀ (off : BitVec 10) (data : Word) (s : State), wordIndex off = 5#8 →
    ∃ t : State, exec (.write off 15#4 data) s = .next t ∧
      t = { s with channels := BitVec.ofNat 5 (min data.toNat 16), response := .writeDone } ∧
      readWindow hw t off = BitVec.ofNat 32 (min data.toNat 16)) ∧
  State.reset.channels = 0#5 ∧
  (∀ s : State, s.channels = 0#5 → ∃ t : State, exec .step s = .next t ∧
    t.lanes[0].pos = s.lanes[0].pos + 1 ∧ ∀ i : Fin 16, i ≠ 0 → t.lanes[i] = s.lanes[i])

/-- Rules R57 and R59, and the clamp of FINE_KNOB: a knob stores its value clamped to its range, a value in the
range as it is, a NaN or −∞ as the low end and +∞ as the high end; it reads back, and resets to +0.0. -/
def Obligations.KnobWritesClamp : Prop :=
  (∀ (off : BitVec 10) (data : Word) (s : State), wordIndex off = 7#8 →
    exec (.write off 15#4 data) s =
      .next { s with freqKnob := fclamp data 0xC2580000#32 0x42580000#32, response := .writeDone }) ∧
  (∀ (off : BitVec 10) (data : Word) (s : State), wordIndex off = 8#8 →
    exec (.write off 15#4 data) s =
      .next { s with fineKnob := fclamp data 0xBF800000#32 0x3F800000#32, response := .writeDone }) ∧
  (∀ (off : BitVec 10) (data : Word) (s : State), wordIndex off = 9#8 →
    exec (.write off 15#4 data) s =
      .next { s with shapeKnob := fclamp data 0x00000000#32 0x41200000#32, response := .writeDone }) ∧
  (∀ s : State, readWindow hw s 0x01C#10 = s.freqKnob ∧ readWindow hw s 0x020#10 = s.fineKnob ∧
    readWindow hw s 0x024#10 = s.shapeKnob) ∧
  (∀ bounds ∈ [(0xC2580000#32, 0x42580000#32), (0xBF800000#32, 0x3F800000#32), (0x00000000#32, 0x41200000#32)],
    ∀ data : Word, InRange bounds.1 bounds.2 (fclamp data bounds.1 bounds.2) ∧
      (InRange bounds.1 bounds.2 data → fclamp data bounds.1 bounds.2 = data) ∧
      (isNaN data = true → fclamp data bounds.1 bounds.2 = bounds.1) ∧
      fclamp 0xFF800000#32 bounds.1 bounds.2 = bounds.1 ∧ fclamp 0x7F800000#32 bounds.1 bounds.2 = bounds.2) ∧
  fclamp 0x80000000#32 0x00000000#32 0x41200000#32 = 0x80000000#32 ∧
  State.reset.freqKnob = 0#32 ∧ State.reset.fineKnob = 0#32 ∧ State.reset.shapeKnob = 0#32

/-- Rule R61, and the same of SHAPE_CV and SAMPLE_INTERVAL: every pattern is stored as written and read back, no
other slot changes, and the reset values are +0.0. -/
def Obligations.InputWritesStoreEveryPattern : Prop :=
  (∀ (i : Fin 16) (off : BitVec 10) (data : Word) (s : State), wordIndex off = wordIndex (regOffset (.pitchCv i)) →
    ∃ t : State, exec (.write off 15#4 data) s = .next t ∧ readWindow hw t off = data ∧ t.pitchCv[i] = data ∧
      (∀ j : Fin 16, j ≠ i → t.pitchCv[j] = s.pitchCv[j]) ∧
      { t with pitchCv := s.pitchCv } = { s with response := .writeDone }) ∧
  (∀ (i : Fin 16) (off : BitVec 10) (data : Word) (s : State), wordIndex off = wordIndex (regOffset (.shapeCv i)) →
    ∃ t : State, exec (.write off 15#4 data) s = .next t ∧ readWindow hw t off = data ∧ t.shapeCv[i] = data ∧
      (∀ j : Fin 16, j ≠ i → t.shapeCv[j] = s.shapeCv[j]) ∧
      { t with shapeCv := s.shapeCv } = { s with response := .writeDone }) ∧
  (∀ (off : BitVec 10) (data : Word) (s : State), wordIndex off = 6#8 →
    ∃ t : State, exec (.write off 15#4 data) s = .next t ∧ readWindow hw t off = data ∧
      t = { s with sampleInterval := data, response := .writeDone }) ∧
  (∀ i : Fin 16, State.reset.pitchCv[i] = 0#32 ∧ State.reset.shapeCv[i] = 0#32) ∧ State.reset.sampleInterval = 0#32

/-- The frame of a full-width write of a register that stores it (words 3, 5..9 and 16..47): every byte of the
window outside that register reads as before, and the state the host cannot read is unchanged. -/
def Obligations.RegisterWriteFrame : Prop :=
  ∀ (off : BitVec 10) (data : Word) (s : State),
    let w := (wordIndex off).toNat
    (w = 3 ∨ (5 ≤ w ∧ w < 10) ∨ (16 ≤ w ∧ w < 48)) →
    ∃ t : State, exec (.write off 15#4 data) s = .next t ∧
      (∀ a : BitVec 10, wordIndex a ≠ wordIndex off → readWindowByte hw t a = readWindowByte hw s a) ∧
      t.lanes = s.lanes ∧ t.queue = s.queue ∧ t.freeCount = s.freeCount

/-- A write of any register but CMD is idempotent: the same write again changes nothing. -/
def Obligations.RegisterWritesAreIdempotent : Prop :=
  ∀ (off : BitVec 10) (be : BitVec 4) (data : Word) (s : State), wordIndex off ≠ cmdIndex →
    ∃ t : State, exec (.write off be data) s = .next t ∧ exec (.write off be data) t = .next t

/-- Rule R238: a full-width write to CMD of a defined word is that command; of any other word it only sets BADCMD,
which every command but CLEAR_STATUS and FULL_RESET keeps. -/
def Obligations.CmdWriteExecutesOrSetsBadCmd : Prop :=
  (∀ (off : BitVec 10) (data : Word) (s : State), wordIndex off = cmdIndex →
    (∀ c : Command, data = encodeCommand c → exec (.write off 15#4 data) s = exec (instrOfCommand c) s) ∧
    ((∀ c : Command, data ≠ encodeCommand c) →
      exec (.write off 15#4 data) s = .next { s with badCmd := true, response := .writeDone })) ∧
  (∀ (c : Command) (s : State), c ≠ .clearStatus → c ≠ .fullReset →
    ∃ t : State, exec (instrOfCommand c) s = .next t ∧ t.badCmd = s.badCmd) ∧
  (∀ c : Command, 0x01000001#32 ≠ encodeCommand c ∧ 0xFF000000#32 ≠ encodeCommand c)

/-! ### Commands and resets (spec/44_host_commands.md section 2, spec/70_reset_and_hazards.md) -/

/-- Rule R233: NOP changes nothing but what the bus reports, and 0x00000001 is not NOP. -/
def Obligations.NopChangesNothing : Prop :=
  (∀ s : State, exec .nop s = .next { s with response := .writeDone }) ∧ decodeCommand 0x00000001#32 = none

/-- Rule R237: CLEAR_STATUS clears the two sticky bits and nothing else. -/
def Obligations.ClearStatusClearsTheStickyBits : Prop :=
  ∀ s : State, ∃ t : State, exec .clearStatus s = .next t ∧
    t = { s with badCmd := false, badAcc := false, response := .writeDone } ∧
    readWindow hw t 0x010#10 = readWindow hw s 0x010#10 &&& 0xFFFFFFFC#32

/-- Rules R235 and R283: LANE_RESET resets every lane, active or not, and keeps every register. -/
def Obligations.LaneResetResetsTheLanesOnly : Prop :=
  ∀ s : State, ∃ t : State, exec .laneReset s = .next t ∧
    (∀ i : Fin 16, t.lanes[i].phase = 0#32 ∧ t.lanes[i].freq = 0#32 ∧ t.lanes[i].shape = 0x3C23D70B#32 ∧
      t.lanes[i].out = 0#32 ∧ t.lanes[i].outv = 0#32 ∧ (∀ k : Fin 32, t.lanes[i].dl[k] = 0#32) ∧
      t.lanes[i].pos = 0 ∧
      readWindow hw t (regOffset (.phase i)) = 0#32 ∧ readWindow hw t (regOffset (.shape i)) = 0x3C23D70B#32) ∧
    { t with lanes := s.lanes } = { s with response := .writeDone }

/-- Rules R236 and R282: FULL_RESET leaves the block as hardware reset does, and whatever the host does next has the
same results after either. (The queue is the host's, and `freeCount` and what the bus last reported are the model's
own fields: log entries 5 and 6.) -/
def Obligations.FullResetIsHardwareReset : Prop :=
  (∀ s : State, exec .fullReset s =
    .next { State.reset with queue := s.queue, freeCount := s.freeCount, response := .writeDone }) ∧
  (∀ (s : State) (x : Option Transaction) (rest : List HostEvent), s.queue = .hardReset x :: rest →
    step s = .next { State.reset with queue := rest, freeCount := s.freeCount, response := .none }) ∧
  (∀ (es : List HostEvent) (c n : Nat), ∃ a b : State,
    Host.Core.run core n ({ State.reset with queue := es, freeCount := c, response := .writeDone } : State) = .next a ∧
    Host.Core.run core n ({ State.reset with queue := es, freeCount := c, response := .none } : State) = .next b ∧
    SameButResponse a b)

/-- Rule R290: a hardware reset abandons whatever transaction is in progress, a STEP included: the block comes out
in the reset state whatever it was doing (the event and what it leaves queued: log entry 7). -/
def Obligations.HardwareResetAbandonsTheTransaction : Prop :=
  ∀ (s s' : State) (t t' : Option Transaction) (rest : List HostEvent), s.freeCount = s'.freeCount →
    ∃ u : State, step { s with queue := .hardReset t :: rest } = .next u ∧
      step { s' with queue := .hardReset t' :: rest } = .next u ∧
      u = { State.reset with queue := rest, freeCount := s.freeCount }

/-- Rule R68: the reset value of every piece of state, as the host reads the window and inside the lanes; after
LANE_RESET only the lanes take them. -/
def Obligations.ResetValues : Prop :=
  (∀ off : BitVec 10, readWindow hw State.reset off =
    (let w := (wordIndex off).toNat
     if w = 0 then 0x4D4F5343#32 else if w = 1 then 0x10100410#32 else if w = 2 then 0x00000001#32
     else if 80 ≤ w ∧ w < 96 then 0x3C23D70B#32 else 0#32)) ∧
  (∀ i : Fin 16, State.reset.lanes[i].out = 0#32 ∧ State.reset.lanes[i].pos = 0 ∧
    ∀ k : Fin 32, State.reset.lanes[i].dl[k] = 0#32) ∧
  (∀ s : State, ∃ t : State, exec .laneReset s = .next t ∧ t.lanes = State.reset.lanes ∧
    ∀ off : BitVec 10, (wordIndex off).toNat < 48 → readWindow hw t off = readWindow hw s off)

/-! ### STEP: dispatch (spec/43_control_mapper.md section 3) -/

/-- STEP completes from every state, in the order of rule R234's pseudocode, and writes nothing it does not name:
every active lane goes through MAP, ADVANCE, SHAPE, INSERT on a wrap, PROCESS and the output stage; the others and
every input register are unchanged. (`storedBits` gives the result itself, or a free encoding for a NaN: log
entry 6.) -/
def Obligations.StepRunsTheStagesOnEveryActiveLane : Prop :=
  ∀ s : State, ∃ t : State, exec .step s = .next t ∧
    { t with lanes := s.lanes, outChannels := s.outChannels, activeGroups := s.activeGroups,
             freeCount := s.freeCount } = { s with response := .writeDone } ∧
    ∀ i : Fin 16,
      (max 1 s.channels.toNat ≤ i.val → t.lanes[i] = s.lanes[i]) ∧
      (i.val < max 1 s.channels.toNat →
        let l := s.lanes[i]
        let freq := fmul 0x4382D014#32 (exp2 hw (pitchOctaves hw s i))
        let shape := fmul (fclamp (fadd s.shapeCv[i] s.shapeKnob) 0x3DCCCCCD#32 0x411E6666#32) 0x3DCCCCCD#32
        let inc := fclamp (fmul freq s.sampleInterval) 0x358637BD#32 0x3EB33333#32
        let a := advance l.phase inc
        let y := naiveSample hw s.variant a.phase shape
        let J : Word := match s.variant with | .czSaw => 0#32 | .czSawPulse => 0#32 | .moogInvSaw => 0x40000000#32
        let dl := if a.wrapped then insert hw s.freeCount i a.d J l.pos l.dl else l.dl
        let out := storedBits hw s.freeCount i 32 (fadd y dl[l.pos])
        let volts := fmul out 0x40A00000#32
        t.lanes[i].phase = a.phase ∧ t.lanes[i].freq = freq ∧ t.lanes[i].shape = shape ∧ t.lanes[i].out = out ∧
        t.lanes[i].outv = storedBits hw s.freeCount i 33
          (if s.lfoEn then fadd volts (fmul s.fineKnob 0x40A00000#32) else volts) ∧
        t.lanes[i].pos = l.pos + 1 ∧ t.lanes[i].dl[l.pos] = 0#32 ∧
        ∀ k : Fin 32, k ≠ l.pos → t.lanes[i].dl[k] = dl[k])

/-- Rules R208 and R210: STEP processes `max(1, CHANNELS)` lanes and reports that count and the number of groups of
four it fills; OUT[i] of a lane at or above the count still reads the lane's last voltage. -/
def Obligations.StepReportsTheDispatch : Prop :=
  ∀ s : State, ∃ t : State, exec .step s = .next t ∧
    t.outChannels.toNat = max 1 s.channels.toNat ∧
    4 * t.activeGroups.toNat < max 1 s.channels.toNat + 4 ∧
    max 1 s.channels.toNat ≤ 4 * t.activeGroups.toNat ∧
    (∀ i : Fin 16, i.val < max 1 s.channels.toNat → t.lanes[i].pos = s.lanes[i].pos + 1) ∧
    (∀ i : Fin 16, max 1 s.channels.toNat ≤ i.val →
      readWindow hw t (regOffset (.out i)) = readWindow hw s (regOffset (.out i))) ∧
    t.badCmd = s.badCmd ∧ t.badAcc = s.badAcc ∧
    (Sound hw s → 1 ≤ t.outChannels.toNat ∧ t.outChannels.toNat ≤ 16)

/-- No lane reads another's state or inputs: two blocks that agree on the shared registers and on lane `i` agree on
lane `i` after a STEP, whatever the other lanes hold (spec/10_state.md section 1). -/
def Obligations.LanesAreIndependent : Prop :=
  ∀ (s s' : State) (i : Fin 16),
    s.variant = s'.variant → s.lfoEn = s'.lfoEn → s.detuneEn = s'.detuneEn → s.channels = s'.channels →
    s.sampleInterval = s'.sampleInterval → s.freqKnob = s'.freqKnob → s.fineKnob = s'.fineKnob →
    s.shapeKnob = s'.shapeKnob → s.freeCount = s'.freeCount →
    s.pitchCv[i] = s'.pitchCv[i] → s.shapeCv[i] = s'.shapeCv[i] → s.lanes[i] = s'.lanes[i] →
    ∃ t t' : State, exec .step s = .next t ∧ exec .step s' = .next t' ∧ t.lanes[i] = t'.lanes[i]

/-- The batching width is not semantic: with detune off, a build with another GROUP_WIDTH has the same STEP but for
STATUS.ACTIVE_GROUPS (spec/00_scope.md section 3). -/
def Obligations.GroupWidthIsNotSemantic : Prop :=
  ∀ (p : Params) (g : Nat) (s : State), s.detuneEn = false →
    ∃ groups : BitVec 5, stepBlock { p with groupWidth := g } s = { stepBlock p s with activeGroups := groups }

/-! ### STEP: MAP (spec/43_control_mapper.md sections 1 and 2) -/

/-- In LFO mode the pitch is the knob's octaves less eight, FINE_KNOB has no part in the frequency, and outside it
the fine term is added; the detune offset is added only when enabled. -/
def Obligations.PitchOfTheModes : Prop :=
  ∀ (p : Params) (s : State) (i : Fin 16),
    let ko := fdiv s.freqKnob 0x41400000#32
    let fine := fmul (fmul s.fineKnob (fabs s.fineKnob)) 0x3E800000#32
    let p1 := if p.lfoSupported && s.lfoEn then fsub ko 0x41000000#32 else fadd ko fine
    let p2 := fadd p1 s.pitchCv[i]
    laneFreq p s i = fmul 0x4382D014#32
      (exp2 p (if s.detuneEn then fadd p2 (p.detune (i.val % p.groupWidth)) else p2)) ∧
    ((p.lfoSupported && s.lfoEn) = true → ∀ x : Word, laneFreq p { s with fineKnob := x } i = laneFreq p s i)

/-- The frequency MAP computes is +0.0, positive finite or +∞ for every input and either mode of EXP2, never NaN
and never negative (spec/43_control_mapper.md section 1). -/
def Obligations.FrequencyIsNeverNaNOrNegative : Prop :=
  ∀ (p : Params) (s : State) (i : Fin 16), FreqOk (laneFreq p s i)

/-- The corners of EXP2 in mode TAYLOR5: a NaN and −∞ give +0.0, +∞ gives +∞, every argument from 128 up gives +∞,
every argument from −150 down gives +0.0, and every argument above −150 gives a positive result. -/
def Obligations.TaylorExp2Corners : Prop :=
  ∀ (p : Params) (x : Word), p.exp2Mode = .taylor5 →
    (isNaN x = true → exp2 p x = 0#32) ∧
    (fle 0x43000000#32 x = true → exp2 p x = 0x7F800000#32) ∧
    (fle x 0xC3160000#32 = true → exp2 p x = 0#32) ∧
    (flt 0xC3160000#32 x = true → flt 0#32 (exp2 p x) = true)

/-- Rule R204: EXP2 in mode TAYLOR5, the hardware's mode, of a finite argument is the polynomial with the words T5 to
T0, by Horner's rule, at `fr = RN32(x - floor x)`, scaled by `2 ^ floor x`; a NaN and −∞ give +0.0 and +∞ gives +∞; `fr`
is in [0, 1], exact unless `x < 0`; `ldexp32` rounds the scaled value once; and the rule's examples. -/
def Obligations.TaylorExp2IsTheHornerPolynomial : Prop :=
  (∀ (p : Params) (x : Word), p.exp2Mode = .taylor5 →
    (isFinite x = true →
      let fr := fracPart x
      let p5 := 0x3AAEC3FF#32
      let p4 := fadd (fmul fr p5) 0x3C1D955B#32
      let p3 := fadd (fmul fr p4) 0x3D635847#32
      let p2 := fadd (fmul fr p3) 0x3E75FDF0#32
      let p1 := fadd (fmul fr p2) 0x3F317218#32
      let p0 := fadd (fmul fr p1) 0x3F800000#32
      exp2 p x = ldexp32 p0 ⌊value x⌋) ∧
    (isNaN x = true → exp2 p x = 0#32) ∧ exp2 p 0xFF800000#32 = 0#32 ∧ exp2 p 0x7F800000#32 = 0x7F800000#32 ∧
    (fle 0x43000000#32 x = true → exp2 p x = 0x7F800000#32) ∧
    exp2 p 0x42FE0000#32 = 0x7F000000#32 ∧ exp2 p 0xC3150000#32 = 0x00000001#32 ∧ exp2 p 0xC3160000#32 = 0#32 ∧
    exp2 p 0xB089705F#32 = 0x3F7FFA68#32 ∧ exp2 p 0x3F000000#32 = 0x3FB504DE#32 ∧
    exp2 p 0x3DAAAAAB#32 = 0x3F879C7D#32 ∧ exp2 p 0x40900000#32 = 0x41B504DE#32 ∧
    exp2 p 0xC0900000#32 = 0x3D3504DE#32) ∧
  (∀ x : Word, isFinite x = true →
    (value x - ⌊value x⌋ = 0 → fracPart x = 0#32) ∧
    (value x - ⌊value x⌋ ≠ 0 → IsRN32 ((value x - ⌊value x⌋ : ℚ) : ℝ) (fracPart x)) ∧
    InRange 0x00000000#32 0x3F800000#32 (fracPart x) ∧
    (0 ≤ value x → value (fracPart x) = value x - ⌊value x⌋)) ∧
  (∀ (w : Word) (n : ℤ), isFinite w = true → value w ≠ 0 → IsRN32 ((value w * 2 ^ n : ℚ) : ℝ) (ldexp32 w n))

/-- Rule R205: EXP2 in mode EXACT is `RN32(2^x)` for every finite argument, +0.0 for a NaN and −∞, +∞ for +∞; it is
monotone; CONFIG bit 1 reports the mode, and the hardware's default is TAYLOR5. -/
def Obligations.ExactExp2IsCorrectlyRounded : Prop :=
  (∀ (p : Params) (x : Word), p.exp2Mode = .exact →
    (isFinite x = true → signBit (exp2 p x) = false ∧ RoundsTo ((2 : ℝ) ^ ((value x : ℚ) : ℝ)) (magnitude (exp2 p x))) ∧
    (isNaN x = true → exp2 p x = 0#32) ∧
    exp2 p 0xFF800000#32 = 0#32 ∧ exp2 p 0x7F800000#32 = 0x7F800000#32 ∧
    ∀ y : Word, fle x y = true → fle (exp2 p x) (exp2 p y) = true) ∧
  (∀ (p : Params) (s : State), (readReg p s .config).getLsbD 1 = decide (p.exp2Mode = .exact)) ∧
  hw.exp2Mode = .taylor5

/-- Rule R207: the shape an active lane gets, its corners, its range and the rule's examples. -/
def Obligations.ShapeOfTheInputs : Prop :=
  (∀ (s : State) (i : Fin 16), i.val < activeCount s →
    ∃ t : State, exec .step s = .next t ∧
      t.lanes[i].shape =
        fmul (fclamp (fadd s.shapeCv[i] s.shapeKnob) 0x3DCCCCCD#32 0x411E6666#32) 0x3DCCCCCD#32) ∧
  (∀ raw : Word, ShapeOk (shapeOfRaw raw) ∧ (isNaN raw = true → shapeOfRaw raw = 0x3C23D70B#32)) ∧
  shapeOfRaw 0x7F800000#32 = 0x3F7D70A3#32 ∧ shapeOfRaw 0xFF800000#32 = 0x3C23D70B#32 ∧
  shapeOfRaw 0xC0A00000#32 = 0x3C23D70B#32 ∧ shapeOfRaw 0#32 = 0x3C23D70B#32 ∧
  shapeOfRaw 0x3DCCCCCD#32 = 0x3C23D70B#32 ∧ shapeOfRaw 0x3F000000#32 = 0x3D4CCCCD#32 ∧
  shapeOfRaw 0x3F800000#32 = 0x3DCCCCCD#32 ∧ shapeOfRaw 0x40A00000#32 = 0x3F000000#32 ∧
  shapeOfRaw 0x40E00000#32 = 0x3F333333#32 ∧ shapeOfRaw 0x411E6666#32 = 0x3F7D70A3#32 ∧
  shapeOfRaw 0x41200000#32 = 0x3F7D70A3#32 ∧ shapeOfRaw 0x41A00000#32 = 0x3F7D70A3#32

/-- The shape depends on the STEP's inputs and not on the shape before: a second STEP with the same inputs leaves
SHAPE[i] as it is. Composing the map with itself is another thing: its one fixed point in the shape range is the
lower bound (the spec's "never s" leaves that point out: log entry 13). -/
def Obligations.RepeatedStepKeepsTheShape : Prop :=
  (∀ (s : State) (i : Fin 16), i.val < activeCount s →
    ∃ t u : State, exec .step s = .next t ∧ exec .step t = .next u ∧
      readWindow hw u (regOffset (.shape i)) = readWindow hw t (regOffset (.shape i)) ∧
      readWindow hw t (regOffset (.shape i)) = shapeOfRaw (fadd s.shapeCv[i] s.shapeKnob)) ∧
  (∀ x : Word, ShapeOk x → (shapeOfRaw x = x ↔ x = 0x3C23D70B#32))

/-! ### STEP: ADVANCE (spec/40_phase_accumulator.md) -/

/-- The increment is always within the clamp's bounds: a NaN or a product at or below INC_MIN gives INC_MIN, one
above INC_MAX gives INC_MAX, any other is kept. -/
def Obligations.IncrementIsClamped : Prop :=
  ∀ freq dt : Word,
    (0x358637BD ≤ (increment freq dt).toNat ∧ (increment freq dt).toNat ≤ 0x3EB33333) ∧
    (isNaN (fmul freq dt) = true ∨ fle (fmul freq dt) 0x358637BD#32 = true → increment freq dt = 0x358637BD#32) ∧
    (flt 0x3EB33333#32 (fmul freq dt) = true → increment freq dt = 0x3EB33333#32) ∧
    (InRange 0x358637BD#32 0x3EB33333#32 (fmul freq dt) → increment freq dt = fmul freq dt)

/-- Rule R132: the phase stays in [0, 1), never −0.0 and never NaN, after every ADVANCE and after every step of the
machine. -/
def Obligations.PhaseStaysBelowOne : Prop :=
  (∀ phase freq dt : Word, PhaseOk phase → PhaseOk (advance phase (increment freq dt)).phase) ∧
  (∀ s t : State, (∀ i : Fin 16, PhaseOk s.lanes[i].phase) → step s = .next t →
    ∀ i : Fin 16, PhaseOk t.lanes[i].phase)

/-- Rule R135: the increment is at least INC_MIN, which is larger than half an ulp of every phase, so it is never
absorbed: every active lane's phase changes in every STEP. -/
def Obligations.EveryActivePhaseChanges : Prop :=
  (∀ phase freq dt : Word, PhaseOk phase →
    0 < value 0x358637BD#32 ∧ value 0x358637BD#32 ≤ value (increment freq dt) ∧
    (2 : ℚ) ^ ulpExponent phase / 2 < value 0x358637BD#32 ∧ fadd phase (increment freq dt) ≠ phase) ∧
  (∀ (s : State) (i : Fin 16), PhaseOk s.lanes[i].phase → i.val < activeCount s →
    ∃ t : State, exec .step s = .next t ∧ t.lanes[i].phase ≠ s.lanes[i].phase)

/-- Rule R133: at a wrap the floor is 1.0, subtracting it is exact, the new phase is at most the increment and the
offset at most 1.0, so subtracting the floor and subtracting 1.0 are the same. A wrap is a rounded sum of at least 1.0;
below it the new phase is the sum and there is no wrap. -/
def Obligations.WrapSubtractsOneExactly : Prop :=
  ∀ phase inc : Word, PhaseOk phase → 0x358637BD ≤ inc.toNat → inc.toNat ≤ 0x3EB33333 →
    (wrapFlag (fadd phase inc) = true ↔ 1 ≤ value (fadd phase inc)) ∧
    (1 ≤ value (fadd phase inc) →
      ffloor (fadd phase inc) = 0x3F800000#32 ∧
      value (fsub (fadd phase inc) 0x3F800000#32) = value (fadd phase inc) - 1 ∧
      (advance phase inc).wrapped = true ∧
      (advance phase inc).phase = fsub (fadd phase inc) 0x3F800000#32 ∧
      (advance phase inc).phase.toNat ≤ inc.toNat ∧
      (advance phase inc).d = fdiv (advance phase inc).phase inc ∧
      (advance phase inc).d.toNat ≤ 0x3F800000) ∧
    (value (fadd phase inc) < 1 →
      (advance phase inc).phase = fadd phase inc ∧ (advance phase inc).wrapped = false)

/-! ### STEP: SHAPE (spec/41_waveform_shaper.md) -/

/-- Rule R156: for every phase in [0, 1) and every shape in its range, each variant's naive sample is finite and
within [−1.0, 1.0], and MOOG_INVSAW's is at least 0xBF7FFFFF. -/
def Obligations.NaiveSampleIsBounded : Prop :=
  ∀ (p : Params) (v : Variant) (φ s : Word), p.Legal → PhaseOk φ → ShapeOk s →
    isFinite (naiveSample p v φ s) = true ∧ InRange minusOne one (naiveSample p v φ s) ∧
    InRange 0xBF7FFFFF#32 one (naiveSample p .moogInvSaw φ s)

/-- The three formulas at every phase and shape, operation by operation in the order the spec writes them; the two
cosine positions are in [0, 1] and [0, 0.5]; and the formulas' example points (spec/41_waveform_shaper.md). -/
def Obligations.NaiveSampleFollowsTheFormulas : Prop :=
  (∀ (p : Params) (φ s : Word),
    naiveSample p .czSaw φ s =
      (let l := fsub 0x3F000000#32 (fmul s 0x3F000000#32)
       let n := fsub 0x3F000000#32 l
       let a := fmul φ (fdiv n l)
       let b := fmul (fsub 0x3F800000#32 φ) (fdiv n (fsub 0x3F800000#32 l))
       p.cos32 (fmul 0x40C90FDB#32 (fadd φ (if fle a b = true then a else b)))) ∧
    naiveSample p .czSawPulse φ s =
      (let a := fmul 0x40000000#32 (fsub 0x3F800000#32 φ)
       let b := fmul (fsub 0x3F800000#32 a) (fdiv s (fsub 0x3F800000#32 s))
       let c := fmul 0x3F000000#32 (fsub a (if fle a b = true then a else b))
       p.cos32 (fmul 0x40C90FDB#32 (if fle c φ = true then c else φ))) ∧
    naiveSample p .moogInvSaw φ s =
      (let a := fsub (fmul 0x40000000#32 (fsub 0x3F800000#32 φ)) 0x3F800000#32
       fadd a (fdiv (fsub (fmul a a) 0x3F800000#32) 0x40800000#32))) ∧
  (∀ φ s : Word, PhaseOk φ → ShapeOk s →
    InRange 0x00000000#32 0x3F800000#32 (czSawPosition φ s) ∧
    InRange 0x00000000#32 0x3F000000#32 (czSawPulsePosition φ s)) ∧
  (∀ p : Params,
    naiveSample p .czSaw 0x3E800000#32 0x3F000000#32 = p.cos32 0x40490FDB#32 ∧
    naiveSample p .czSawPulse 0x3F19999A#32 0x3F000000#32 = p.cos32 (fmul 0x40C90FDB#32 0x3E999998#32) ∧
    ∀ s : Word, naiveSample p .moogInvSaw 0x3E800000#32 s = 0x3EA00000#32 ∧
      naiveSample p .moogInvSaw 0x3F000000#32 s = 0xBE800000#32 ∧
      naiveSample p .moogInvSaw 0x3F7FFFFF#32 s = 0xBF7FFFFF#32)

/-- Every variant is at its peak 1.0 at phase +0.0, for every shape in its range and every admissible cosine. -/
def Obligations.NaiveSampleAtPhaseZero : Prop :=
  ∀ (p : Params) (v : Variant) (s : Word), p.Legal → ShapeOk s → naiveSample p v 0#32 s = 0x3F800000#32

/-! ### STEP: LOOKUP, INSERT, PROCESS (spec/42_minblep.md) -/

/-- LOOKUP at a table point answers that entry, and at or past the end of the span the last one. -/
def Obligations.LookupAtTablePoints : Prop :=
  ∀ p : Params, p.Legal →
    (∀ k : Nat, k < 512 → isFinite (fsub (p.rom (k + 1)) (p.rom k)) = true → p.rom k ≠ 0x80000000#32 →
      lookup p (fmul (f32Nat k) 0x3D800000#32) = p.rom k) ∧
    (∀ t : Word, fle 0x42000000#32 t = true → lookup p t = 0x3F800000#32)

/-- LOOKUP inside the span: with `k` the floor of `16 t`, below 512, and `λ` the exact rest, it answers
`S[k] + (S[k+1] - S[k]) * λ`, each operation rounded (spec/42_minblep.md section 1). -/
def Obligations.LookupInterpolatesBetweenTablePoints : Prop :=
  ∀ (p : Params) (t : Word), fle 0#32 t = true → flt t 0x42000000#32 = true →
    ∃ (k : Nat) (lam : Word), k < 512 ∧ (k : ℤ) = ⌊value t * 16⌋ ∧ isFinite lam = true ∧
      value lam = value t * 16 - k ∧
      lam = fsub (fmul t 0x41800000#32) (f32Nat k) ∧
      lookup p t = fadd (p.rom k) (fmul (fsub (p.rom (k + 1)) (p.rom k)) lam)

/-- INSERT adds to the entry due `j` samples from now the correction `J * (S(j + d) - 1)`, for every `j` below 32,
and so to every entry once. What is stored is the sum itself, and for a NaN a NaN of free encoding (log entry 6). -/
def Obligations.InsertAddsEveryCorrection : Prop :=
  (∀ (p : Params) (count lane site : Nat) (x : Word),
    (isNaN x = false → storedBits p count lane site x = x) ∧
    (p.Legal → isNaN x = true → isNaN (storedBits p count lane site x) = true)) ∧
  ∀ (p : Params) (count lane : Nat) (d J : Word) (pos : Fin 32) (dl : Vector Word 32) (j : Nat), j < 32 →
    (insert p count lane d J pos dl)[pos + Fin.ofNat 32 j] =
      storedBits p count lane j (fadd dl[pos + Fin.ofNat 32 j]
        (fmul J (fsub (lookup p (fadd (f32Nat j) d)) 0x3F800000#32)))

/-- With the jump 0.0 of the CZ variants INSERT changes nothing, for every table below `2 ^ 100` (a legal table with
larger entries can overflow in LOOKUP, where the rule's remark does not hold: log entry 12). -/
def Obligations.InsertWithoutJumpChangesNothing : Prop :=
  ∀ (p : Params) (count lane : Nat) (d : Word) (pos : Fin 32) (dl : Vector Word 32), p.Legal → TableBounded p →
    d.toNat ≤ 0x3F800000 → (∀ k : Fin 32, dl[k] ≠ 0x80000000#32 ∧ isNaN dl[k] = false) →
    insert p count lane d 0#32 pos dl = dl

/-- Rule R176: PROCESS answers the entry due now, clears it, advances the index modulo 32 and changes nothing else;
it runs once in every STEP of an active lane. -/
def Obligations.ProcessTakesAndClearsTheDueEntry : Prop :=
  (∀ l : Lane, (process l).1 = l.dl[l.pos] ∧ (process l).2.dl[l.pos] = 0#32 ∧
    (∀ k : Fin 32, k ≠ l.pos → (process l).2.dl[k] = l.dl[k]) ∧
    (process l).2.pos.val = (l.pos.val + 1) % 32 ∧
    { (process l).2 with dl := l.dl, pos := l.pos } = l) ∧
  (∀ (s : State) (i : Fin 16), i.val < activeCount s →
    ∃ t : State, exec .step s = .next t ∧ t.lanes[i].pos.val = (s.lanes[i].pos.val + 1) % 32 ∧
      t.lanes[i].dl[s.lanes[i].pos] = 0#32)

/-- Rule R179: over every step of the machine no delay-line entry becomes −0.0, and with every table entry below
`2 ^ 100` none becomes NaN or infinite: `2 ^ 127` bounds them all, and the phases stay in range with them. Whether the
hardware's OPEN table meets the bound is a premise; the same is said of every legal build whose table does. -/
def Obligations.DelayLineStaysClean : Prop :=
  (∀ s t : State, (∀ (i : Fin 16) (k : Fin 32), s.lanes[i].dl[k] ≠ 0x80000000#32) → step s = .next t →
    ∀ (i : Fin 16) (k : Fin 32), t.lanes[i].dl[k] ≠ 0x80000000#32) ∧
  (∀ s t : State, TableBounded hw →
    (∀ i : Fin 16, PhaseOk s.lanes[i].phase ∧ CorrectionsBounded s.lanes[i]) → step s = .next t →
    ∀ i : Fin 16, PhaseOk t.lanes[i].phase ∧ CorrectionsBounded t.lanes[i] ∧
      ∀ k : Fin 32, isFinite t.lanes[i].dl[k] = true) ∧
  (∀ (p : Params) (s : State), p.Legal →
    ((∀ (i : Fin 16) (k : Fin 32), s.lanes[i].dl[k] ≠ 0x80000000#32) →
      ∀ (i : Fin 16) (k : Fin 32), (buildStep p s).lanes[i].dl[k] ≠ 0x80000000#32) ∧
    (TableBounded p → (∀ i : Fin 16, PhaseOk s.lanes[i].phase ∧ CorrectionsBounded s.lanes[i]) →
      ∀ i : Fin 16, PhaseOk (buildStep p s).lanes[i].phase ∧ CorrectionsBounded (buildStep p s).lanes[i] ∧
        ∀ k : Fin 32, isFinite (buildStep p s).lanes[i].dl[k] = true)) ∧
  (∀ (i : Fin 16) (k : Fin 32), State.reset.lanes[i].dl[k] = 0#32)

/-- The delay line drains one entry a STEP: if the `j` entries behind the index are +0.0 and the lane does not wrap,
the `j + 1` entries behind it are +0.0 after; from `j = 32` on that is the whole line
(spec/42_minblep.md section 3). -/
def Obligations.DelayLineDrainsOneEntryAStep : Prop :=
  (∀ (s : State) (i : Fin 16) (j : Nat), i.val < activeCount s → j < 32 →
    (advance s.lanes[i].phase (increment (laneFreq hw s i) s.sampleInterval)).wrapped = false →
    (∀ k : Nat, k < j → s.lanes[i].dl[s.lanes[i].pos - Fin.ofNat 32 (k + 1)] = 0#32) →
    ∃ t : State, exec .step s = .next t ∧
      ∀ k : Nat, k < j + 1 → t.lanes[i].dl[t.lanes[i].pos - Fin.ofNat 32 (k + 1)] = 0#32) ∧
  (∀ l : Lane, (∀ k : Nat, k < 32 → l.dl[l.pos - Fin.ofNat 32 (k + 1)] = 0#32) → ∀ k : Fin 32, l.dl[k] = 0#32)

/-- At an exact wrap (the new phase is +0.0) of MOOG_INVSAW with no other correction due, the corrected sample is
−1.0, the value before the wrap, for every legal table (spec/42_minblep.md section 3). -/
def Obligations.ExactWrapOutputsThePreWrapValue : Prop :=
  ∀ (p : Params) (s : State) (i : Fin 16) (l : Lane), p.Legal → s.variant = .moogInvSaw →
    (advance l.phase (increment (laneFreq p s i) s.sampleInterval)).wrapped = true →
    (advance l.phase (increment (laneFreq p s i) s.sampleInterval)).phase = 0#32 →
    l.dl[l.pos] = 0#32 →
    (stepLane p s i l).out = 0xBF800000#32

/-! ### The whole machine -/

/-- Rule R261: only a full-width CMD write of a reserved word sets BADCMD; only a write of an RO or reserved word or
with a byte enable clear sets BADACC; only CLEAR_STATUS, FULL_RESET and hardware reset clear them. -/
def Obligations.ErrorBitsAreSticky : Prop :=
  ∀ s t : State, step s = .next t →
    let cleared := (∃ x rest, s.queue = .hardReset x :: rest) ∨
      (∃ tr rest, s.queue = .transaction tr :: rest ∧
        (decodeTransaction tr = .clearStatus ∨ decodeTransaction tr = .fullReset))
    (∀ (tr : Transaction) (rest : List HostEvent), s.queue = .transaction tr :: rest → tr.isWrite = true →
      (tr.be = 15#4 → wordIndex tr.offset = cmdIndex → (∀ c : Command, tr.data ≠ encodeCommand c) →
        t.badCmd = true) ∧
      (tr.be ≠ 15#4 ∨
        (let w := (wordIndex tr.offset).toNat; w < 3 ∨ w = 4 ∨ (11 ≤ w ∧ w < 16) ∨ 48 ≤ w) → t.badAcc = true)) ∧
    (cleared → t.badCmd = false ∧ t.badAcc = false) ∧
    (s.badCmd = true → t.badCmd = false → cleared) ∧
    (s.badAcc = true → t.badAcc = false → cleared) ∧
    (s.badCmd = false → t.badCmd = true → ∃ tr rest, s.queue = .transaction tr :: rest ∧ tr.isWrite = true ∧
      tr.be = 15#4 ∧ wordIndex tr.offset = cmdIndex ∧ (∀ c : Command, tr.data ≠ encodeCommand c) ∧
      t = { s with badCmd := true, queue := rest, response := .writeDone }) ∧
    (s.badAcc = false → t.badAcc = true → ∃ tr rest, s.queue = .transaction tr :: rest ∧ tr.isWrite = true ∧
      (tr.be ≠ 15#4 ∨
        (let w := (wordIndex tr.offset).toNat; w < 3 ∨ w = 4 ∨ (11 ≤ w ∧ w < 16) ∨ 48 ≤ w)) ∧
      t = { s with badAcc := true, queue := rest, response := .writeDone })

/-- No register write reaches a lane: only STEP, LANE_RESET, FULL_RESET and hardware reset change lane state, and
only STEP and the full resets change the dispatch report (spec/60_exceptions.md section 4). -/
def Obligations.OnlyCommandsChangeLaneState : Prop :=
  ∀ s t : State, step s = .next t →
    (t.lanes ≠ s.lanes → (∃ x rest, s.queue = .hardReset x :: rest) ∨
      (∃ tr rest, s.queue = .transaction tr :: rest ∧
        (decodeTransaction tr = .step ∨ decodeTransaction tr = .laneReset ∨ decodeTransaction tr = .fullReset))) ∧
    ((t.outChannels ≠ s.outChannels ∨ t.activeGroups ≠ s.activeGroups) →
      (∃ x rest, s.queue = .hardReset x :: rest) ∨
      (∃ tr rest, s.queue = .transaction tr :: rest ∧
        (decodeTransaction tr = .step ∨ decodeTransaction tr = .fullReset)))

/-- Every step keeps the block's invariants: the lanes' (phase in [0, 1), shape in its range, frequency not NaN and
not negative, no −0.0 in a delay line), the counts' and the knobs'. -/
def Obligations.StepKeepsTheInvariants : Prop :=
  ∀ s t : State, Sound hw s → step s = .next t → Sound hw t

/-- The reset state has the block's invariants. -/
def Obligations.ResetHasTheInvariants : Prop := Sound hw State.reset

/-- The first STEP from reset: lane 0 advances by INC_MIN with the frequency and shape of zero inputs, STATUS
reports one channel in one group, and lane 1 is untouched, whatever the OPEN parameters are. -/
def Obligations.FirstStepFromReset : Prop :=
  ∃ t : State, exec .step State.reset = .next t ∧
    readWindow hw t 0x100#10 = 0x358637BD#32 ∧ readWindow hw t 0x180#10 = 0x4382D014#32 ∧
    readWindow hw t 0x140#10 = 0x3C23D70B#32 ∧ readWindow hw t 0x010#10 = 0x00010100#32 ∧
    readWindow hw t 0x104#10 = 0#32 ∧ t.lanes[0].pos = 1
end

