-- ==== Sys2Proof/Laws/Rounding.lean ====
section
/-! SUPPORT. Laws/Rounding.lean: what `roundMagnitude` does, said once over the rationals: it depends on the value
alone, it is monotone, and it leaves every binary32 magnitude where it is. -/

namespace Sys2Proof.Laws

open Sys2Proof.Machine Sys2Proof.Safety

/-- The natural number nearest a nonnegative rational, ties to even. -/
def nearestEven (y : ℚ) : ℕ :=
  if 1 / 2 < y - ⌊y⌋₊ ∨ (y - ⌊y⌋₊ = 1 / 2 ∧ ⌊y⌋₊ % 2 = 1) then ⌊y⌋₊ + 1 else ⌊y⌋₊

theorem roundDiv_eq_nearestEven (n d : ℕ) (hd : 0 < d) : roundDiv n d = nearestEven ((n : ℚ) / d) := by
  have hd' : (0 : ℚ) < d := by exact_mod_cast hd
  have hf : ⌊(n : ℚ) / d⌋₊ = n / d := Nat.floor_div_eq_div n d
  have hr : (n : ℚ) / d - (n / d : ℕ) = ((n % d : ℕ) : ℚ) / d := by
    rw [eq_div_iff hd'.ne', sub_mul, div_mul_cancel₀ _ hd'.ne']
    have h : d * (n / d) + n % d = n := Nat.div_add_mod n d
    have : (d : ℚ) * ((n / d : ℕ) : ℚ) + ((n % d : ℕ) : ℚ) = n := by exact_mod_cast h
    linarith
  have h1 : (1 / 2 : ℚ) < (n : ℚ) / d - (n / d : ℕ) ↔ d < 2 * (n % d) := by
    rw [hr, lt_div_iff₀ hd']
    constructor
    · intro h; have : (d : ℚ) < 2 * ((n % d : ℕ) : ℚ) := by linarith
      exact_mod_cast this
    · intro h; have : (d : ℚ) < 2 * ((n % d : ℕ) : ℚ) := by exact_mod_cast h
      linarith
  have h2 : (n : ℚ) / d - (n / d : ℕ) = 1 / 2 ↔ 2 * (n % d) = d := by
    rw [hr, div_eq_iff hd'.ne']
    constructor
    · intro h; have : 2 * ((n % d : ℕ) : ℚ) = d := by linarith
      exact_mod_cast this
    · intro h; have : 2 * ((n % d : ℕ) : ℚ) = d := by exact_mod_cast h
      linarith
  simp only [roundDiv, nearestEven, hf, h1, h2]

theorem nearestEven_mono {x y : ℚ} (h : x ≤ y) : nearestEven x ≤ nearestEven y := by
  have hf : ⌊x⌋₊ ≤ ⌊y⌋₊ := Nat.floor_le_floor h
  unfold nearestEven
  rcases hf.lt_or_eq with hlt | heq
  · split_ifs <;> omega
  · rw [heq]
    split_ifs with h1 h2 <;> try omega
    exfalso; apply h2
    rcases h1 with h1 | ⟨h1, h3⟩
    · left; linarith
    · rcases lt_or_eq_of_le h with h4 | h4
      · left; linarith
      · right; exact ⟨by linarith, h3⟩

theorem nearestEven_natCast (n : ℕ) : nearestEven (n : ℚ) = n := by simp [nearestEven]

/-- `RN32` of a nonnegative rational, as bits [30:0]. -/
noncomputable def roundRat (x : ℚ) : ℕ :=
  if x = 0 then 0
  else if 127 < Int.log 2 x then infMagnitude
  else if Int.log 2 x < -150 then 0
  else (max (Int.log 2 x - 23) (-149) + 149).toNat * 2 ^ 23 + nearestEven (x / 2 ^ max (Int.log 2 x - 23) (-149))

theorem ratioLog2_eq_log (n d : ℕ) (hn : 0 < n) (hd : 0 < d) : ratioLog2 n d = Int.log 2 ((n : ℚ) / d) := by
  have hn' : (0 : ℚ) < n := by exact_mod_cast hn
  have hd' : (0 : ℚ) < d := by exact_mod_cast hd
  have hx : (0:ℚ) < (n:ℚ)/d := by positivity
  have key : ∀ k : ℤ, (2:ℚ)^k ≤ (n:ℚ)/d → (n:ℚ)/d < (2:ℚ)^(k+1) → k = Int.log 2 ((n:ℚ)/d) := by
    intro k h1 h2
    have h3 : k ≤ Int.log 2 ((n:ℚ)/d) := (Int.zpow_le_iff_le_log (b := 2) (by norm_num) hx).1 (by exact_mod_cast h1)
    have h4 : Int.log 2 ((n:ℚ)/d) < k + 1 := (Int.lt_zpow_iff_log_lt (b := 2) (by norm_num) hx).1 (by exact_mod_cast h2)
    omega
  have hnl : (2:ℚ)^(n.log2 : ℤ) ≤ n := by rw [zpow_natCast]; exact_mod_cast Nat.log2_self_le hn.ne'
  have hnu : (n:ℚ) < 2^((n.log2 : ℤ)+1) := by
    have : n < 2^(n.log2+1) := Nat.lt_log2_self
    rw [show ((n.log2 : ℤ)+1) = ((n.log2+1 : ℕ):ℤ) by push_cast; rfl, zpow_natCast]; exact_mod_cast this
  have hdl : (2:ℚ)^(d.log2 : ℤ) ≤ d := by rw [zpow_natCast]; exact_mod_cast Nat.log2_self_le hd.ne'
  have hdu : (d:ℚ) < 2^((d.log2 : ℤ)+1) := by
    have : d < 2^(d.log2+1) := Nat.lt_log2_self
    rw [show ((d.log2 : ℤ)+1) = ((d.log2+1 : ℕ):ℤ) by push_cast; rfl, zpow_natCast]; exact_mod_cast this
  set k : ℤ := (n.log2 : ℤ) - d.log2 with hk
  have hlow : (2:ℚ)^(k-1) < (n:ℚ)/d := by
    rw [lt_div_iff₀ hd']
    calc (2:ℚ)^(k-1) * d < 2^(k-1) * 2^((d.log2:ℤ)+1) := by apply mul_lt_mul_of_pos_left hdu; positivity
      _ = 2^(n.log2:ℤ) := by rw [← zpow_add₀ (by norm_num)]; congr 1; omega
      _ ≤ n := hnl
  have hhigh : (n:ℚ)/d < (2:ℚ)^(k+1) := by
    rw [div_lt_iff₀ hd']
    calc (n:ℚ) < 2^((n.log2:ℤ)+1) := hnu
      _ = 2^(k+1) * 2^(d.log2:ℤ) := by rw [← zpow_add₀ (by norm_num)]; congr 1; omega
      _ ≤ 2^(k+1) * d := by apply mul_le_mul_of_nonneg_left hdl; positivity
  have hcond : (if 0 ≤ k then (decide (d * 2 ^ k.toNat ≤ n)) else decide (d ≤ n * 2 ^ (-k).toNat)) = decide ((2:ℚ)^k ≤ (n:ℚ)/d) := by
    split_ifs with h0
    · congr 1
      obtain ⟨m, hm⟩ := Int.eq_ofNat_of_zero_le h0
      rw [hm, le_div_iff₀ hd', Int.toNat_natCast, zpow_natCast, mul_comm]
      norm_cast
    · congr 1
      obtain ⟨m, hm⟩ := Int.eq_ofNat_of_zero_le (show 0 ≤ -k by omega)
      have : k = -(m:ℤ) := by omega
      rw [this, neg_neg, Int.toNat_natCast, zpow_neg, zpow_natCast, inv_le_comm₀ (by positivity) hx, inv_div, div_le_iff₀ hn', mul_comm]
      norm_cast
  have hres : ratioLog2 n d = if (2:ℚ)^k ≤ (n:ℚ)/d then k else k-1 := by
    simp only [ratioLog2, ← hk]
    by_cases h0 : 0 ≤ k
    · simp only [h0, if_true] at hcond ⊢
      have := decide_eq_decide.1 hcond
      simp only [this]
    · simp only [h0, if_false] at hcond ⊢
      have := decide_eq_decide.1 hcond
      simp only [this]
  rw [hres]
  split_ifs with h
  · exact key k h hhigh
  · exact key (k-1) hlow.le (by rw [sub_add_cancel]; exact not_le.1 h)

theorem log_mul_zpow {x : ℚ} (hx : 0 < x) (e : ℤ) : Int.log 2 (x * 2 ^ e) = Int.log 2 x + e := by
  have hx2 : 0 < x * 2^e := by positivity
  have h1 : Int.log 2 x + e ≤ Int.log 2 (x * 2^e) := by
    rw [← Int.zpow_le_iff_le_log (b := 2) (by norm_num) hx2, Nat.cast_ofNat, zpow_add₀ (by norm_num)]
    exact mul_le_mul_of_nonneg_right (by exact_mod_cast Int.zpow_log_le_self (b := 2) (by norm_num) hx) (by positivity)
  have h2 : Int.log 2 (x * 2^e) < Int.log 2 x + e + 1 := by
    rw [← Int.lt_zpow_iff_log_lt (b := 2) (by norm_num) hx2, Nat.cast_ofNat,
      show Int.log 2 x + e + 1 = (Int.log 2 x + 1) + e by ring, zpow_add₀ (by norm_num)]
    exact mul_lt_mul_of_pos_right (by exact_mod_cast Int.lt_zpow_succ_log_self (b := 2) (by norm_num) x) (by positivity)
  omega

theorem roundMagnitude_eq_roundRat (n d : ℕ) (e : ℤ) (hd : 0 < d) :
    roundMagnitude n d e = roundRat ((n : ℚ) / d * 2 ^ e) := by
  have hd' : (0 : ℚ) < d := by exact_mod_cast hd
  by_cases hn : n = 0
  · simp [roundMagnitude, roundRat, hn]
  have hn0 : 0 < n := Nat.pos_of_ne_zero hn
  have hn' : (0 : ℚ) < n := by exact_mod_cast hn0
  have hx : (n : ℚ) / d * 2 ^ e ≠ 0 := by positivity
  have hl : Int.log 2 ((n : ℚ) / d * 2 ^ e) = ratioLog2 n d + e := by
    rw [log_mul_zpow (by positivity), ratioLog2_eq_log n d hn0 hd]
  simp only [roundMagnitude, roundRat, hn, hx, if_false, hl]
  split_ifs with h1 h2 h3 <;> try rfl
  · rw [roundDiv_eq_nearestEven _ _ hd]
    congr 2
    generalize max (ratioLog2 n d + e - 23) (-149) = q at h3 ⊢
    obtain ⟨m, hm⟩ := Int.eq_ofNat_of_zero_le h3
    rw [hm, Int.toNat_natCast, show e = q + m by omega, zpow_add₀ (by norm_num), zpow_natCast]
    push_cast; field_simp
  · have h3' : 0 ≤ -(e - max (ratioLog2 n d + e - 23) (-149)) := by omega
    generalize max (ratioLog2 n d + e - 23) (-149) = q at h3' ⊢
    obtain ⟨m, hm⟩ := Int.eq_ofNat_of_zero_le h3'
    rw [roundDiv_eq_nearestEven _ _ (by positivity)]
    congr 2
    rw [hm, Int.toNat_natCast, show q = e + m by omega, zpow_add₀ (by norm_num), zpow_natCast]
    push_cast; field_simp

theorem log_zpow_le {x : ℚ} (hx : 0 < x) : (2 : ℚ) ^ Int.log 2 x ≤ x := by
  exact_mod_cast Int.zpow_log_le_self (b := 2) (by norm_num) hx

theorem lt_log_zpow (x : ℚ) : x < (2 : ℚ) ^ (Int.log 2 x + 1) := by
  exact_mod_cast Int.lt_zpow_succ_log_self (b := 2) (by norm_num) x

/-- The spacing exponent of a positive rational's binary32 neighbourhood. -/
noncomputable def spacing (x : ℚ) : ℤ := max (Int.log 2 x - 23) (-149)

theorem nearestEven_le_two_pow (x : ℚ) : nearestEven (x / 2 ^ spacing x) ≤ 2 ^ 24 := by
  have h : x / 2 ^ spacing x ≤ ((2 ^ 24 : ℕ) : ℚ) := by
    rw [div_le_iff₀ (by positivity)]
    calc x ≤ (2 : ℚ) ^ (Int.log 2 x + 1) := (lt_log_zpow x).le
      _ ≤ 2 ^ (24 + spacing x) := by
        apply zpow_le_zpow_right₀ (by norm_num); unfold spacing; omega
      _ = ((2 ^ 24 : ℕ) : ℚ) * 2 ^ spacing x := by rw [zpow_add₀ (by norm_num)]; norm_num
  calc nearestEven (x / 2 ^ spacing x) ≤ nearestEven ((2 ^ 24 : ℕ) : ℚ) := nearestEven_mono h
    _ = 2 ^ 24 := nearestEven_natCast _

theorem le_nearestEven_of_normal {x : ℚ} (hx : 0 < x) (h : -126 ≤ Int.log 2 x) :
    2 ^ 23 ≤ nearestEven (x / 2 ^ spacing x) := by
  have h : ((2 ^ 23 : ℕ) : ℚ) ≤ x / 2 ^ spacing x := by
    rw [le_div_iff₀ (by positivity)]
    calc ((2 ^ 23 : ℕ) : ℚ) * 2 ^ spacing x = 2 ^ (23 + spacing x) := by rw [zpow_add₀ (by norm_num)]; norm_num
      _ ≤ 2 ^ Int.log 2 x := by apply zpow_le_zpow_right₀ (by norm_num); unfold spacing; omega
      _ ≤ x := log_zpow_le hx
  calc 2 ^ 23 = nearestEven ((2 ^ 23 : ℕ) : ℚ) := (nearestEven_natCast _).symm
    _ ≤ _ := nearestEven_mono h

theorem roundRat_mid {x : ℚ} (hx : 0 < x) (h1 : Int.log 2 x ≤ 127) (h2 : -150 ≤ Int.log 2 x) :
    roundRat x = (spacing x + 149).toNat * 2 ^ 23 + nearestEven (x / 2 ^ spacing x) := by
  simp only [roundRat, hx.ne', if_false, not_lt.2 h1, not_lt.2 h2, spacing]

theorem roundRat_le_inf {x : ℚ} (hx : 0 ≤ x) : roundRat x ≤ infMagnitude := by
  rcases hx.eq_or_lt with rfl | hx
  · simp [roundRat]
  by_cases h1 : 127 < Int.log 2 x
  · simp [roundRat, h1, hx.ne']
  by_cases h2 : Int.log 2 x < -150
  · simp [roundRat, h1, h2]
  rw [roundRat_mid hx (by omega) (by omega)]
  have h3 := nearestEven_le_two_pow x
  have h4 : spacing x ≤ 104 := by unfold spacing; omega
  have h5 : -149 ≤ spacing x := by unfold spacing; omega
  unfold infMagnitude
  omega

/-- Rounding is monotone. -/
theorem roundRat_mono {x y : ℚ} (hx : 0 ≤ x) (h : x ≤ y) : roundRat x ≤ roundRat y := by
  rcases hx.eq_or_lt with rfl | hx
  · simp [roundRat]
  have hy : 0 < y := hx.trans_le h
  have hl : Int.log 2 x ≤ Int.log 2 y := Int.log_mono_right hx h
  by_cases h1 : 127 < Int.log 2 y
  · rw [show roundRat y = infMagnitude by simp [roundRat, h1, hy.ne']]; exact roundRat_le_inf hx.le
  by_cases h2 : Int.log 2 x < -150
  · simp [roundRat, h2, show ¬ 127 < Int.log 2 x by omega]
  rw [roundRat_mid hx (by omega) (by omega), roundRat_mid hy (by omega) (by omega)]
  have hs : spacing x ≤ spacing y := by unfold spacing; omega
  have h5 : -149 ≤ spacing x := by unfold spacing; omega
  rcases hs.eq_or_lt with heq | hlt
  · rw [heq]
    have := nearestEven_mono (x := x / 2 ^ spacing y) (y := y / 2 ^ spacing y) (by gcongr)
    omega
  · have h3 := nearestEven_le_two_pow x
    have h4 := le_nearestEven_of_normal hy (by unfold spacing at hlt; omega)
    omega

theorem log_natCast_mul_zpow {n k : ℕ} (e : ℤ) (h1 : 2 ^ k ≤ n) (h2 : n < 2 ^ (k + 1)) :
    Int.log 2 ((n : ℚ) * 2 ^ e) = k + e := by
  have hn : (0 : ℚ) < n := by exact_mod_cast (Nat.two_pow_pos k).trans_le h1
  rw [log_mul_zpow hn]
  have hnat : Nat.log 2 n = k := (Nat.log_eq_iff (Or.inr ⟨by norm_num, by have := Nat.two_pow_pos k; omega⟩)).2 ⟨h1, h2⟩
  rw [Int.log_natCast, hnat]

theorem roundRat_magValue {m : ℕ} (hm : m < infMagnitude) : roundRat (magValue m) = m := by
  unfold infMagnitude at hm
  rcases Nat.eq_zero_or_pos m with rfl | hpos
  · simp [roundRat, magValue]
  by_cases h : m / 2 ^ 23 = 0
  · have hv : magValue m = (m : ℚ) * 2 ^ (-149 : ℤ) := by unfold magValue; rw [if_pos h]
    have hmq : (0 : ℚ) < m := by exact_mod_cast hpos
    have hlt : m < 2 ^ 23 := by omega
    have hk : Nat.log 2 m < 23 := Nat.log_lt_of_lt_pow hpos.ne' hlt
    have hlog : Int.log 2 (magValue m) = Nat.log 2 m + (-149) := by
      rw [hv]; exact log_natCast_mul_zpow _ (Nat.pow_log_le_self 2 hpos.ne') (Nat.lt_pow_succ_log_self (by norm_num) m)
    have hs : spacing (magValue m) = -149 := by unfold spacing; omega
    rw [roundRat_mid (by rw [hv]; positivity) (by omega) (by omega), hs, hv, mul_div_cancel_right₀ _ (by positivity),
      nearestEven_natCast]
    norm_num
  · have hv : magValue m = ((2 ^ 23 + m % 2 ^ 23 : ℕ) : ℚ) * 2 ^ ((m / 2 ^ 23 : ℕ) - 150 : ℤ) := by
      simp only [magValue, h, if_false]
    have hlog : Int.log 2 (magValue m) = 23 + ((m / 2 ^ 23 : ℕ) - 150 : ℤ) := by
      rw [hv]; exact_mod_cast log_natCast_mul_zpow (k := 23) _ (by omega) (by omega)
    have hs : spacing (magValue m) = (m / 2 ^ 23 : ℕ) - 150 := by unfold spacing; omega
    have hp : 0 < magValue m := by rw [hv]; positivity
    rw [roundRat_mid hp (by omega) (by omega), hs, hv, mul_div_cancel_right₀ _ (by positivity),
      nearestEven_natCast]
    omega

theorem magValue_nonneg (m : ℕ) : 0 ≤ magValue m := by unfold magValue; split_ifs <;> positivity

theorem magValue_strictMono {a b : ℕ} (h : a < b) (hb : b < infMagnitude) : magValue a < magValue b := by
  by_contra hc
  have := roundRat_mono (magValue_nonneg b) (not_lt.1 hc)
  rw [roundRat_magValue hb, roundRat_magValue (h.trans hb)] at this
  omega

theorem magValue_mono {a b : ℕ} (h : a ≤ b) (hb : b < infMagnitude) : magValue a ≤ magValue b := by
  rcases h.eq_or_lt with rfl | h
  · exact le_rfl
  · exact (magValue_strictMono h hb).le

end Sys2Proof.Laws
end

