-- ==== Sys2Proof/Laws/Arith.lean ====
section
/-! SUPPORT. Laws/Arith.lean: the fields of an encoding in terms of its magnitude, and each binary32 operation on
finite operands as its exact rational result, rounded once. -/

namespace Sys2Proof.Laws

open Sys2Proof.Machine Sys2Proof.Safety

theorem magnitude_lt (w : Word) : magnitude w < 2 ^ 31 := (w.extractLsb' 0 31).isLt

theorem expField_eq (w : Word) : expField w = magnitude w / 2 ^ 23 := by
  simp only [expField, magnitude, BitVec.extractLsb'_toNat, Nat.shiftRight_eq_div_pow]
  omega

theorem fracField_eq (w : Word) : fracField w = magnitude w % 2 ^ 23 := by
  simp only [fracField, magnitude, BitVec.extractLsb'_toNat, Nat.shiftRight_eq_div_pow]
  omega

theorem toNat_eq (w : Word) : w.toNat = (if signBit w then 2 ^ 31 else 0) + magnitude w := by
  simp only [magnitude, signBit, BitVec.extractLsb'_toNat, Nat.shiftRight_eq_div_pow, BitVec.getLsbD, Nat.testBit_eq_decide_div_mod_eq]
  have := w.isLt
  split <;> simp_all <;> omega

theorem isFinite_iff (w : Word) : isFinite w = true ↔ magnitude w < infMagnitude := by
  have := magnitude_lt w
  simp only [isFinite, expField_eq, infMagnitude, bne_iff_ne, ne_eq]
  omega

theorem isNaN_iff (w : Word) : isNaN w = true ↔ infMagnitude < magnitude w := by
  have := magnitude_lt w
  simp only [isNaN, expField_eq, fracField_eq, infMagnitude, Bool.and_eq_true, beq_iff_eq, bne_iff_ne, ne_eq]
  omega

theorem isInf_iff (w : Word) : isInf w = true ↔ magnitude w = infMagnitude := by
  have := magnitude_lt w
  simp only [isInf, expField_eq, fracField_eq, infMagnitude, Bool.and_eq_true, beq_iff_eq]
  omega

theorem isZero_iff (w : Word) : isZero w = true ↔ magnitude w = 0 := by simp [isZero]

theorem significand_mul_eq_magValue (w : Word) : (significand w : ℚ) * 2 ^ ulpExponent w = magValue (magnitude w) := by
  unfold significand ulpExponent magValue
  rw [expField_eq, fracField_eq]
  split_ifs with h
  · have : magnitude w % 2 ^ 23 = magnitude w := Nat.mod_eq_of_lt (by omega)
    rw [this, h]; norm_num
  · rw [max_eq_left (by omega)]

theorem value_eq (w : Word) : value w = if signBit w then -magValue (magnitude w) else magValue (magnitude w) := by
  rw [← significand_mul_eq_magValue, value, signedSignificand]
  split_ifs <;> push_cast <;> ring

/-- `RN32` of a rational; an exact zero takes the sign `zneg`. -/
noncomputable def roundQ (zneg : Bool) (x : ℚ) : Word :=
  withSign (if x = 0 then zneg else decide (x < 0)) (roundRat |x|)

theorem toNat_withSign (neg : Bool) {m : ℕ} (h : m < 2 ^ 31) :
    (withSign neg m).toNat = (if neg then 2 ^ 31 else 0) + m := by
  unfold withSign; cases neg <;> simp <;> omega

theorem rn32_eq (neg : Bool) (n d : ℕ) (e : ℤ) (hd : 0 < d) :
    rn32 neg n d e = withSign neg (roundRat ((n : ℚ) / d * 2 ^ e)) := by
  rw [rn32, roundMagnitude_eq_roundRat _ _ _ hd]

theorem rn32Int_eq (z e : ℤ) : rn32Int z e = roundQ false (z * 2 ^ e) := by
  rw [rn32Int, rn32_eq _ _ _ _ one_pos, roundQ, abs_mul, abs_of_pos (show (0 : ℚ) < 2 ^ e by positivity)]
  have hp : (0 : ℚ) < 2 ^ e := by positivity
  congr 1
  · rcases lt_trichotomy z 0 with h | h | h
    · have hz : (z : ℚ) < 0 := by exact_mod_cast h
      have h2 : (z : ℚ) * 2 ^ e < 0 := mul_neg_of_neg_of_pos hz hp
      simp [h, h2, h2.ne]
    · simp [h]
    · have hz : (0 : ℚ) < z := by exact_mod_cast h
      have h2 : 0 < (z : ℚ) * 2 ^ e := by positivity
      simp [h2.not_gt, h2.ne', not_lt.2 h.le]
  · rw [Nat.cast_natAbs]; simp

theorem addFinite_eq (a b : Word) : addFinite a b = roundQ (signBit a && signBit b) (value a + value b) := by
  unfold addFinite value
  dsimp only
  set e := min (ulpExponent a) (ulpExponent b) with he
  have hz : ∀ (s u : ℤ), e ≤ u → (s : ℚ) * 2 ^ u = ((s * 2 ^ (u - e).toNat : ℤ) : ℚ) * 2 ^ e := by
    intro s u hu
    obtain ⟨m, hm⟩ := Int.eq_ofNat_of_zero_le (show 0 ≤ u - e by omega)
    rw [hm, Int.toNat_natCast, show u = e + m by omega, zpow_add₀ (by norm_num), zpow_natCast]
    push_cast; ring
  rw [hz _ _ (min_le_left _ _), hz _ _ (min_le_right _ _), ← add_mul, ← Int.cast_add]
  generalize signedSignificand a * 2 ^ (ulpExponent a - e).toNat + signedSignificand b * 2 ^ (ulpExponent b - e).toNat = z
  have hp : (0 : ℚ) < 2 ^ e := by positivity
  split_ifs with h
  · simp [h, roundQ, roundRat]
  · rw [rn32Int_eq, roundQ, roundQ]
    have : (z : ℚ) * 2 ^ e ≠ 0 := mul_ne_zero (by exact_mod_cast h) hp.ne'
    simp [this]

theorem not_isNaN_of_isFinite {w : Word} (h : isFinite w = true) : isNaN w = false := by
  rw [isFinite_iff] at h; rw [Bool.eq_false_iff, ne_eq, isNaN_iff]; omega

theorem not_isInf_of_isFinite {w : Word} (h : isFinite w = true) : isInf w = false := by
  rw [isFinite_iff] at h; rw [Bool.eq_false_iff, ne_eq, isInf_iff]; omega

/-- Addition of finite values is the exact sum, rounded once (rule R11). -/
theorem fadd_finite {a b : Word} (ha : isFinite a = true) (hb : isFinite b = true) :
    fadd a b = roundQ (signBit a && signBit b) (value a + value b) := by
  simp [fadd, not_isNaN_of_isFinite ha, not_isNaN_of_isFinite hb, not_isInf_of_isFinite ha,
    not_isInf_of_isFinite hb, addFinite_eq]

theorem magnitude_fneg (w : Word) : magnitude (fneg w) = magnitude w := by
  unfold magnitude fneg; congr 1; ext i hi; simp [BitVec.getElem_extractLsb', BitVec.getLsbD_xor]; interval_cases i <;> simp

theorem signBit_fneg (w : Word) : signBit (fneg w) = !signBit w := by
  simp [signBit, fneg]

theorem isFinite_fneg (w : Word) : isFinite (fneg w) = isFinite w := by
  rw [Bool.eq_iff_iff, isFinite_iff, isFinite_iff, magnitude_fneg]

theorem value_fneg (w : Word) : value (fneg w) = -value w := by
  rw [value_eq, value_eq, magnitude_fneg, signBit_fneg]; cases signBit w <;> simp

theorem fsub_finite {a b : Word} (ha : isFinite a = true) (hb : isFinite b = true) :
    fsub a b = roundQ (signBit a && !signBit b) (value a - value b) := by
  rw [fsub, fadd_finite ha (by rw [isFinite_fneg]; exact hb), value_fneg, signBit_fneg, sub_eq_add_neg]

theorem abs_value (w : Word) : |value w| = magValue (magnitude w) := by
  rw [value_eq]; split_ifs <;> simp [abs_of_nonneg (magValue_nonneg _)]

theorem value_neg_iff (w : Word) (h : value w ≠ 0) : decide (value w < 0) = signBit w := by
  have h0 := magValue_nonneg (magnitude w)
  have hv : magValue (magnitude w) ≠ 0 := by rw [← abs_value]; exact abs_ne_zero.2 h
  have hpos : 0 < magValue (magnitude w) := lt_of_le_of_ne h0 hv.symm
  rw [value_eq]
  by_cases hs : signBit w = true
  · rw [if_pos hs, hs]; simp [hpos]
  · rw [if_neg hs, Bool.eq_false_iff.2 hs]; simp [h0]

theorem decide_mul_neg {x y : ℚ} (hx : x ≠ 0) (hy : y ≠ 0) :
    decide (x * y < 0) = (decide (x < 0) != decide (y < 0)) := by
  rcases hx.lt_or_gt with h1 | h1 <;> rcases hy.lt_or_gt with h2 | h2
  · have := mul_pos_of_neg_of_neg h1 h2; simp [h1, h2, not_lt.2 this.le]
  · have := mul_neg_of_neg_of_pos h1 h2; simp [h1, not_lt.2 h2.le, this]
  · have := mul_neg_of_pos_of_neg h1 h2; simp [not_lt.2 h1.le, h2, this]
  · have := mul_pos h1 h2; simp [not_lt.2 h1.le, not_lt.2 h2.le, not_lt.2 this.le]

theorem fmul_finite {a b : Word} (ha : isFinite a = true) (hb : isFinite b = true) :
    fmul a b = roundQ (signBit a != signBit b) (value a * value b) := by
  simp only [fmul, not_isNaN_of_isFinite ha, not_isNaN_of_isFinite hb, not_isInf_of_isFinite ha,
    not_isInf_of_isFinite hb, Bool.or_self, Bool.false_eq_true, if_false]
  rw [rn32_eq _ _ _ _ one_pos, roundQ, abs_mul, abs_value, abs_value]
  congr 1
  · split_ifs with h
    · rfl
    · have h1 := left_ne_zero_of_mul h
      have h2 := right_ne_zero_of_mul h
      rw [decide_mul_neg h1 h2, value_neg_iff a h1, value_neg_iff b h2]
  · rw [← significand_mul_eq_magValue, ← significand_mul_eq_magValue, zpow_add₀ (by norm_num)]
    push_cast; congr 1; ring

theorem fdiv_finite {a b : Word} (ha : isFinite a = true) (hb : isFinite b = true) (h0 : value b ≠ 0) :
    fdiv a b = roundQ (signBit a != signBit b) (value a / value b) := by
  have hz : isZero b = false := by
    rw [Bool.eq_false_iff, ne_eq, isZero_iff]; intro h
    apply h0; rw [value_eq, h]; simp [magValue]
  simp only [fdiv, not_isNaN_of_isFinite ha, not_isNaN_of_isFinite hb, not_isInf_of_isFinite ha,
    not_isInf_of_isFinite hb, hz, Bool.or_self, Bool.false_eq_true, if_false]
  have hm := significand_mul_eq_magValue b
  have hv : magValue (magnitude b) ≠ 0 := by rw [← abs_value]; exact abs_ne_zero.2 h0
  have hs : 0 < significand b := by
    rcases Nat.eq_zero_or_pos (significand b) with h | h
    · rw [h] at hm; simp at hm; exact absurd hm.symm hv
    · exact h
  rw [rn32_eq _ _ _ _ hs, roundQ, abs_div, abs_value, abs_value]
  congr 1
  · split_ifs with h
    · rfl
    · have h1 : value a ≠ 0 := by intro h2; exact h (by simp [h2])
      rw [div_eq_mul_inv, decide_mul_neg h1 (inv_ne_zero h0), value_neg_iff a h1, ← value_neg_iff b h0]
      simp
  · rw [← significand_mul_eq_magValue, ← significand_mul_eq_magValue, zpow_sub₀ (by norm_num)]
    have : (significand b : ℚ) ≠ 0 := by exact_mod_cast hs.ne'
    field_simp

theorem toNat_roundQ {x : ℚ} (hx : 0 ≤ x) : (roundQ false x).toNat = roundRat x := by
  have h := roundRat_le_inf hx
  unfold infMagnitude at h
  rw [roundQ, toNat_withSign _ (by rw [abs_of_nonneg hx]; omega), abs_of_nonneg hx]
  simp [not_lt.2 hx]

theorem magnitude_of_lt {w : Word} (h : w.toNat < 2 ^ 31) : magnitude w = w.toNat := by
  have := toNat_eq w
  split_ifs at this <;> omega

theorem signBit_of_lt {w : Word} (h : w.toNat < 2 ^ 31) : signBit w = false := by
  have := toNat_eq w
  split_ifs at this with hs
  · omega
  · simpa using hs

theorem isFinite_of_lt {w : Word} (h : w.toNat < infMagnitude) : isFinite w = true := by
  have h2 : w.toNat < 2 ^ 31 := h.trans (by decide)
  rw [isFinite_iff, magnitude_of_lt h2]; exact h

/-- A finite encoding without sign is worth its magnitude's value. -/
theorem value_of_lt {w : Word} (h : w.toNat < infMagnitude) : value w = magValue w.toNat := by
  have h2 : w.toNat < 2 ^ 31 := h.trans (by decide)
  rw [value_eq, signBit_of_lt h2, magnitude_of_lt h2]; simp

theorem orderKey_of_lt {w : Word} (h : w.toNat < 2 ^ 31) : orderKey w = w.toNat := by
  rw [orderKey, signBit_of_lt h, magnitude_of_lt h]; simp

/-- On encodings without sign that are no NaN, the order of the values is the order of the words. -/
theorem fle_iff_of_le {a b : Word} (ha : a.toNat ≤ infMagnitude) (hb : b.toNat ≤ infMagnitude) :
    fle a b = true ↔ a.toNat ≤ b.toNat := by
  have ha2 : a.toNat < 2 ^ 31 := ha.trans_lt (by decide)
  have hb2 : b.toNat < 2 ^ 31 := hb.trans_lt (by decide)
  have hna : isNaN a = false := by
    rw [Bool.eq_false_iff, ne_eq, isNaN_iff, magnitude_of_lt ha2]; omega
  have hnb : isNaN b = false := by
    rw [Bool.eq_false_iff, ne_eq, isNaN_iff, magnitude_of_lt hb2]; omega
  simp [fle, hna, hnb, orderKey_of_lt ha2, orderKey_of_lt hb2]

/-- What `fclamp` can answer: one of its bounds, or an operand that lies between them. -/
theorem fclamp_cases (x lo hi : Word) :
    fclamp x lo hi = lo ∨ fclamp x lo hi = hi ∨
      (fclamp x lo hi = x ∧ isNaN x = false ∧ flt x lo = false ∧ flt hi x = false) := by
  unfold fclamp
  by_cases h1 : isNaN x || flt x lo
  · rw [if_pos h1]; exact .inl rfl
  · rw [if_neg h1]
    by_cases h2 : flt hi x
    · rw [if_pos h2]; exact .inr (.inl rfl)
    · rw [if_neg h2]
      simp only [Bool.or_eq_true, not_or, Bool.not_eq_true] at h1 h2
      exact .inr (.inr ⟨rfl, h1.1, h1.2, h2⟩)

theorem fclamp_of_isNaN {x : Word} (lo hi : Word) (h : isNaN x = true) : fclamp x lo hi = lo := by simp [fclamp, h]

end Sys2Proof.Laws
end

