-- ==== Sys2Proof/Laws/Config.lean ====
section
/-! SUPPORT. Laws/Config.lean: the hardware's parameters are legal whatever its OPEN constants are, and every
admissible choice of them is kept as it is. -/

namespace Sys2Proof.Laws

open Sys2Proof.Machine Sys2Proof.Config Sys2Proof.Safety

theorem toFinite_of_isFinite {w : Word} (h : isFinite w = true) : toFinite w = w := by simp [toFinite, h]

theorem toNaN_of_isNaN {w : Word} (h : isNaN w = true) : toNaN w = w := by simp [toNaN, h]

theorem isFinite_toFinite (w : Word) : isFinite (toFinite w) = true := by
  unfold toFinite
  split_ifs with h
  · exact h
  · rw [isFinite, bne_iff_ne]
    intro hc
    have h1 : (w &&& 0xBFFFFFFF#32).extractLsb' 23 8 = 255#8 := BitVec.eq_of_toNat_eq hc
    have h2 := congrArg (fun v => v.getLsbD 7) h1
    simp at h2

theorem isNaN_toNaN (w : Word) : isNaN (toNaN w) = true := by
  unfold toNaN
  split_ifs with h
  · exact h
  · decide

/-- A clamp to [-1.0, 1.0] lands in it. -/
theorem fclamp_unit (x : Word) : fle minusOne (fclamp x minusOne one) = true ∧ fle (fclamp x minusOne one) one = true := by
  rcases fclamp_cases x minusOne one with h | h | ⟨h, hn, h1, h2⟩
  · rw [h]; decide
  · rw [h]; decide
  · rw [h]
    have e1 : isNaN minusOne = false := by decide
    have e2 : isNaN one = false := by decide
    simp only [flt, fle, hn, e1, e2, Bool.not_false, Bool.true_and, decide_eq_false_iff_not, not_lt,
      decide_eq_true_eq] at h1 h2 ⊢
    exact ⟨h1, h2⟩

/-- A choice of table entries that rule R171 admits is the table. -/
theorem legalRom_eq {f : Nat → Word} (h0 : f 0 = 0#32) (h1 : f 512 = one) {k : Nat} (h : isFinite (f k) = true) :
    legalRom f k = f k := by
  unfold legalRom
  split_ifs with hk hk'
  · rw [hk, h0]
  · rw [hk', h1]
  · exact toFinite_of_isFinite h

/-- The hardware's configuration is one a model must accept. -/
theorem hw_legal : hw.Legal where
  channels_pos := by decide
  channels_le := by decide
  width_pos := by decide
  width_le := by decide
  detune_finite _ _ := isFinite_toFinite _
  rom_finite k _ := by
    change isFinite (legalRom freeRom k) = true
    unfold legalRom
    split_ifs
    · decide
    · decide
    · exact isFinite_toFinite _
  rom_first := rfl
  rom_last := rfl
  cos_zero := rfl
  cos_range x h0 h1 := by
    change fle minusOne (if x = 0#32 then one else if fle 0#32 x && fle x twoPi then
      fclamp (freeCos x) minusOne one else freeCos x) = true ∧ _
    show _ ∧ fle (if x = 0#32 then one else if fle 0#32 x && fle x twoPi then
      fclamp (freeCos x) minusOne one else freeCos x) one = true
    split_ifs with h2 h3
    · decide
    · exact fclamp_unit _
    · simp [h0, h1] at h3
  nan_isNaN _ _ _ := isNaN_toNaN _

end Sys2Proof.Laws
end

