-- ==== Sys2Proof/Laws/DelayLine.lean ====
section
/-! SUPPORT. Laws/DelayLine.lean: what one turn of INSERT's loop does to a delay line. -/

namespace Sys2Proof.Laws

open Sys2Proof.Machine Sys2Proof.Config

/-- One turn of INSERT's loop writes the entry it names (rule R174). -/
theorem insertAt_self (p : Params) (c i : Nat) (d J : Word) (pos : Fin 32) (dl : Vector Word 32) (j : Nat) :
    (insertAt p c i d J pos dl j)[pos + Fin.ofNat 32 j] =
      storedBits p c i j (fadd dl[pos + Fin.ofNat 32 j] (correction p d J j)) := by
  simp [insertAt]

/-- One turn of INSERT's loop leaves every other entry alone (rule R174). -/
theorem insertAt_other (p : Params) (c i : Nat) (d J : Word) (pos : Fin 32) (dl : Vector Word 32) (j : Nat)
    (k : Fin 32) (h : k ≠ pos + Fin.ofNat 32 j) : (insertAt p c i d J pos dl j)[k] = dl[k] := by
  have h2 : ((pos + Fin.ofNat 32 j : Fin 32) : Nat) ≠ k := fun hc => h (Fin.ext hc.symm)
  exact Vector.getElem_set_ne (pos + Fin.ofNat 32 j : Fin 32).isLt k.isLt h2

/-- A stored result that is no NaN is stored as it is. -/
theorem storedBits_of_not_isNaN (p : Params) (c i site : Nat) {x : Word} (h : isNaN x = false) :
    storedBits p c i site x = x := by simp [storedBits, h]

/-- Whatever is stored is the result or, for a NaN, a NaN. -/
theorem storedBits_cases {p : Params} (hp : p.Legal) (c i site : Nat) (x : Word) :
    storedBits p c i site x = x ∨ (isNaN x = true ∧ isNaN (storedBits p c i site x) = true) := by
  unfold storedBits
  split_ifs with h
  · exact .inr ⟨h, hp.nan_isNaN c i site⟩
  · exact .inl rfl

end Sys2Proof.Laws
end

