-- ==== Sys2Proof/Laws/PerInstr.lean ====
section
/-! SUPPORT. Laws/PerInstr.lean: statements made instruction by instruction. -/

namespace Sys2Proof.Laws.FrameShape

open Sys2Proof Sys2Proof.Machine

/-- The frame of an instruction is one transaction: eight bytes (rule R109), whose bit 0 is the kind bit W, 0 for
READ and 1 for every other row (rules R104, R111). -/
def Statement (i : Instr) : Prop :=
  (encode i).length = 8 ∧
    ((encode i).headD 0#8).getLsbD 0 = (match i with | .read _ _ => false | _ => true)

theorem read (offset : BitVec 10) (be : BitVec 4) : Statement (.read offset be) := by
  refine ⟨rfl, ?_⟩
  simp [encode, encodeTransaction, frameWord0, wordBytes, fieldAt]

theorem write (offset : BitVec 10) (be : BitVec 4) (data : Word) : Statement (.write offset be data) := by
  refine ⟨rfl, ?_⟩
  simp [encode, encodeTransaction, frameWord0, wordBytes, fieldAt]

theorem nop : Statement .nop := ⟨rfl, rfl⟩

theorem step : Statement .step := ⟨rfl, rfl⟩

theorem laneReset : Statement .laneReset := ⟨rfl, rfl⟩

theorem fullReset : Statement .fullReset := ⟨rfl, rfl⟩

theorem clearStatus : Statement .clearStatus := ⟨rfl, rfl⟩

end Sys2Proof.Laws.FrameShape
end

