-- ==== Sys2Proof/Laws/State.lean ====
section
/-! SUPPORT. Laws/State.lean: every field of the state after every named update, by computation, so that no proof
unfolds a record update. -/

namespace Sys2Proof.Laws

open Sys2Proof.Machine Sys2Proof.Config

@[simp] theorem setBadCmd_variant (s : State) : (setBadCmd s).variant = s.variant := rfl
@[simp] theorem setBadCmd_lfoEn (s : State) : (setBadCmd s).lfoEn = s.lfoEn := rfl
@[simp] theorem setBadCmd_detuneEn (s : State) : (setBadCmd s).detuneEn = s.detuneEn := rfl
@[simp] theorem setBadCmd_badCmd (s : State) : (setBadCmd s).badCmd = true := rfl
@[simp] theorem setBadCmd_badAcc (s : State) : (setBadCmd s).badAcc = s.badAcc := rfl
@[simp] theorem setBadCmd_outChannels (s : State) : (setBadCmd s).outChannels = s.outChannels := rfl
@[simp] theorem setBadCmd_activeGroups (s : State) : (setBadCmd s).activeGroups = s.activeGroups := rfl
@[simp] theorem setBadCmd_channels (s : State) : (setBadCmd s).channels = s.channels := rfl
@[simp] theorem setBadCmd_sampleInterval (s : State) : (setBadCmd s).sampleInterval = s.sampleInterval := rfl
@[simp] theorem setBadCmd_freqKnob (s : State) : (setBadCmd s).freqKnob = s.freqKnob := rfl
@[simp] theorem setBadCmd_fineKnob (s : State) : (setBadCmd s).fineKnob = s.fineKnob := rfl
@[simp] theorem setBadCmd_shapeKnob (s : State) : (setBadCmd s).shapeKnob = s.shapeKnob := rfl
@[simp] theorem setBadCmd_pitchCv (s : State) : (setBadCmd s).pitchCv = s.pitchCv := rfl
@[simp] theorem setBadCmd_shapeCv (s : State) : (setBadCmd s).shapeCv = s.shapeCv := rfl
@[simp] theorem setBadCmd_lanes (s : State) : (setBadCmd s).lanes = s.lanes := rfl
@[simp] theorem setBadCmd_queue (s : State) : (setBadCmd s).queue = s.queue := rfl
@[simp] theorem setBadCmd_response (s : State) : (setBadCmd s).response = s.response := rfl
@[simp] theorem setBadCmd_freeCount (s : State) : (setBadCmd s).freeCount = s.freeCount := rfl

@[simp] theorem setBadAcc_variant (s : State) : (setBadAcc s).variant = s.variant := rfl
@[simp] theorem setBadAcc_lfoEn (s : State) : (setBadAcc s).lfoEn = s.lfoEn := rfl
@[simp] theorem setBadAcc_detuneEn (s : State) : (setBadAcc s).detuneEn = s.detuneEn := rfl
@[simp] theorem setBadAcc_badCmd (s : State) : (setBadAcc s).badCmd = s.badCmd := rfl
@[simp] theorem setBadAcc_badAcc (s : State) : (setBadAcc s).badAcc = true := rfl
@[simp] theorem setBadAcc_outChannels (s : State) : (setBadAcc s).outChannels = s.outChannels := rfl
@[simp] theorem setBadAcc_activeGroups (s : State) : (setBadAcc s).activeGroups = s.activeGroups := rfl
@[simp] theorem setBadAcc_channels (s : State) : (setBadAcc s).channels = s.channels := rfl
@[simp] theorem setBadAcc_sampleInterval (s : State) : (setBadAcc s).sampleInterval = s.sampleInterval := rfl
@[simp] theorem setBadAcc_freqKnob (s : State) : (setBadAcc s).freqKnob = s.freqKnob := rfl
@[simp] theorem setBadAcc_fineKnob (s : State) : (setBadAcc s).fineKnob = s.fineKnob := rfl
@[simp] theorem setBadAcc_shapeKnob (s : State) : (setBadAcc s).shapeKnob = s.shapeKnob := rfl
@[simp] theorem setBadAcc_pitchCv (s : State) : (setBadAcc s).pitchCv = s.pitchCv := rfl
@[simp] theorem setBadAcc_shapeCv (s : State) : (setBadAcc s).shapeCv = s.shapeCv := rfl
@[simp] theorem setBadAcc_lanes (s : State) : (setBadAcc s).lanes = s.lanes := rfl
@[simp] theorem setBadAcc_queue (s : State) : (setBadAcc s).queue = s.queue := rfl
@[simp] theorem setBadAcc_response (s : State) : (setBadAcc s).response = s.response := rfl
@[simp] theorem setBadAcc_freeCount (s : State) : (setBadAcc s).freeCount = s.freeCount := rfl

@[simp] theorem clearErrors_variant (s : State) : (clearErrors s).variant = s.variant := rfl
@[simp] theorem clearErrors_lfoEn (s : State) : (clearErrors s).lfoEn = s.lfoEn := rfl
@[simp] theorem clearErrors_detuneEn (s : State) : (clearErrors s).detuneEn = s.detuneEn := rfl
@[simp] theorem clearErrors_badCmd (s : State) : (clearErrors s).badCmd = false := rfl
@[simp] theorem clearErrors_badAcc (s : State) : (clearErrors s).badAcc = false := rfl
@[simp] theorem clearErrors_outChannels (s : State) : (clearErrors s).outChannels = s.outChannels := rfl
@[simp] theorem clearErrors_activeGroups (s : State) : (clearErrors s).activeGroups = s.activeGroups := rfl
@[simp] theorem clearErrors_channels (s : State) : (clearErrors s).channels = s.channels := rfl
@[simp] theorem clearErrors_sampleInterval (s : State) : (clearErrors s).sampleInterval = s.sampleInterval := rfl
@[simp] theorem clearErrors_freqKnob (s : State) : (clearErrors s).freqKnob = s.freqKnob := rfl
@[simp] theorem clearErrors_fineKnob (s : State) : (clearErrors s).fineKnob = s.fineKnob := rfl
@[simp] theorem clearErrors_shapeKnob (s : State) : (clearErrors s).shapeKnob = s.shapeKnob := rfl
@[simp] theorem clearErrors_pitchCv (s : State) : (clearErrors s).pitchCv = s.pitchCv := rfl
@[simp] theorem clearErrors_shapeCv (s : State) : (clearErrors s).shapeCv = s.shapeCv := rfl
@[simp] theorem clearErrors_lanes (s : State) : (clearErrors s).lanes = s.lanes := rfl
@[simp] theorem clearErrors_queue (s : State) : (clearErrors s).queue = s.queue := rfl
@[simp] theorem clearErrors_response (s : State) : (clearErrors s).response = s.response := rfl
@[simp] theorem clearErrors_freeCount (s : State) : (clearErrors s).freeCount = s.freeCount := rfl

@[simp] theorem reportDispatch_variant (p : Params) (n : Nat) (s : State) : (reportDispatch p n s).variant = s.variant := rfl
@[simp] theorem reportDispatch_lfoEn (p : Params) (n : Nat) (s : State) : (reportDispatch p n s).lfoEn = s.lfoEn := rfl
@[simp] theorem reportDispatch_detuneEn (p : Params) (n : Nat) (s : State) : (reportDispatch p n s).detuneEn = s.detuneEn := rfl
@[simp] theorem reportDispatch_badCmd (p : Params) (n : Nat) (s : State) : (reportDispatch p n s).badCmd = s.badCmd := rfl
@[simp] theorem reportDispatch_badAcc (p : Params) (n : Nat) (s : State) : (reportDispatch p n s).badAcc = s.badAcc := rfl
@[simp] theorem reportDispatch_outChannels (p : Params) (n : Nat) (s : State) : (reportDispatch p n s).outChannels = BitVec.ofNat 5 n := rfl
@[simp] theorem reportDispatch_activeGroups (p : Params) (n : Nat) (s : State) : (reportDispatch p n s).activeGroups = BitVec.ofNat 5 (groupsOf p n) := rfl
@[simp] theorem reportDispatch_channels (p : Params) (n : Nat) (s : State) : (reportDispatch p n s).channels = s.channels := rfl
@[simp] theorem reportDispatch_sampleInterval (p : Params) (n : Nat) (s : State) : (reportDispatch p n s).sampleInterval = s.sampleInterval := rfl
@[simp] theorem reportDispatch_freqKnob (p : Params) (n : Nat) (s : State) : (reportDispatch p n s).freqKnob = s.freqKnob := rfl
@[simp] theorem reportDispatch_fineKnob (p : Params) (n : Nat) (s : State) : (reportDispatch p n s).fineKnob = s.fineKnob := rfl
@[simp] theorem reportDispatch_shapeKnob (p : Params) (n : Nat) (s : State) : (reportDispatch p n s).shapeKnob = s.shapeKnob := rfl
@[simp] theorem reportDispatch_pitchCv (p : Params) (n : Nat) (s : State) : (reportDispatch p n s).pitchCv = s.pitchCv := rfl
@[simp] theorem reportDispatch_shapeCv (p : Params) (n : Nat) (s : State) : (reportDispatch p n s).shapeCv = s.shapeCv := rfl
@[simp] theorem reportDispatch_lanes (p : Params) (n : Nat) (s : State) : (reportDispatch p n s).lanes = s.lanes := rfl
@[simp] theorem reportDispatch_queue (p : Params) (n : Nat) (s : State) : (reportDispatch p n s).queue = s.queue := rfl
@[simp] theorem reportDispatch_response (p : Params) (n : Nat) (s : State) : (reportDispatch p n s).response = s.response := rfl
@[simp] theorem reportDispatch_freeCount (p : Params) (n : Nat) (s : State) : (reportDispatch p n s).freeCount = s.freeCount := rfl

@[simp] theorem complete_variant (r : BusResponse) (s : State) : (complete r s).variant = s.variant := rfl
@[simp] theorem complete_lfoEn (r : BusResponse) (s : State) : (complete r s).lfoEn = s.lfoEn := rfl
@[simp] theorem complete_detuneEn (r : BusResponse) (s : State) : (complete r s).detuneEn = s.detuneEn := rfl
@[simp] theorem complete_badCmd (r : BusResponse) (s : State) : (complete r s).badCmd = s.badCmd := rfl
@[simp] theorem complete_badAcc (r : BusResponse) (s : State) : (complete r s).badAcc = s.badAcc := rfl
@[simp] theorem complete_outChannels (r : BusResponse) (s : State) : (complete r s).outChannels = s.outChannels := rfl
@[simp] theorem complete_activeGroups (r : BusResponse) (s : State) : (complete r s).activeGroups = s.activeGroups := rfl
@[simp] theorem complete_channels (r : BusResponse) (s : State) : (complete r s).channels = s.channels := rfl
@[simp] theorem complete_sampleInterval (r : BusResponse) (s : State) : (complete r s).sampleInterval = s.sampleInterval := rfl
@[simp] theorem complete_freqKnob (r : BusResponse) (s : State) : (complete r s).freqKnob = s.freqKnob := rfl
@[simp] theorem complete_fineKnob (r : BusResponse) (s : State) : (complete r s).fineKnob = s.fineKnob := rfl
@[simp] theorem complete_shapeKnob (r : BusResponse) (s : State) : (complete r s).shapeKnob = s.shapeKnob := rfl
@[simp] theorem complete_pitchCv (r : BusResponse) (s : State) : (complete r s).pitchCv = s.pitchCv := rfl
@[simp] theorem complete_shapeCv (r : BusResponse) (s : State) : (complete r s).shapeCv = s.shapeCv := rfl
@[simp] theorem complete_lanes (r : BusResponse) (s : State) : (complete r s).lanes = s.lanes := rfl
@[simp] theorem complete_queue (r : BusResponse) (s : State) : (complete r s).queue = s.queue := rfl
@[simp] theorem complete_response (r : BusResponse) (s : State) : (complete r s).response = r := rfl
@[simp] theorem complete_freeCount (r : BusResponse) (s : State) : (complete r s).freeCount = s.freeCount := rfl

@[simp] theorem writeCtrl_variant (p : Params) (d : Word) (s : State) : (writeCtrl p d s).variant = (variantOfCode (d.extractLsb' 0 2)).getD s.variant := rfl
@[simp] theorem writeCtrl_lfoEn (p : Params) (d : Word) (s : State) : (writeCtrl p d s).lfoEn = if p.lfoSupported then d.getLsbD 2 else s.lfoEn := rfl
@[simp] theorem writeCtrl_detuneEn (p : Params) (d : Word) (s : State) : (writeCtrl p d s).detuneEn = d.getLsbD 3 := rfl
@[simp] theorem writeCtrl_badCmd (p : Params) (d : Word) (s : State) : (writeCtrl p d s).badCmd = s.badCmd := rfl
@[simp] theorem writeCtrl_badAcc (p : Params) (d : Word) (s : State) : (writeCtrl p d s).badAcc = s.badAcc := rfl
@[simp] theorem writeCtrl_outChannels (p : Params) (d : Word) (s : State) : (writeCtrl p d s).outChannels = s.outChannels := rfl
@[simp] theorem writeCtrl_activeGroups (p : Params) (d : Word) (s : State) : (writeCtrl p d s).activeGroups = s.activeGroups := rfl
@[simp] theorem writeCtrl_channels (p : Params) (d : Word) (s : State) : (writeCtrl p d s).channels = s.channels := rfl
@[simp] theorem writeCtrl_sampleInterval (p : Params) (d : Word) (s : State) : (writeCtrl p d s).sampleInterval = s.sampleInterval := rfl
@[simp] theorem writeCtrl_freqKnob (p : Params) (d : Word) (s : State) : (writeCtrl p d s).freqKnob = s.freqKnob := rfl
@[simp] theorem writeCtrl_fineKnob (p : Params) (d : Word) (s : State) : (writeCtrl p d s).fineKnob = s.fineKnob := rfl
@[simp] theorem writeCtrl_shapeKnob (p : Params) (d : Word) (s : State) : (writeCtrl p d s).shapeKnob = s.shapeKnob := rfl
@[simp] theorem writeCtrl_pitchCv (p : Params) (d : Word) (s : State) : (writeCtrl p d s).pitchCv = s.pitchCv := rfl
@[simp] theorem writeCtrl_shapeCv (p : Params) (d : Word) (s : State) : (writeCtrl p d s).shapeCv = s.shapeCv := rfl
@[simp] theorem writeCtrl_lanes (p : Params) (d : Word) (s : State) : (writeCtrl p d s).lanes = s.lanes := rfl
@[simp] theorem writeCtrl_queue (p : Params) (d : Word) (s : State) : (writeCtrl p d s).queue = s.queue := rfl
@[simp] theorem writeCtrl_response (p : Params) (d : Word) (s : State) : (writeCtrl p d s).response = s.response := rfl
@[simp] theorem writeCtrl_freeCount (p : Params) (d : Word) (s : State) : (writeCtrl p d s).freeCount = s.freeCount := rfl

@[simp] theorem resetLanes_variant (s : State) : (resetLanes s).variant = s.variant := rfl
@[simp] theorem resetLanes_lfoEn (s : State) : (resetLanes s).lfoEn = s.lfoEn := rfl
@[simp] theorem resetLanes_detuneEn (s : State) : (resetLanes s).detuneEn = s.detuneEn := rfl
@[simp] theorem resetLanes_badCmd (s : State) : (resetLanes s).badCmd = s.badCmd := rfl
@[simp] theorem resetLanes_badAcc (s : State) : (resetLanes s).badAcc = s.badAcc := rfl
@[simp] theorem resetLanes_outChannels (s : State) : (resetLanes s).outChannels = s.outChannels := rfl
@[simp] theorem resetLanes_activeGroups (s : State) : (resetLanes s).activeGroups = s.activeGroups := rfl
@[simp] theorem resetLanes_channels (s : State) : (resetLanes s).channels = s.channels := rfl
@[simp] theorem resetLanes_sampleInterval (s : State) : (resetLanes s).sampleInterval = s.sampleInterval := rfl
@[simp] theorem resetLanes_freqKnob (s : State) : (resetLanes s).freqKnob = s.freqKnob := rfl
@[simp] theorem resetLanes_fineKnob (s : State) : (resetLanes s).fineKnob = s.fineKnob := rfl
@[simp] theorem resetLanes_shapeKnob (s : State) : (resetLanes s).shapeKnob = s.shapeKnob := rfl
@[simp] theorem resetLanes_pitchCv (s : State) : (resetLanes s).pitchCv = s.pitchCv := rfl
@[simp] theorem resetLanes_shapeCv (s : State) : (resetLanes s).shapeCv = s.shapeCv := rfl
@[simp] theorem resetLanes_lanes (s : State) : (resetLanes s).lanes = Vector.replicate 16 Lane.reset := rfl
@[simp] theorem resetLanes_queue (s : State) : (resetLanes s).queue = s.queue := rfl
@[simp] theorem resetLanes_response (s : State) : (resetLanes s).response = s.response := rfl
@[simp] theorem resetLanes_freeCount (s : State) : (resetLanes s).freeCount = s.freeCount := rfl

@[simp] theorem resetBlock_variant (s : State) : (resetBlock s).variant = State.reset.variant := rfl
@[simp] theorem resetBlock_lfoEn (s : State) : (resetBlock s).lfoEn = State.reset.lfoEn := rfl
@[simp] theorem resetBlock_detuneEn (s : State) : (resetBlock s).detuneEn = State.reset.detuneEn := rfl
@[simp] theorem resetBlock_badCmd (s : State) : (resetBlock s).badCmd = State.reset.badCmd := rfl
@[simp] theorem resetBlock_badAcc (s : State) : (resetBlock s).badAcc = State.reset.badAcc := rfl
@[simp] theorem resetBlock_outChannels (s : State) : (resetBlock s).outChannels = State.reset.outChannels := rfl
@[simp] theorem resetBlock_activeGroups (s : State) : (resetBlock s).activeGroups = State.reset.activeGroups := rfl
@[simp] theorem resetBlock_channels (s : State) : (resetBlock s).channels = State.reset.channels := rfl
@[simp] theorem resetBlock_sampleInterval (s : State) : (resetBlock s).sampleInterval = State.reset.sampleInterval := rfl
@[simp] theorem resetBlock_freqKnob (s : State) : (resetBlock s).freqKnob = State.reset.freqKnob := rfl
@[simp] theorem resetBlock_fineKnob (s : State) : (resetBlock s).fineKnob = State.reset.fineKnob := rfl
@[simp] theorem resetBlock_shapeKnob (s : State) : (resetBlock s).shapeKnob = State.reset.shapeKnob := rfl
@[simp] theorem resetBlock_pitchCv (s : State) : (resetBlock s).pitchCv = State.reset.pitchCv := rfl
@[simp] theorem resetBlock_shapeCv (s : State) : (resetBlock s).shapeCv = State.reset.shapeCv := rfl
@[simp] theorem resetBlock_lanes (s : State) : (resetBlock s).lanes = State.reset.lanes := rfl
@[simp] theorem resetBlock_queue (s : State) : (resetBlock s).queue = s.queue := rfl
@[simp] theorem resetBlock_response (s : State) : (resetBlock s).response = s.response := rfl
@[simp] theorem resetBlock_freeCount (s : State) : (resetBlock s).freeCount = s.freeCount := rfl

@[simp] theorem stepBlock_variant (p : Params) (s : State) : (stepBlock p s).variant = s.variant := rfl
@[simp] theorem stepBlock_lfoEn (p : Params) (s : State) : (stepBlock p s).lfoEn = s.lfoEn := rfl
@[simp] theorem stepBlock_detuneEn (p : Params) (s : State) : (stepBlock p s).detuneEn = s.detuneEn := rfl
@[simp] theorem stepBlock_badCmd (p : Params) (s : State) : (stepBlock p s).badCmd = s.badCmd := rfl
@[simp] theorem stepBlock_badAcc (p : Params) (s : State) : (stepBlock p s).badAcc = s.badAcc := rfl
@[simp] theorem stepBlock_outChannels (p : Params) (s : State) : (stepBlock p s).outChannels = BitVec.ofNat 5 (activeCount s) := rfl
@[simp] theorem stepBlock_activeGroups (p : Params) (s : State) : (stepBlock p s).activeGroups = BitVec.ofNat 5 (groupsOf p (activeCount s)) := rfl
@[simp] theorem stepBlock_channels (p : Params) (s : State) : (stepBlock p s).channels = s.channels := rfl
@[simp] theorem stepBlock_sampleInterval (p : Params) (s : State) : (stepBlock p s).sampleInterval = s.sampleInterval := rfl
@[simp] theorem stepBlock_freqKnob (p : Params) (s : State) : (stepBlock p s).freqKnob = s.freqKnob := rfl
@[simp] theorem stepBlock_fineKnob (p : Params) (s : State) : (stepBlock p s).fineKnob = s.fineKnob := rfl
@[simp] theorem stepBlock_shapeKnob (p : Params) (s : State) : (stepBlock p s).shapeKnob = s.shapeKnob := rfl
@[simp] theorem stepBlock_pitchCv (p : Params) (s : State) : (stepBlock p s).pitchCv = s.pitchCv := rfl
@[simp] theorem stepBlock_shapeCv (p : Params) (s : State) : (stepBlock p s).shapeCv = s.shapeCv := rfl
@[simp] theorem stepBlock_lanes (p : Params) (s : State) : (stepBlock p s).lanes = stepLanes p s := rfl
@[simp] theorem stepBlock_queue (p : Params) (s : State) : (stepBlock p s).queue = s.queue := rfl
@[simp] theorem stepBlock_response (p : Params) (s : State) : (stepBlock p s).response = s.response := rfl
@[simp] theorem stepBlock_freeCount (p : Params) (s : State) : (stepBlock p s).freeCount = s.freeCount + 1 := rfl

@[simp] theorem mapLane_phase (p : Params) (s : State) (i : Fin 16) (l : Lane) :
    (mapLane p s i l).phase = l.phase := rfl
@[simp] theorem mapLane_freq (p : Params) (s : State) (i : Fin 16) (l : Lane) :
    (mapLane p s i l).freq = laneFreq p s i := rfl
@[simp] theorem mapLane_shape (p : Params) (s : State) (i : Fin 16) (l : Lane) :
    (mapLane p s i l).shape = laneShape s i := rfl
@[simp] theorem mapLane_out (p : Params) (s : State) (i : Fin 16) (l : Lane) :
    (mapLane p s i l).out = l.out := rfl
@[simp] theorem mapLane_outv (p : Params) (s : State) (i : Fin 16) (l : Lane) :
    (mapLane p s i l).outv = l.outv := rfl
@[simp] theorem mapLane_dl (p : Params) (s : State) (i : Fin 16) (l : Lane) :
    (mapLane p s i l).dl = l.dl := rfl
@[simp] theorem mapLane_pos (p : Params) (s : State) (i : Fin 16) (l : Lane) :
    (mapLane p s i l).pos = l.pos := rfl

@[simp] theorem process_phase (l : Lane) : (process l).2.phase = l.phase := rfl
@[simp] theorem process_freq (l : Lane) : (process l).2.freq = l.freq := rfl
@[simp] theorem process_shape (l : Lane) : (process l).2.shape = l.shape := rfl
@[simp] theorem process_out (l : Lane) : (process l).2.out = l.out := rfl
@[simp] theorem process_outv (l : Lane) : (process l).2.outv = l.outv := rfl
@[simp] theorem process_dl (l : Lane) : (process l).2.dl = l.dl.set l.pos 0#32 := rfl
@[simp] theorem process_pos (l : Lane) : (process l).2.pos = l.pos + 1 := rfl
@[simp] theorem process_correction (l : Lane) : (process l).1 = l.dl[l.pos] := rfl

@[simp] theorem emit_phase (p : Params) (s : State) (i : Fin 16) (y corr : Word) (l : Lane) :
    (emit p s i y corr l).phase = l.phase := rfl
@[simp] theorem emit_freq (p : Params) (s : State) (i : Fin 16) (y corr : Word) (l : Lane) :
    (emit p s i y corr l).freq = l.freq := rfl
@[simp] theorem emit_shape (p : Params) (s : State) (i : Fin 16) (y corr : Word) (l : Lane) :
    (emit p s i y corr l).shape = l.shape := rfl
@[simp] theorem emit_dl (p : Params) (s : State) (i : Fin 16) (y corr : Word) (l : Lane) :
    (emit p s i y corr l).dl = l.dl := rfl
@[simp] theorem emit_pos (p : Params) (s : State) (i : Fin 16) (y corr : Word) (l : Lane) :
    (emit p s i y corr l).pos = l.pos := rfl
@[simp] theorem emit_out (p : Params) (s : State) (i : Fin 16) (y corr : Word) (l : Lane) :
    (emit p s i y corr l).out = storedBits p s.freeCount i outSite (fadd y corr) := rfl
@[simp] theorem emit_outv (p : Params) (s : State) (i : Fin 16) (y corr : Word) (l : Lane) :
    (emit p s i y corr l).outv =
      storedBits p s.freeCount i outvSite (outputVolts p s (storedBits p s.freeCount i outSite (fadd y corr))) := rfl

@[simp] theorem mapAdvance_phase (p : Params) (s : State) (i : Fin 16) (l : Lane) :
    (mapAdvance p s i l).1.phase = (advance l.phase (increment (laneFreq p s i) s.sampleInterval)).phase := rfl
@[simp] theorem mapAdvance_freq (p : Params) (s : State) (i : Fin 16) (l : Lane) :
    (mapAdvance p s i l).1.freq = laneFreq p s i := rfl
@[simp] theorem mapAdvance_shape (p : Params) (s : State) (i : Fin 16) (l : Lane) :
    (mapAdvance p s i l).1.shape = laneShape s i := rfl
@[simp] theorem mapAdvance_out (p : Params) (s : State) (i : Fin 16) (l : Lane) :
    (mapAdvance p s i l).1.out = l.out := rfl
@[simp] theorem mapAdvance_outv (p : Params) (s : State) (i : Fin 16) (l : Lane) :
    (mapAdvance p s i l).1.outv = l.outv := rfl
@[simp] theorem mapAdvance_dl (p : Params) (s : State) (i : Fin 16) (l : Lane) :
    (mapAdvance p s i l).1.dl = l.dl := rfl
@[simp] theorem mapAdvance_pos (p : Params) (s : State) (i : Fin 16) (l : Lane) :
    (mapAdvance p s i l).1.pos = l.pos := rfl
@[simp] theorem mapAdvance_advanced (p : Params) (s : State) (i : Fin 16) (l : Lane) :
    (mapAdvance p s i l).2 = advance l.phase (increment (laneFreq p s i) s.sampleInterval) := rfl

@[simp] theorem insertOnWrap_phase (p : Params) (s : State) (i : Fin 16) (a : Advanced) (l : Lane) :
    (insertOnWrap p s i a l).phase = l.phase := by unfold insertOnWrap; split <;> rfl
@[simp] theorem insertOnWrap_freq (p : Params) (s : State) (i : Fin 16) (a : Advanced) (l : Lane) :
    (insertOnWrap p s i a l).freq = l.freq := by unfold insertOnWrap; split <;> rfl
@[simp] theorem insertOnWrap_shape (p : Params) (s : State) (i : Fin 16) (a : Advanced) (l : Lane) :
    (insertOnWrap p s i a l).shape = l.shape := by unfold insertOnWrap; split <;> rfl
@[simp] theorem insertOnWrap_out (p : Params) (s : State) (i : Fin 16) (a : Advanced) (l : Lane) :
    (insertOnWrap p s i a l).out = l.out := by unfold insertOnWrap; split <;> rfl
@[simp] theorem insertOnWrap_outv (p : Params) (s : State) (i : Fin 16) (a : Advanced) (l : Lane) :
    (insertOnWrap p s i a l).outv = l.outv := by unfold insertOnWrap; split <;> rfl
@[simp] theorem insertOnWrap_pos (p : Params) (s : State) (i : Fin 16) (a : Advanced) (l : Lane) :
    (insertOnWrap p s i a l).pos = l.pos := by unfold insertOnWrap; split <;> rfl
@[simp] theorem insertOnWrap_dl (p : Params) (s : State) (i : Fin 16) (a : Advanced) (l : Lane) :
    (insertOnWrap p s i a l).dl =
      if a.wrapped then insert p s.freeCount i a.d (jump s.variant) l.pos l.dl else l.dl := by
  unfold insertOnWrap; split <;> rfl

/-- The lane fields a STEP leaves to MAP, ADVANCE and PROCESS. -/
@[simp] theorem stepLane_phase (p : Params) (s : State) (i : Fin 16) (l : Lane) :
    (stepLane p s i l).phase = (advance l.phase (increment (laneFreq p s i) s.sampleInterval)).phase := by
  simp [stepLane]
@[simp] theorem stepLane_freq (p : Params) (s : State) (i : Fin 16) (l : Lane) :
    (stepLane p s i l).freq = laneFreq p s i := by simp [stepLane]
@[simp] theorem stepLane_shape (p : Params) (s : State) (i : Fin 16) (l : Lane) :
    (stepLane p s i l).shape = laneShape s i := by simp [stepLane]
@[simp] theorem stepLane_pos (p : Params) (s : State) (i : Fin 16) (l : Lane) :
    (stepLane p s i l).pos = l.pos + 1 := by simp [stepLane]

/-- One lane after a STEP: stepped when active, untouched when not (rule R209). -/
theorem stepLanes_getElem (p : Params) (s : State) (i : Fin 16) :
    (stepLanes p s)[i] = if i.val < activeCount s then stepLane p s i s.lanes[i] else s.lanes[i] := by
  simp [stepLanes]

end Sys2Proof.Laws
end

