-- ==== Sys2Proof/Laws/Window.lean ====
section
/-! SUPPORT. Laws/Window.lean: what the window's address decoding and writing can do. -/

namespace Sys2Proof.Laws

open Sys2Proof.Machine Sys2Proof.Config

/-- Address decoding depends on the word index alone (rules R71, R75). -/
theorem regAt_congr {m : Nat} {a b : BitVec 10} (h : wordIndex a = wordIndex b) : regAt m a = regAt m b := by
  simp only [regAt, h]

/-- CMD is the one word the decoder takes commands at (rule R60). -/
theorem regAt_eq_cmd_iff (m : Nat) (a : BitVec 10) : regAt m a = .cmd ↔ wordIndex a = cmdIndex := by
  have hlt : (wordIndex a).toNat < 256 := (wordIndex a).isLt
  have hiff : wordIndex a = cmdIndex ↔ (wordIndex a).toNat = 10 := by
    rw [← BitVec.toNat_inj]; rfl
  rw [hiff]
  unfold regAt laneSlot
  generalize (wordIndex a).toNat = w at hlt ⊢
  constructor
  · intro h
    dsimp only at h
    split at h <;> (try split at h) <;> first | rfl | simp_all
  · rintro rfl; rfl

/-- The RW registers that store what is written (rule R46). -/
def storesWrites : Reg → Bool
  | .ctrl | .channels | .sampleInterval | .freqKnob | .fineKnob | .shapeKnob => true
  | .pitchCv _ | .shapeCv _ => true
  | _ => false

/-- The words whose writes only record a bad access: the RO registers' and the reserved ones (rules R49, R74). -/
theorem regAt_not_stores_iff (off : BitVec 10) :
    (storesWrites (regAt 16 off) = false ∧ regAt 16 off ≠ .cmd) ↔
      ((wordIndex off).toNat < 3 ∨ (wordIndex off).toNat = 4 ∨
        (11 ≤ (wordIndex off).toNat ∧ (wordIndex off).toNat < 16) ∨ 48 ≤ (wordIndex off).toNat) := by
  have hlt : (wordIndex off).toNat < 256 := (wordIndex off).isLt
  unfold regAt laneSlot
  generalize (wordIndex off).toNat = w at hlt ⊢
  interval_cases w <;> simp [storesWrites]

/-- A write of a register that stores nothing and is not CMD records a bad access and nothing else (rule R74). -/
theorem writeReg_of_not_stores (p : Params) (d : Word) (s : State) (r : Reg) (h : storesWrites r = false)
    (hc : r ≠ .cmd) : writeReg p d s r = setBadAcc s := by
  cases r <;> first | rfl | simp_all [storesWrites]

/-- No register write touches the lanes (rule R267), the dispatch report, BADCMD or the host's side. -/
theorem writeReg_frame (p : Params) (d : Word) (s : State) (r : Reg) :
    (writeReg p d s r).lanes = s.lanes ∧ (writeReg p d s r).outChannels = s.outChannels ∧
      (writeReg p d s r).activeGroups = s.activeGroups ∧ (writeReg p d s r).badCmd = s.badCmd ∧
      (writeReg p d s r).queue = s.queue ∧ (writeReg p d s r).response = s.response ∧
      (writeReg p d s r).freeCount = s.freeCount := by
  cases r <;> exact ⟨rfl, rfl, rfl, rfl, rfl, rfl, rfl⟩

/-- Everything a WRITE can do to the block (rule R231): nothing but BADACC, a command's execution, or a register
write. -/
theorem performWrite_cases (p : Params) (off : BitVec 10) (be : BitVec 4) (d : Word) (s : State) :
    (be ≠ 15#4 ∧ performWrite p off be d s = setBadAcc s) ∨
      (be = 15#4 ∧ regAt p.maxChannels off = .cmd ∧ performWrite p off be d s = execute p d s) ∨
      (be = 15#4 ∧ regAt p.maxChannels off ≠ .cmd ∧
        performWrite p off be d s = writeReg p d s (regAt p.maxChannels off)) := by
  unfold performWrite
  by_cases hb : be = 15#4
  · rw [if_pos hb]
    cases hr : regAt p.maxChannels off <;> simp [hb]
  · rw [if_neg hb]; exact .inl ⟨hb, rfl⟩

/-- Everything EXECUTE can do (rule R232). -/
theorem execute_cases (p : Params) (w : Word) (s : State) :
    (∃ c, decodeCommand w = some c ∧ execute p w s = performCommand p s c) ∨
      (decodeCommand w = none ∧ execute p w s = setBadCmd s) := by
  unfold execute
  cases h : decodeCommand w with
  | some c => exact .inl ⟨c, rfl, rfl⟩
  | none => exact .inr ⟨rfl, rfl⟩

/-- A decoded command word is that command's word (rule R106). -/
theorem decodeCommand_eq_some {w : Word} {c : Command} (h : decodeCommand w = some c) : w = encodeCommand c := by
  unfold decodeCommand at h
  split_ifs at h <;> simp_all <;> subst h <;> rfl

end Sys2Proof.Laws
end

