-- ==== Sys2Proof/Laws/Step.lean ====
section
/-! SUPPORT. Laws/Step.lean: the next state of every instruction, and everything one step can do. -/

namespace Sys2Proof.Laws

open Sys2Proof.Machine Sys2Proof.Config Sys2Proof.Safety

/-- Every meaning has a next state (rule R260). -/
theorem exec_eq_next (i : Instr) (s : State) : exec i s = .next (buildExec hw i s) := by cases i <;> rfl

/-- The machine's step is the hardware build's, so every step has a next state (rule R260). -/
theorem step_eq_next (s : State) : step s = .next (buildStep hw s) := by
  unfold step buildStep
  rcases s.queue with _ | ⟨e, rest⟩
  · rfl
  · cases e with
    | hardReset t => rfl
    | transaction t => exact exec_eq_next _ _

/-- Everything a build's step can do: nothing, a hardware reset, or one instruction on the state without its event. -/
theorem buildStep_cases (p : Params) (s : State) :
    (s.queue = [] ∧ buildStep p s = s) ∨
      (∃ t rest, s.queue = .hardReset t :: rest ∧ buildStep p s = hardwareReset { s with queue := rest }) ∨
      (∃ t rest, s.queue = .transaction t :: rest ∧
        buildStep p s = buildExec p (decodeTransaction t) { s with queue := rest }) := by
  unfold buildStep
  cases hq : s.queue with
  | nil => exact .inl ⟨rfl, rfl⟩
  | cons e rest =>
    cases e with
    | hardReset t => exact .inr (.inl ⟨t, rest, rfl, rfl⟩)
    | transaction t => exact .inr (.inr ⟨t, rest, rfl, rfl⟩)

/-- Everything a step can do. -/
theorem step_cases (s : State) :
    (s.queue = [] ∧ step s = .next s) ∨
      (∃ t rest, s.queue = .hardReset t :: rest ∧ step s = .next (hardwareReset { s with queue := rest })) ∨
      (∃ t rest, s.queue = .transaction t :: rest ∧
        step s = .next (buildExec hw (decodeTransaction t) { s with queue := rest })) := by
  rw [step_eq_next]
  rcases buildStep_cases hw s with ⟨hq, h⟩ | ⟨t, rest, hq, h⟩ | ⟨t, rest, hq, h⟩
  · exact .inl ⟨hq, by rw [h]⟩
  · exact .inr (.inl ⟨t, rest, hq, by rw [h]⟩)
  · exact .inr (.inr ⟨t, rest, hq, by rw [h]⟩)

/-- What an instruction does to the lanes of a build: a STEP, a reset of them, or nothing (rules R234–R236, R267). -/
theorem buildExec_lanes (p : Params) (i : Instr) (s : State) :
    (buildExec p i s).lanes = s.lanes ∨ (buildExec p i s).lanes = stepLanes p s ∨
      (buildExec p i s).lanes = Vector.replicate 16 Lane.reset := by
  have hc : ∀ c : Command, (performCommand p s c).lanes = s.lanes ∨ (performCommand p s c).lanes = stepLanes p s ∨
      (performCommand p s c).lanes = Vector.replicate 16 Lane.reset := by
    intro c
    cases c
    · exact .inl rfl
    · exact .inr (.inl rfl)
    · exact .inr (.inr rfl)
    · exact .inr (.inr rfl)
    · exact .inl rfl
  cases i with
  | read => exact .inl rfl
  | write off be d =>
    change (performWrite p off be d s).lanes = _ ∨ (performWrite p off be d s).lanes = _ ∨
      (performWrite p off be d s).lanes = _
    rcases performWrite_cases p off be d s with ⟨-, h⟩ | ⟨-, -, h⟩ | ⟨-, -, h⟩
    · rw [h]; exact .inl rfl
    · rw [h]
      rcases execute_cases p d s with ⟨c, -, h'⟩ | ⟨-, h'⟩
      · rw [h']; exact hc c
      · rw [h']; exact .inl rfl
    · rw [h]; exact .inl (writeReg_frame p d s _).1
  | nop => exact hc .nop
  | step => exact hc .step
  | laneReset => exact hc .laneReset
  | fullReset => exact hc .fullReset
  | clearStatus => exact hc .clearStatus

end Sys2Proof.Laws
end

