-- ==== Sys2Proof/Tests/Slice0.lean ====
section
/-! SUPPORT. Tests/Slice0.lean: the model's own tests. Expected values come from the spec (the rule or the vector of
spec/95_test_vectors.md is named), never from the model. A theorem whose name begins with `witness` shows that an
obligation's hypotheses can be met. -/

namespace Sys2Proof.Tests

open Sys2Proof Sys2Proof.Machine Sys2Proof.Config Sys2Proof.Safety Sys2Proof.Laws

/-! ### Helpers -/

/-- The test ROM S1 of spec/95_test_vectors.md: `min(k/16, 1)`. -/
def romS1 (k : Nat) : Word := if 16 ≤ k then one else rn32 false k 16 0

/-- A legal build with the test ROM S1, the detune table DT of spec/95_test_vectors.md, and an admissible cosine. -/
def params : Params where
  maxChannels := 16
  groupWidth := 4
  lfoSupported := true
  exp2Mode := .taylor5
  detune k := [0x00000000#32, 0x3C000000#32, 0xBC000000#32, 0x3C800000#32].getD k 0#32
  rom := romS1
  cos32 _ := one
  nan _ _ _ := 0x7FC00000#32

/-- The state an outcome carries; the reset state for a stop. -/
def after : Host.Outcome State Fault Refusal → State
  | .next s => s
  | .fault _ => State.reset
  | .refused _ => State.reset

/-- Reset with some registers written; no lane is touched. -/
def inputs (v : Variant) (dt knob : Word) : State :=
  { State.reset with variant := v, sampleInterval := dt, freqKnob := knob }

/-- Reset with every lane's phase and index set, and a correction of −1.0 pending eight samples on. -/
def phased (v : Variant) (dt phase : Word) : State :=
  { State.reset with
    variant := v
    sampleInterval := dt
    lanes := Vector.replicate 16
      { Lane.reset with phase := phase, pos := 31, dl := Lane.reset.dl.set 7 0xBF800000#32 } }

/-- A state whose next event is a transaction. -/
def offered (w : Bool) (off : BitVec 10) (be : BitVec 4) (data : Word) (s : State) : State :=
  { s with queue := [.transaction { isWrite := w, offset := off, be := be, data := data }] }

/-! ### WellFormed -/

theorem test_wf_refuses_command_writes :
    (Instr.write 0x028#10 15#4 0x00000000#32).wf = false ∧ (Instr.write 0x029#10 15#4 0x01000000#32).wf = false ∧
    (Instr.write 0x02A#10 15#4 0x02000000#32).wf = false ∧ (Instr.write 0x02B#10 15#4 0x03000000#32).wf = false ∧
    (Instr.write 0x028#10 15#4 0x04000000#32).wf = false := by decide

theorem test_wf_accepts_other_writes :
    (Instr.write 0x028#10 15#4 0x05000000#32).wf = true ∧ (Instr.write 0x028#10 7#4 0x01000000#32).wf = true ∧
    (Instr.write 0x024#10 15#4 0x01000000#32).wf = true ∧ (Instr.read 0x028#10 15#4).wf = true ∧
    Instr.step.wf = true := by decide

/-! ### Decoding: frames written out bit by bit (rules R73, R104–R108; the frame's layout is log entry 2) -/

/-- `R 13C`, all byte enables set: W = 0, offset 01_0011_1100 at [10:1], enables 1111 at [14:11]. -/
theorem test_decode_read :
    decode [0b01111000#8, 0b01111010#8, 0#8, 0#8, 0#8, 0#8, 0#8, 0#8] = .ok (.read 0x13C#10 15#4) := by decide

/-- `W 018 37BE37C6`: W = 1, offset 00_0001_1000, enables 1111, the data bytes from the low one. -/
theorem test_decode_write :
    decode [0b00110001#8, 0b01111000#8, 0#8, 0#8, 0xC6#8, 0x37#8, 0xBE#8, 0x37#8] =
      .ok (.write 0x018#10 15#4 0x37BE37C6#32) := by decide

/-- `W 028` of each command word: OP in bits [31:24], Z = 0 (rules R105, R107). -/
theorem test_decode_commands :
    decode [0b01010001#8, 0b01111000#8, 0#8, 0#8, 0#8, 0#8, 0#8, 0x00#8] = .ok .nop ∧
    decode [0b01010001#8, 0b01111000#8, 0#8, 0#8, 0#8, 0#8, 0#8, 0x01#8] = .ok .step ∧
    decode [0b01010001#8, 0b01111000#8, 0#8, 0#8, 0#8, 0#8, 0#8, 0x02#8] = .ok .laneReset ∧
    decode [0b01010001#8, 0b01111000#8, 0#8, 0#8, 0#8, 0#8, 0#8, 0x03#8] = .ok .fullReset ∧
    decode [0b01010001#8, 0b01111000#8, 0#8, 0#8, 0#8, 0#8, 0#8, 0x04#8] = .ok .clearStatus := by decide

/-- A reserved command word, STEP's opcode with Z = 1, and a partial write of STEP are WRITEs (rules R76, R108). -/
theorem test_decode_not_commands :
    decode [0b01010001#8, 0b01111000#8, 0#8, 0#8, 0#8, 0#8, 0#8, 0x05#8] = .ok (.write 0x028#10 15#4 0x05000000#32) ∧
    decode [0b01010001#8, 0b01111000#8, 0#8, 0#8, 1#8, 0#8, 0#8, 0x01#8] = .ok (.write 0x028#10 15#4 0x01000001#32) ∧
    decode [0b01010001#8, 0b00111000#8, 0#8, 0#8, 0#8, 0#8, 0#8, 0x01#8] = .ok (.write 0x028#10 7#4 0x01000000#32) := by
  decide

theorem test_decode_rejects_by_name :
    decode [0#8, 0#8, 0#8] = .error .frameLength ∧
    decode [1#8, 0x80#8, 0#8, 0#8, 0#8, 0#8, 0#8, 0#8] = .error .reservedFrameBits := by decide

theorem test_table_words :
    decodeTableWord 8 0 = some (.read 0#10 0#4) ∧ decodeTableWord 32 0x04000000 = some .clearStatus ∧
    tableTransaction 32 0x01000000 = commandTransaction 0x01000000#32 := by decide

/-! ### Shared operations: the spec's vectors -/

/-- RN32 of 1/3, from rule R157's slopeDown; 0.1 * 0.1 of rule R101; 2^-150 ties to even. -/
theorem test_rounding :
    fdiv one 0x40400000#32 = 0x3EAAAAAB#32 ∧ fmul 0x3DCCCCCD#32 0x3DCCCCCD#32 = 0x3C23D70B#32 ∧
    fmul 0x411E6666#32 0x3DCCCCCD#32 = 0x3F7D70A3#32 ∧ ldexp32 one (-150) = 0#32 := by decide +kernel

/-- Rule R204's examples, and its discontinuity just below an integer. -/
theorem test_exp2_taylor :
    exp2 params 0x3F000000#32 = 0x3FB504DE#32 ∧ exp2 params 0xB089705F#32 = 0x3F7FFA68#32 ∧
    exp2 params 0xC0900000#32 = 0x3D3504DE#32 ∧ exp2 params 0x43000000#32 = 0x7F800000#32 := by decide +kernel

/-- Rule R205's examples. -/
theorem test_exp2_exact :
    exp2 { params with exp2Mode := .exact } 0x3F000000#32 = 0x3FB504F3#32 ∧
    exp2 { params with exp2Mode := .exact } 0xC3150000#32 = 1#32 ∧
    exp2 { params with exp2Mode := .exact } 0xC3160000#32 = 0#32 := by decide +kernel

/-- Rule R130's example and corner cases. -/
theorem test_advance :
    increment one one = 0x3EB33333#32 ∧
    advance 0x3F666666#32 0x3EB33333#32 = { phase := 0x3E800000#32, wrapped := true, d := 0x3F36DB6E#32 } ∧
    advance 0x3F266666#32 0x3EB33333#32 = { phase := 0#32, wrapped := true, d := 0#32 } ∧
    (advance 0x3F7FFFFF#32 0x358637BD#32).phase = 0x35800000#32 ∧ increment 0x7F800000#32 0#32 = 0x358637BD#32 := by
  decide +kernel

/-- Rule R131: an offset of 1.0 does occur. -/
theorem test_advance_offset_one :
    advance 0x3F7FFFFF#32 0x3EA7A318#32 = { phase := 0x3EA7A318#32, wrapped := true, d := one } := by decide +kernel

/-- Rules R151 and R152's examples, up to the cosine; rule R153's. -/
theorem test_shaper :
    czSawPosition 0x3E800000#32 0x3F000000#32 = 0x3F000000#32 ∧
    czSawPulsePosition 0x3F19999A#32 0x3F000000#32 = 0x3E999998#32 ∧
    moogInvSaw 0x3E800000#32 = 0x3EA00000#32 ∧ moogInvSaw 0x3F000000#32 = 0xBE800000#32 ∧
    moogInvSaw 0x3F7FFFFF#32 = 0xBF7FFFFF#32 := by decide +kernel

/-- Rule R173's example, and rule R174's with its frame. -/
theorem test_lookup_insert :
    lookup params 0x3CC00000#32 = 0x3CC00000#32 ∧ lookup params 0x42000000#32 = one ∧
    insert params 0 0 0x3F000000#32 two 0 (Vector.replicate 32 0#32) =
      (Vector.replicate 32 0#32).set 0 0xBF800000#32 := by decide +kernel

/-- Rule R176's example. -/
theorem test_process :
    (process { Lane.reset with dl := Lane.reset.dl.set 3 0xBF800000#32, pos := 3 }).1 = 0xBF800000#32 ∧
    (process { Lane.reset with dl := Lane.reset.dl.set 3 0xBF800000#32, pos := 3 }).2.pos = 4 ∧
    (process { Lane.reset with dl := Lane.reset.dl.set 3 0xBF800000#32, pos := 3 }).2.dl[3] = 0#32 := by decide

/-- Rule R203's example: GROUP_WIDTH 4 and 2. -/
theorem test_detune :
    laneFreq params { State.reset with detuneEn := true } 3 = 0x43843CBD#32 ∧
    laneFreq { params with groupWidth := 2 } { State.reset with detuneEn := true } 3 = 0x438385EA#32 := by
  decide +kernel

/-- Rules R201, R202 and R211's examples. -/
theorem test_lfo_and_volts :
    laneFreq params { State.reset with freqKnob := one } 0 = 0x438A9762#32 ∧
    laneFreq params { State.reset with lfoEn := true, fineKnob := 0x3F000000#32 } 0 = 0x3F82D014#32 ∧
    outputVolts params { State.reset with lfoEn := true, fineKnob := 0x3F000000#32 } 0x3F7FFB71#32 = 0x40EFFD27#32 := by
  decide +kernel

/-- Rule R112's pseudo-instructions. -/
theorem test_host_program :
    programTransactions params [.variant .moogInvSaw true false, .wrf 0x020#10 (.decimal 1 2), .steps 2] =
      [writeAt 0x00C#10 6#32, writeAt 0x020#10 0x3F000000#32,
       commandTransaction 0x01000000#32, commandTransaction 0x01000000#32] ∧
    (programTransactions params [.wrall .shapeCv .nan]).length = 16 := by decide +kernel

/-! ### One step of each instruction -/

/-- `R 000` (rule R230). -/
theorem test_read_id : (after (step (offered false 0x000#10 15#4 0#32 State.reset))).response = .readData 0x4D4F5343#32 := by
  decide

/-- `R 140` after reset (rule R230). -/
theorem test_read_shape :
    (after (exec (.read 0x140#10 0#4) State.reset)).response = .readData 0x3C23D70B#32 := by decide

/-- `W 00C 00000007` from reset: VARIANT kept, LFO_EN set (spec/95_test_vectors.md 2.5). -/
theorem test_write_ctrl :
    readWindow hw (after (exec (.write 0x00C#10 15#4 7#32) State.reset)) 0x00C#10 = 4#32 := by decide

/-- `W 014 FFFFFFFF` stores 16 (spec/95_test_vectors.md 2.5), and `W 0C0 3F800000` sets BADACC (rule R231). -/
theorem test_write_channels_and_ro :
    readWindow hw (after (exec (.write 0x014#10 15#4 0xFFFFFFFF#32) State.reset)) 0x014#10 = 0x10#32 ∧
    readWindow hw (after (exec (.write 0x0C0#10 15#4 0x3F800000#32) State.reset)) 0x010#10 = 2#32 := by decide

/-- `W 028 00000000` changes nothing (rule R233). -/
theorem test_nop :
    after (step (offered true 0x028#10 15#4 0#32 State.reset)) = { State.reset with response := .writeDone } := by
  decide

/-- Program P1 step 1: PHASE[0], OUT[0] and STATUS of MOOG_INVSAW at INC_MAX (rule R234's example). -/
theorem test_step_moog :
    readWindow hw (after (exec .step (inputs .moogInvSaw one 0#32))) 0x100#10 = 0x3EB33333#32 ∧
    readWindow hw (after (exec .step (inputs .moogInvSaw one 0#32))) 0x0C0#10 = 0x3EB99990#32 ∧
    readWindow hw (after (exec .step (inputs .moogInvSaw one 0#32))) 0x010#10 = 0x00010100#32 := by decide +kernel

/-- Program P1 step 3: a wrap, its correction and the corrected sample with the ROM S1. -/
theorem test_step_wrap :
    (stepBlock params (phased .moogInvSaw one 0x3F333333#32)).lanes[0].phase = 0x3D4CCCC0#32 ∧
    (stepBlock params (phased .moogInvSaw one 0x3F333333#32)).lanes[0].out = 0xBF5C9DFF#32 ∧
    (stepBlock params (phased .moogInvSaw one 0x3F333333#32)).lanes[0].outv = 0xC089E2BF#32 ∧
    (stepBlock params (phased .moogInvSaw one 0x3F333333#32)).lanes[0].pos = 0 := by decide +kernel

/-- LANE_RESET keeps the registers (rule R235). -/
theorem test_lane_reset :
    (after (exec .laneReset (phased .moogInvSaw one 0x3F333333#32))).lanes[15].phase = 0#32 ∧
    (after (exec .laneReset (phased .moogInvSaw one 0x3F333333#32))).sampleInterval = one := by decide

/-- FULL_RESET resets them too (rule R236). -/
theorem test_full_reset :
    after (exec .fullReset (phased .moogInvSaw one 0x3F333333#32)) = { State.reset with response := .writeDone } := by
  decide

/-- STATUS 0x00010103 becomes 0x00010100 (rule R237's example). -/
theorem test_clear_status :
    readWindow hw { State.reset with badCmd := true, badAcc := true, outChannels := 1#5, activeGroups := 1#5 } 0x010#10 =
      0x00010103#32 ∧
    readWindow hw (after (exec .clearStatus
      { State.reset with badCmd := true, badAcc := true, outChannels := 1#5, activeGroups := 1#5 })) 0x010#10 =
      0x00010100#32 := by decide

/-- A partial write of STEP: BADACC and no STEP (spec/95_test_vectors.md 2.6). -/
theorem test_partial_command :
    (after (step (offered true 0x028#10 7#4 0x01000000#32 State.reset))).badAcc = true ∧
    (after (step (offered true 0x028#10 7#4 0x01000000#32 State.reset))).badCmd = false ∧
    (after (step (offered true 0x028#10 7#4 0x01000000#32 State.reset))).lanes = State.reset.lanes := by decide

/-! ### Witnesses: each obligation's hypotheses met by concrete values -/

theorem params_legal : params.Legal where
  channels_pos := by decide
  channels_le := by decide
  width_pos := by decide
  width_le := by decide
  detune_finite := by decide
  rom_finite k _ := by
    change isFinite (if 16 ≤ k then one else rn32 false k 16 0) = true
    split_ifs with h
    · decide
    · exact (by decide +kernel : ∀ j < 16, isFinite (rn32 false j 16 0) = true) k (by omega)
  rom_first := by decide +kernel
  rom_last := by decide
  cos_zero := rfl
  cos_range _ _ _ := by change fle minusOne one = true ∧ fle one one = true; decide
  nan_isNaN _ _ _ := by change isNaN 0x7FC00000#32 = true; decide

/-- S1 meets the bound of rule R179, as the rule says of both test tables. -/
theorem params_tableBounded : TableBounded params := fun k _ => by
  change magnitude (if 16 ≤ k then one else rn32 false k 16 0) < 0x71800000
  split_ifs with h
  · decide
  · exact (by decide +kernel : ∀ j < 16, magnitude (rn32 false j 16 0) < 0x71800000) k (by omega)

theorem witness_RoundMagnitudeIsNearestTiesToEven : 0 < 3 ∧ roundMagnitude 1 3 0 = 0x3EAAAAAB := by decide +kernel

theorem value_one : value one = 1 := by
  have h : signedSignificand one = 8388608 := by decide
  have h2 : ulpExponent one = -23 := by decide
  rw [value, h, h2]; norm_num

theorem value_minusOne : value minusOne = -1 := by
  have h : signedSignificand minusOne = -8388608 := by decide
  have h2 : ulpExponent minusOne = -23 := by decide
  rw [value, h, h2]; norm_num

theorem value_zero : value 0#32 = 0 := by
  have h : signedSignificand 0#32 = 0 := by decide
  rw [value, h]; norm_num

/-- Finite operands for each clause: sums, differences, products and quotients that are zero and that are not. -/
theorem witness_BinaryOperationsRoundTheExactResult :
    isFinite one = true ∧ isFinite minusOne = true ∧ isFinite 0#32 = true ∧
    value one + value one ≠ 0 ∧ value one + value minusOne = 0 ∧ value one - value minusOne ≠ 0 ∧
    value one - value one = 0 ∧ value one * value minusOne ≠ 0 ∧ value one * value 0#32 = 0 ∧
    value one ≠ 0 ∧ value 0#32 = 0 := by
  rw [value_one, value_minusOne, value_zero]
  refine ⟨by decide, by decide, by decide, ?_⟩
  norm_num

/-- Operands that are not finite, for each clause. -/
theorem witness_BinaryOperationsRoundTheExactResult_special :
    isNaN 0x7FC00000#32 = true ∧ isInf 0x7F800000#32 = true ∧ isInf 0xFF800000#32 = true ∧ isFinite one = true ∧
    signBit 0x7F800000#32 = false ∧ signBit 0xFF800000#32 = true := by decide

theorem witness_DecodeOfEncodeIsTheInstruction :
    (Instr.read 0x3FF#10 0#4).wf = true ∧ (Instr.write 0x3FF#10 15#4 0xFFFFFFFF#32).wf = true ∧
    Instr.nop.wf = true ∧ Instr.clearStatus.wf = true := by decide

theorem witness_StepRunsTheDecodedInstruction :
    (offered true 0x028#10 15#4 0x01000000#32 State.reset).queue =
      .transaction (commandTransaction 0x01000000#32) :: [] ∧ Instr.step.wf = true := ⟨rfl, rfl⟩

theorem witness_StepRunsTheOfferedTableWord :
    decodeTableWord 32 0x01000000 = some .step ∧ decodeTableWord 8 1 = some (.write 0#10 0#4 0#32) := by decide

/-- A READ and a WRITE at the head of the queue. -/
theorem witness_EveryTransactionCompletes :
    (offered false 0x010#10 15#4 0#32 State.reset).queue =
      .transaction { isWrite := false, offset := 0x010#10, be := 15#4, data := 0#32 } :: [] ∧
    (offered true 0x014#10 15#4 6#32 State.reset).queue =
      .transaction { isWrite := true, offset := 0x014#10, be := 15#4, data := 6#32 } :: [] := ⟨rfl, rfl⟩

theorem witness_IdleBlockKeepsItsState : State.reset.queue = [] := rfl

/-- The first register, the last one, and a lane slot read off alignment. -/
theorem witness_ReadReturnsTheRegisterAndChangesNothing :
    Reg.id ≠ .reserved ∧ wordIndex 0x003#10 = wordIndex (regOffset .id) ∧
    Reg.freq 15 ≠ .reserved ∧ wordIndex 0x1BF#10 = wordIndex (regOffset (.freq 15)) ∧
    Reg.phase 15 ≠ .reserved ∧ wordIndex 0x13C#10 = wordIndex (regOffset (.phase 15)) := by decide

/-- The two ends of every range of words. -/
theorem witness_ReadOnlyAndReservedAccesses :
    (wordIndex 0x000#10).toNat = 0 ∧ (wordIndex 0x008#10).toNat = 2 ∧ (wordIndex 0x010#10).toNat = 4 ∧
    (wordIndex 0x02C#10).toNat = 11 ∧ (wordIndex 0x03C#10).toNat = 15 ∧ (wordIndex 0x0C0#10).toNat = 48 ∧
    (wordIndex 0x1C0#10).toNat = 112 ∧ (wordIndex 0x3FF#10).toNat = 255 := by decide

theorem witness_LowOffsetBitsAreIgnored :
    (writeAt 0x014#10 6#32).isWrite = (writeAt 0x017#10 6#32).isWrite ∧
    (writeAt 0x014#10 6#32).be = (writeAt 0x017#10 6#32).be ∧
    (writeAt 0x014#10 6#32).data = (writeAt 0x017#10 6#32).data ∧
    (writeAt 0x014#10 6#32).offset.extractLsb' 2 8 = (writeAt 0x017#10 6#32).offset.extractLsb' 2 8 := by decide

theorem witness_PartialByteEnables : 0#4 ≠ 15#4 ∧ 14#4 ≠ 15#4 := by decide

/-- The VARIANT codes at both ends of each clause. -/
theorem witness_CtrlWriteStoresItsFields :
    wordIndex 0x00C#10 = 3#8 ∧ wordIndex 0x00F#10 = 3#8 ∧ (0#32).toNat % 4 ≠ 3 ∧ (0xFFFFFFFE#32).toNat % 4 ≠ 3 ∧
    (3#32).toNat % 4 = 3 ∧ (0xFFFFFFFF#32).toNat % 4 = 3 := by decide

theorem witness_ChannelsWriteSaturates : wordIndex 0x014#10 = 5#8 ∧ State.reset.channels = 0#5 := by decide

/-- Each knob's word, and values at the two ends of each range. -/
theorem witness_KnobWritesClamp :
    wordIndex 0x01C#10 = 7#8 ∧ wordIndex 0x020#10 = 8#8 ∧ wordIndex 0x024#10 = 9#8 ∧
    InRange 0xC2580000#32 0x42580000#32 0x42580000#32 ∧ InRange 0xBF800000#32 0x3F800000#32 0xBF800000#32 ∧
    InRange 0x00000000#32 0x41200000#32 0x80000000#32 ∧ isNaN 0x7FC00000#32 = true := by
  simp only [InRange]; decide

theorem witness_InputWritesStoreEveryPattern :
    wordIndex 0x040#10 = wordIndex (regOffset (.pitchCv 0)) ∧ wordIndex 0x07F#10 = wordIndex (regOffset (.pitchCv 15)) ∧
    wordIndex 0x080#10 = wordIndex (regOffset (.shapeCv 0)) ∧ wordIndex 0x0BF#10 = wordIndex (regOffset (.shapeCv 15)) ∧
    wordIndex 0x018#10 = 6#8 ∧ (1 : Fin 16) ≠ 0 := by decide

/-- The two ends of every range of words, and a byte elsewhere. -/
theorem witness_RegisterWriteFrame :
    (wordIndex 0x00C#10).toNat = 3 ∧ (wordIndex 0x014#10).toNat = 5 ∧ (wordIndex 0x024#10).toNat = 9 ∧
    (wordIndex 0x040#10).toNat = 16 ∧ (wordIndex 0x0BC#10).toNat = 47 ∧ wordIndex 0x010#10 ≠ wordIndex 0x014#10 := by
  decide

theorem witness_RegisterWritesAreIdempotent : wordIndex 0x024#10 ≠ cmdIndex ∧ wordIndex 0x02C#10 ≠ cmdIndex := by decide

theorem witness_CmdWriteExecutesOrSetsBadCmd :
    wordIndex 0x028#10 = cmdIndex ∧ 0x04000000#32 = encodeCommand .clearStatus ∧
    (∀ c : Command, 0x05000000#32 ≠ encodeCommand c) ∧ Command.step ≠ .clearStatus ∧ Command.step ≠ .fullReset := by
  refine ⟨by decide, by decide, fun c => ?_, by decide, by decide⟩
  cases c <;> decide

theorem witness_FullResetIsHardwareReset :
    ({ State.reset with queue := [.hardReset (some (commandTransaction 0x01000000#32))] } : State).queue =
      .hardReset (some (commandTransaction 0x01000000#32)) :: [] := rfl

theorem witness_HardwareResetAbandonsTheTransaction :
    (phased .moogInvSaw one 0x3F333333#32).freeCount = State.reset.freeCount := rfl

/-- Words at the two ends of the registers LANE_RESET keeps, and of the SHAPE block. -/
theorem witness_ResetValues :
    (wordIndex 0x000#10).toNat < 48 ∧ (wordIndex 0x0BC#10).toNat < 48 ∧ (wordIndex 0x140#10).toNat = 80 ∧
    (wordIndex 0x17C#10).toNat = 95 := by decide

/-- A last active lane and a first inactive one. -/
theorem witness_StepRunsTheStagesOnEveryActiveLane :
    max 1 ({ State.reset with channels := 6#5 } : State).channels.toNat ≤ (6 : Fin 16).val ∧
    (5 : Fin 16).val < max 1 ({ State.reset with channels := 6#5 } : State).channels.toNat ∧
    (6 : Fin 32) ≠ ({ State.reset with channels := 6#5 } : State).lanes[5].pos := by decide

/-- Every lane of `phased`, with its pending correction. -/
theorem phased_lane (v : Variant) (dt phase : Word) (i : Fin 16) : (phased v dt phase).lanes[i] =
    { Lane.reset with phase := phase, pos := 31, dl := Lane.reset.dl.set 7 0xBF800000#32 } := by simp [phased]

/-- A sound state that is not the reset state. -/
theorem sound_phased : Sound hw (phased .moogInvSaw one 0x3F7FFFFF#32) where
  lanes i := by
    rw [phased_lane]
    exact ⟨by unfold PhaseOk; decide, by unfold ShapeOk; decide, by unfold FreqOk; decide, by decide⟩
  channels := by decide
  outChannels := by decide
  activeGroups := by decide
  freqKnob := by unfold InRange; decide
  fineKnob := by unfold InRange; decide
  shapeKnob := by unfold InRange; decide

theorem witness_StepReportsTheDispatch :
    Sound hw (phased .moogInvSaw one 0x3F7FFFFF#32) ∧ (0 : Fin 16).val < max 1 State.reset.channels.toNat ∧
    max 1 State.reset.channels.toNat ≤ (1 : Fin 16).val := ⟨sound_phased, by decide, by decide⟩

/-- Two blocks that differ in lane 1 and its inputs and agree for lane 0. -/
theorem witness_LanesAreIndependent :
    let s : State := { State.reset with channels := 2#5 }
    let s' : State :=
      { s with pitchCv := s.pitchCv.set 1 one, lanes := s.lanes.set 1 { Lane.reset with phase := 0x3F000000#32 } }
    s.variant = s'.variant ∧ s.lfoEn = s'.lfoEn ∧ s.detuneEn = s'.detuneEn ∧ s.channels = s'.channels ∧
    s.sampleInterval = s'.sampleInterval ∧ s.freqKnob = s'.freqKnob ∧ s.fineKnob = s'.fineKnob ∧
    s.shapeKnob = s'.shapeKnob ∧ s.freeCount = s'.freeCount ∧ s.pitchCv[0] = s'.pitchCv[0] ∧
    s.shapeCv[0] = s'.shapeCv[0] ∧ s.lanes[0] = s'.lanes[0] ∧ s.lanes[1].phase ≠ s'.lanes[1].phase := by decide

theorem witness_GroupWidthIsNotSemantic : (phased .moogInvSaw one 0x3F333333#32).detuneEn = false := rfl

theorem witness_PitchOfTheModes : (hw.lfoSupported && ({ State.reset with lfoEn := true } : State).lfoEn) = true := rfl

/-- The argument of each clause at its boundary. -/
theorem witness_TaylorExp2Corners :
    hw.exp2Mode = .taylor5 ∧ isNaN 0x7FC00000#32 = true ∧ fle 0x43000000#32 0x43000000#32 = true ∧
    fle 0xC3160000#32 0xC3160000#32 = true ∧ flt 0xC3160000#32 0xC315FFFF#32 = true ∧
    flt 0xC3160000#32 0x7F800000#32 = true := by decide

/-- Finite arguments at both ends, and values whose rest below the point is zero, is not, and is not exact. -/
theorem witness_TaylorExp2IsTheHornerPolynomial :
    hw.exp2Mode = .taylor5 ∧ isFinite 0x7F7FFFFF#32 = true ∧ isFinite 0xB089705F#32 = true ∧
    isNaN 0x7FC00000#32 = true ∧ fle 0x43000000#32 0x43000000#32 = true ∧ value one - ⌊value one⌋ = 0 ∧
    value 0x3F000000#32 - ⌊value 0x3F000000#32⌋ ≠ 0 ∧ 0 ≤ value one ∧ value one ≠ 0 := by
  have h : value 0x3F000000#32 = 1 / 2 := by
    have h1 : signedSignificand 0x3F000000#32 = 8388608 := by decide
    have h2 : ulpExponent 0x3F000000#32 = -24 := by decide
    rw [value, h1, h2]; norm_num
  rw [value_one, h]
  refine ⟨rfl, by decide, by decide, by decide, by decide, ?_⟩
  norm_num

theorem witness_ExactExp2IsCorrectlyRounded :
    ({ params with exp2Mode := .exact } : Params).exp2Mode = .exact ∧ isFinite 0x7F7FFFFF#32 = true ∧
    isFinite 0xC3160000#32 = true ∧ isNaN 0x7FC00000#32 = true ∧ fle 0xC3160000#32 0x7F7FFFFF#32 = true := by decide

theorem witness_ShapeOfTheInputs :
    (0 : Fin 16).val < activeCount State.reset ∧ (15 : Fin 16).val < activeCount { State.reset with channels := 16#5 } ∧
    isNaN 0x7FC00000#32 = true := by decide

theorem witness_RepeatedStepKeepsTheShape :
    (0 : Fin 16).val < activeCount State.reset ∧ ShapeOk 0x3C23D70B#32 ∧ ShapeOk 0x3F7D70A3#32 := by
  unfold ShapeOk; decide

/-- The product of each clause at its boundary. -/
theorem witness_IncrementIsClamped :
    isNaN (fmul 0x7F800000#32 0#32) = true ∧ fle (fmul one 0x358637BD#32) 0x358637BD#32 = true ∧
    flt 0x3EB33333#32 (fmul one 0x3EB33334#32) = true ∧
    InRange 0x358637BD#32 0x3EB33333#32 (fmul one 0x3EB33333#32) ∧
    InRange 0x358637BD#32 0x3EB33333#32 (fmul one 0x358637BD#32) := by
  unfold InRange; decide +kernel

/-- The phases at both ends, a state of such lanes, and a step from it. -/
theorem witness_PhaseStaysBelowOne :
    PhaseOk 0#32 ∧ PhaseOk 0x3F7FFFFF#32 ∧
    (∀ i : Fin 16, PhaseOk (offered true 0x028#10 15#4 0x01000000#32 (phased .moogInvSaw one 0x3F7FFFFF#32)).lanes[i].phase) ∧
    ∃ t, step (offered true 0x028#10 15#4 0x01000000#32 (phased .moogInvSaw one 0x3F7FFFFF#32)) = .next t :=
  ⟨by unfold PhaseOk; decide, by unfold PhaseOk; decide,
    fun i => by simp [offered, phased, PhaseOk], _, rfl⟩

theorem witness_EveryActivePhaseChanges :
    PhaseOk 0x3F7FFFFF#32 ∧ PhaseOk (phased .moogInvSaw one 0x3F7FFFFF#32).lanes[0].phase ∧
    (0 : Fin 16).val < activeCount (phased .moogInvSaw one 0x3F7FFFFF#32) := by
  unfold PhaseOk; decide

/-- The two ends of the increment's range, with a sum that is exactly 1.0 (rule R130's corner case) and one below. -/
theorem witness_WrapSubtractsOneExactly :
    PhaseOk 0x3F266666#32 ∧ PhaseOk 0#32 ∧ 0x358637BD ≤ (0x358637BD#32).toNat ∧
    (0x3EB33333#32).toNat ≤ 0x3EB33333 ∧ 1 ≤ value (fadd 0x3F266666#32 0x3EB33333#32) ∧
    value (fadd 0#32 0x358637BD#32) < 1 := by
  have h1 : fadd 0x3F266666#32 0x3EB33333#32 = one := by decide +kernel
  have h2 : fadd 0#32 0x358637BD#32 = 0x358637BD#32 := by decide +kernel
  have h3 : signedSignificand 0x358637BD#32 = 8796093 := by decide
  have h4 : ulpExponent 0x358637BD#32 = -43 := by decide
  rw [h1, h2, value_one, value, h3, h4]
  refine ⟨by unfold PhaseOk; decide, by unfold PhaseOk; decide, by decide, by decide, ?_⟩
  norm_num

theorem witness_NaiveSampleIsBounded :
    params.Legal ∧ hw.Legal ∧ PhaseOk 0#32 ∧ PhaseOk 0x3F7FFFFF#32 ∧ ShapeOk 0x3C23D70B#32 ∧ ShapeOk 0x3F7D70A3#32 :=
  ⟨params_legal, hw_legal, by unfold PhaseOk; decide, by unfold PhaseOk; decide, by unfold ShapeOk; decide,
    by unfold ShapeOk; decide⟩

theorem witness_NaiveSampleFollowsTheFormulas :
    PhaseOk 0#32 ∧ PhaseOk 0x3F7FFFFF#32 ∧ ShapeOk 0x3C23D70B#32 ∧ ShapeOk 0x3F7D70A3#32 := by
  unfold PhaseOk ShapeOk; decide

theorem witness_NaiveSampleAtPhaseZero : hw.Legal ∧ ShapeOk 0x3C23D70B#32 ∧ ShapeOk 0x3F7D70A3#32 :=
  ⟨hw_legal, by unfold ShapeOk; decide, by unfold ShapeOk; decide⟩

theorem witness_LookupAtTablePoints :
    params.Legal ∧ 0 < 512 ∧ isFinite (fsub (params.rom 1) (params.rom 0)) = true ∧ params.rom 0 ≠ 0x80000000#32 ∧
    511 < 512 ∧ isFinite (fsub (params.rom 512) (params.rom 511)) = true ∧ params.rom 511 ≠ 0x80000000#32 ∧
    fle 0x42000000#32 0x42000000#32 = true := ⟨params_legal, by decide +kernel⟩

/-- Both ends of the span. -/
theorem witness_LookupInterpolatesBetweenTablePoints :
    fle 0#32 0#32 = true ∧ flt 0#32 0x42000000#32 = true ∧ fle 0#32 0x41FFFFFF#32 = true ∧
    flt 0x41FFFFFF#32 0x42000000#32 = true := by decide

theorem witness_InsertAddsEveryCorrection :
    0 < 32 ∧ 31 < 32 ∧ isNaN one = false ∧ isNaN 0x7FC00000#32 = true ∧ params.Legal :=
  ⟨by decide, by decide, by decide, by decide, params_legal⟩

theorem witness_InsertWithoutJumpChangesNothing :
    params.Legal ∧ TableBounded params ∧ (0#32).toNat ≤ 0x3F800000 ∧ (one).toNat ≤ 0x3F800000 ∧
    ∀ k : Fin 32, Lane.reset.dl[k] ≠ 0x80000000#32 ∧ isNaN Lane.reset.dl[k] = false :=
  ⟨params_legal, params_tableBounded, by decide, by decide, fun k => by simp [Lane.reset]; decide⟩

theorem witness_ProcessTakesAndClearsTheDueEntry :
    (0 : Fin 16).val < activeCount State.reset ∧ (0 : Fin 32) ≠ Lane.reset.pos + 31 := by decide

/-- A legal and bounded table, lanes with a correction pending in a range of sizes, and a STEP from them. -/
theorem witness_DelayLineStaysClean :
    params.Legal ∧ TableBounded params ∧
    (∀ i : Fin 16,
      let s := offered true 0x028#10 15#4 0x01000000#32 (phased .moogInvSaw one 0x3F7FFFFF#32)
      PhaseOk s.lanes[i].phase ∧ CorrectionsBounded s.lanes[i] ∧ s.lanes[i].dl[7] = 0xBF800000#32 ∧
        ∀ k : Fin 32, s.lanes[i].dl[k] ≠ 0x80000000#32) ∧
    ∃ t, step (offered true 0x028#10 15#4 0x01000000#32 (phased .moogInvSaw one 0x3F7FFFFF#32)) = .next t :=
  ⟨params_legal, params_tableBounded, fun i => by
    dsimp only [offered]
    rw [phased_lane]
    exact ⟨by unfold PhaseOk; decide, by unfold CorrectionsBounded; decide, by decide, by decide⟩, _, rfl⟩

/-- The premise on the hardware's OPEN table is met by an admissible choice of it, the ROM S1: with that choice for
`freeRom` the hardware's table is S1, which the bound holds of. -/
theorem witness_DelayLineStaysClean_hw :
    hw.rom = legalRom freeRom ∧ (∀ k, k ≤ 512 → legalRom romS1 k = romS1 k) ∧
    TableBounded { hw with rom := legalRom romS1 } := by
  have h : ∀ k, k ≤ 512 → legalRom romS1 k = romS1 k := fun k hk =>
    legalRom_eq params_legal.rom_first params_legal.rom_last (params_legal.rom_finite k hk)
  refine ⟨rfl, h, fun k hk => ?_⟩
  change magnitude (legalRom romS1 k) < _
  rw [h k hk]
  exact params_tableBounded k hk

/-- The first step of a drain and the last one. -/
theorem witness_DelayLineDrainsOneEntryAStep :
    (0 : Fin 16).val < activeCount State.reset ∧ 0 < 32 ∧ 31 < 32 ∧
    (advance State.reset.lanes[(0 : Fin 16)].phase
      (increment (laneFreq hw State.reset 0) State.reset.sampleInterval)).wrapped = false ∧
    (∀ k : Nat, k < 32 → Lane.reset.dl[Lane.reset.pos - Fin.ofNat 32 (k + 1)] = 0#32) :=
  ⟨by decide, by decide, by decide, by decide +kernel, fun k _ => by simp [Lane.reset]⟩

/-- Program P7 step 4: phase 0.75 and an increment of exactly 0.25. -/
theorem witness_ExactWrapOutputsThePreWrapValue :
    hw.Legal ∧ (inputs .moogInvSaw 0x3A7A7ED0#32 0#32).variant = .moogInvSaw ∧
    (advance 0x3F400000#32 (increment (laneFreq hw (inputs .moogInvSaw 0x3A7A7ED0#32 0#32) 0) 0x3A7A7ED0#32)).wrapped =
      true ∧
    (advance 0x3F400000#32 (increment (laneFreq hw (inputs .moogInvSaw 0x3A7A7ED0#32 0#32) 0) 0x3A7A7ED0#32)).phase =
      0#32 ∧
    ({ Lane.reset with phase := 0x3F400000#32 } : Lane).dl[({ Lane.reset with phase := 0x3F400000#32 } : Lane).pos] =
      0#32 := ⟨hw_legal, rfl, by decide +kernel⟩

/-- Steps that set each error bit, and one that clears both. -/
theorem witness_ErrorBitsAreSticky :
    (State.reset.badCmd = false ∧ (after (step (offered true 0x028#10 15#4 0x05000000#32 State.reset))).badCmd = true) ∧
    (State.reset.badAcc = false ∧ (after (step (offered true 0x030#10 15#4 1#32 State.reset))).badAcc = true) ∧
    (after (step (offered true 0x028#10 15#4 0x04000000#32 { State.reset with badCmd := true }))).badCmd = false ∧
    (after (step (offered true 0x028#10 15#4 0x03000000#32 { State.reset with badAcc := true }))).badAcc = false := by
  decide

/-- A step that changes a lane and the dispatch report. -/
theorem witness_OnlyCommandsChangeLaneState :
    ∃ t, step (offered true 0x028#10 15#4 0x01000000#32 State.reset) = .next t ∧ t.lanes ≠ State.reset.lanes ∧
      t.outChannels ≠ State.reset.outChannels :=
  ⟨_, rfl, fun h => absurd (congrArg (fun v : Vector Lane 16 => v[0].pos) h) (by decide +kernel), by decide +kernel⟩

theorem witness_StepKeepsTheInvariants :
    Sound hw (phased .moogInvSaw one 0x3F7FFFFF#32) ∧
    ∃ t, step (phased .moogInvSaw one 0x3F7FFFFF#32) = .next t := ⟨sound_phased, _, rfl⟩

/-- Bus addresses on both sides of BASE, and one a whole window away. -/
theorem test_offset_of_address :
    offsetOfAddress 0x1000 0x1014 = 0x014#10 ∧ offsetOfAddress 0x1000 0x1414 = 0x014#10 ∧
    offsetOfAddress 0x1000 0x0FFC = 0x3FC#10 := by decide

end Sys2Proof.Tests
end

section
/-! PROOFS. The host's registers: at which word each stands, what a full-width write of one leaves behind, what a read
of one returns at reset and after a reset of the lanes, and the statements about them (spec/10_state.md). -/

namespace Sys2Proof.Proofs.Registers

open Sys2Proof Sys2Proof.Machine Sys2Proof.Config Sys2Proof.Safety Sys2Proof.Laws

/-! ### The word of each register (rule R49) -/

/-- The word index of a register: `regOffset` counted in words (`wordIndex_regOffset`). -/
def regIndex : Reg → Nat
  | .id => 0
  | .params => 1
  | .config => 2
  | .ctrl => 3
  | .status => 4
  | .channels => 5
  | .sampleInterval => 6
  | .freqKnob => 7
  | .fineKnob => 8
  | .shapeKnob => 9
  | .cmd => 10
  | .pitchCv i => 16 + i
  | .shapeCv i => 32 + i
  | .out i => 48 + i
  | .phase i => 64 + i
  | .shape i => 80 + i
  | .freq i => 96 + i
  | .reserved => 11

theorem wordIndex_ofNat (n : Nat) : (wordIndex (BitVec.ofNat 10 n)).toNat = n / 4 % 256 := by
  simp only [wordIndex, BitVec.extractLsb'_toNat, BitVec.toNat_ofNat, Nat.shiftRight_eq_div_pow]
  omega

@[simp] theorem wordIndex_regOffset (r : Reg) : (wordIndex (regOffset r)).toNat = regIndex r := by
  cases r with
  | pitchCv i | shapeCv i | out i | phase i | shape i | freq i =>
    simp only [regOffset, regIndex, wordIndex_ofNat]; omega
  | _ => rfl

/-- With sixteen channels every lane slot exists (rule R72). -/
@[simp] theorem laneSlot_sixteen (reg : Fin 16 → Reg) (i : Fin 16) : laneSlot 16 reg i = reg i := if_pos i.isLt

/-- A word with a register holds that register's index. -/
theorem regIndex_regAt {off : BitVec 10} (h : regAt 16 off ≠ .reserved) :
    regIndex (regAt 16 off) = (wordIndex off).toNat := by
  revert h
  unfold regAt
  generalize (wordIndex off).toNat = w
  simp only [laneSlot_sixteen]
  split
  case h_1 => split <;> simp [regIndex]
  case h_8 => simp
  all_goals intro _; simp only [regIndex, Fin.val_ofNat]; omega

/-- The word of a register's index holds that register. -/
theorem regAt_of_wordIndex {r : Reg} {off : BitVec 10} (hr : r ≠ .reserved)
    (h : (wordIndex off).toNat = regIndex r) : regAt 16 off = r := by
  unfold regAt
  rw [h]
  cases r with
  | pitchCv i | shapeCv i | out i | phase i | shape i | freq i =>
    simp [regIndex, Nat.add_div_of_dvd_right, Nat.div_eq_of_lt i.isLt, Fin.ext_iff, Nat.add_mod,
      Nat.mod_eq_of_lt i.isLt]
  | reserved => exact absurd rfl hr
  | _ => rfl

/-! ### Reads and full-width writes (rules R230, R231) -/

/-- A READ of a word returns the register whose index it is. -/
theorem readWindow_of_wordIndex {r : Reg} {off : BitVec 10} (s : State) (hr : r ≠ .reserved)
    (h : (wordIndex off).toNat = regIndex r) : readWindow hw s off = readReg hw s r :=
  congrArg (readReg hw s) (regAt_of_wordIndex hr h)

/-- No register holds what the bus last reported. -/
@[simp] theorem readReg_complete (p : Params) (b : BusResponse) (s : State) (r : Reg) :
    readReg p (complete b s) r = readReg p s r := by
  cases r <;> rfl

@[simp] theorem readWindow_complete (p : Params) (b : BusResponse) (s : State) (off : BitVec 10) :
    readWindow p (complete b s) off = readWindow p s off := readReg_complete ..

theorem ne_reserved_of_storesWrites {r : Reg} (hs : storesWrites r = true) : r ≠ .reserved := by
  rintro rfl; cases hs

/-- A full-width write at the word of a storing register writes that register and completes. -/
theorem exec_write_of_wordIndex {r : Reg} {off : BitVec 10} (data : Word) (s : State) (hs : storesWrites r = true)
    (h : (wordIndex off).toNat = regIndex r) :
    exec (.write off 15#4 data) s = .next (complete .writeDone (writeReg hw data s r)) := by
  have hreg : regAt hw.maxChannels off = r := regAt_of_wordIndex (ne_reserved_of_storesWrites hs) h
  have hcmd : r ≠ .cmd := by rintro rfl; cases hs
  rw [exec_eq_next, buildExec]
  rcases performWrite_cases hw off 15#4 data s with ⟨hbe, -⟩ | ⟨-, hc, -⟩ | ⟨-, -, hwrite⟩
  · exact absurd rfl hbe
  · exact absurd (hreg.symm.trans hc) hcmd
  · rw [hwrite, hreg]

/-- What a READ at the same word returns after the write. -/
theorem readWindow_writeReg_same {r : Reg} {off : BitVec 10} (data : Word) (s : State) (hs : storesWrites r = true)
    (h : (wordIndex off).toNat = regIndex r) :
    readWindow hw (complete .writeDone (writeReg hw data s r)) off = readReg hw (writeReg hw data s r) r := by
  rw [readWindow_complete, readWindow_of_wordIndex _ (ne_reserved_of_storesWrites hs) h]

/-! ### The slots of the reset state (rule R68) -/

theorem reset_lane (i : Fin 16) : State.reset.lanes[i] = Lane.reset := by simp [State.reset]

theorem reset_pitchCv (i : Fin 16) : State.reset.pitchCv[i] = 0#32 := by simp [State.reset]

theorem reset_shapeCv (i : Fin 16) : State.reset.shapeCv[i] = 0#32 := by simp [State.reset]

/-! ### CHANNELS (rules R55, R208, R209) -/

/-- The saturated count fits the field. -/
theorem setWidth_channelsStored (data : Word) :
    (channelsStored hw data).setWidth 32 = BitVec.ofNat 32 (min data.toNat 16) := by
  apply BitVec.eq_of_toNat_eq
  simp only [channelsStored, show hw.maxChannels = 16 from rfl, BitVec.toNat_setWidth, BitVec.toNat_ofNat]
  omega

theorem exec_step (s : State) : exec .step s = .next (complete .writeDone (stepBlock hw s)) := exec_eq_next _ _

/-- With CHANNELS = 0 one lane is active. -/
theorem activeCount_of_channels_eq_zero {s : State} (h : s.channels = 0#5) : activeCount s = 1 := by
  simp [activeCount, h]

/-- Settles O18: the write of word 5, the reset value, and the one active lane of CHANNELS = 0. -/
theorem channelsWriteSaturates : Obligations.ChannelsWriteSaturates := by
  refine ⟨fun off data s h => ?_, rfl, fun s h => ⟨_, exec_step s, ?_, fun i hi => ?_⟩⟩
  · have hword : (wordIndex off).toNat = regIndex .channels := by rw [h]; rfl
    refine ⟨_, exec_write_of_wordIndex data s rfl hword, rfl, ?_⟩
    rw [readWindow_writeReg_same data s rfl hword]
    exact setWidth_channelsStored data
  · have hlane : (stepLanes hw s)[(0 : Fin 16)] = stepLane hw s 0 s.lanes[(0 : Fin 16)] := by
      rw [stepLanes_getElem, activeCount_of_channels_eq_zero h]; rfl
    exact (congrArg Lane.pos hlane).trans (stepLane_pos ..)
  · have hinactive : ¬ i.val < activeCount s := by
      rw [activeCount_of_channels_eq_zero h]; omega
    exact (stepLanes_getElem hw s i).trans (if_neg hinactive)

/-! ### The knobs (rules R12, R57–R59) -/

theorem fle_iff (a b : Word) :
    fle a b = true ↔ isNaN a = false ∧ isNaN b = false ∧ orderKey a ≤ orderKey b := by
  simp [fle, and_assoc]

theorem fle_refl {a : Word} (h : isNaN a = false) : fle a a = true := (fle_iff a a).2 ⟨h, h, le_rfl⟩

/-- Away from NaN the order is total. -/
theorem fle_of_not_flt {a b : Word} (ha : isNaN a = false) (hb : isNaN b = false) (h : flt a b = false) :
    fle b a = true := by
  rw [fle_iff]
  exact ⟨hb, ha, by simpa [flt, ha, hb] using h⟩

theorem not_flt_of_fle {a b : Word} (h : fle b a = true) : flt a b = false := by
  obtain ⟨-, -, hkey⟩ := (fle_iff b a).1 h
  simp [flt, not_lt.2 hkey]

/-- A clamp lands in its range, whatever the operand. -/
theorem inRange_fclamp {lo hi : Word} (h : fle lo hi = true) (x : Word) : InRange lo hi (fclamp x lo hi) := by
  obtain ⟨hlo, hhi, -⟩ := (fle_iff lo hi).1 h
  rcases fclamp_cases x lo hi with hx | hx | ⟨hx, hnan, hbelow, habove⟩
  · rw [hx]; exact ⟨fle_refl hlo, h⟩
  · rw [hx]; exact ⟨h, fle_refl hhi⟩
  · rw [hx]; exact ⟨fle_of_not_flt hnan hlo hbelow, fle_of_not_flt hhi hnan habove⟩

/-- A clamp keeps what is in its range. -/
theorem fclamp_of_inRange {lo hi x : Word} (h : InRange lo hi x) : fclamp x lo hi = x := by
  obtain ⟨hlo, hhi⟩ := h
  obtain ⟨-, hnan, -⟩ := (fle_iff lo x).1 hlo
  simp [fclamp, hnan, not_flt_of_fle hlo, not_flt_of_fle hhi]

/-- The ranges of FREQ_KNOB, FINE_KNOB and SHAPE_KNOB. -/
def knobBounds : List (Word × Word) :=
  [(0xC2580000#32, 0x42580000#32), (0xBF800000#32, 0x3F800000#32), (0x00000000#32, 0x41200000#32)]

/-- Each knob's range is ordered, and the infinities clamp to its ends. -/
theorem knobBounds_ends : ∀ bounds ∈ knobBounds, fle bounds.1 bounds.2 = true ∧
    fclamp 0xFF800000#32 bounds.1 bounds.2 = bounds.1 ∧ fclamp 0x7F800000#32 bounds.1 bounds.2 = bounds.2 := by
  simp only [knobBounds, List.forall_mem_cons, List.not_mem_nil, false_implies, implies_true, and_true]
  exact ⟨by decide, by decide, by decide⟩

/-- Settles O19: the writes of words 7, 8 and 9, their read-back, the clamp itself and the reset values. -/
theorem knobWritesClamp : Obligations.KnobWritesClamp := by
  refine ⟨fun off data s h => ?_, fun off data s h => ?_, fun off data s h => ?_, fun s => ⟨?_, ?_, ?_⟩,
    fun bounds hb data => ?_, by decide, rfl, rfl, rfl⟩
  · exact exec_write_of_wordIndex (r := .freqKnob) data s rfl (by rw [h]; rfl)
  · exact exec_write_of_wordIndex (r := .fineKnob) data s rfl (by rw [h]; rfl)
  · exact exec_write_of_wordIndex (r := .shapeKnob) data s rfl (by rw [h]; rfl)
  · exact readWindow_of_wordIndex (r := .freqKnob) s (by simp) rfl
  · exact readWindow_of_wordIndex (r := .fineKnob) s (by simp) rfl
  · exact readWindow_of_wordIndex (r := .shapeKnob) s (by simp) rfl
  · obtain ⟨hle, hneg, hpos⟩ := knobBounds_ends bounds hb
    exact ⟨inRange_fclamp hle data, fclamp_of_inRange, fclamp_of_isNaN _ _, hneg, hpos⟩

/-! ### The control voltages and SAMPLE_INTERVAL (rules R56, R61, R62) -/

/-- Settles O20: one slot of PITCH_CV, one of SHAPE_CV, and SAMPLE_INTERVAL. -/
theorem inputWritesStoreEveryPattern : Obligations.InputWritesStoreEveryPattern := by
  refine ⟨fun i off data s h => ?_, fun i off data s h => ?_, fun off data s h => ?_, fun i => ?_, rfl⟩
  · have hslot : (wordIndex off).toNat = regIndex (.pitchCv i) := by rw [h, wordIndex_regOffset]
    have hset : (s.pitchCv.set i data)[i] = data := Vector.getElem_set_self i.isLt
    exact ⟨_, exec_write_of_wordIndex data s rfl hslot, (readWindow_writeReg_same data s rfl hslot).trans hset, hset,
      fun j hj => Vector.getElem_set_ne i.isLt j.isLt (Fin.val_ne_of_ne hj.symm), rfl⟩
  · have hslot : (wordIndex off).toNat = regIndex (.shapeCv i) := by rw [h, wordIndex_regOffset]
    have hset : (s.shapeCv.set i data)[i] = data := Vector.getElem_set_self i.isLt
    exact ⟨_, exec_write_of_wordIndex data s rfl hslot, (readWindow_writeReg_same data s rfl hslot).trans hset, hset,
      fun j hj => Vector.getElem_set_ne i.isLt j.isLt (Fin.val_ne_of_ne hj.symm), rfl⟩
  · have hword : (wordIndex off).toNat = regIndex .sampleInterval := by rw [h]; rfl
    exact ⟨_, exec_write_of_wordIndex data s rfl hword, readWindow_writeReg_same data s rfl hword, rfl⟩
  · exact ⟨reset_pitchCv i, reset_shapeCv i⟩

/-! ### Reset values (rules R68, R235) -/

/-- The word at each word index of the window at reset. -/
def resetWord (w : Nat) : Word :=
  if w = 0 then 0x4D4F5343#32 else if w = 1 then 0x10100410#32 else if w = 2 then 0x00000001#32
  else if 80 ≤ w ∧ w < 96 then 0x3C23D70B#32 else 0#32

theorem resetWord_eq_zero {w : Nat} (h : 3 ≤ w) (hshape : ¬ (80 ≤ w ∧ w < 96)) : resetWord w = 0#32 := by
  unfold resetWord
  rw [if_neg (by omega), if_neg (by omega), if_neg (by omega), if_neg hshape]

theorem resetWord_shape {w : Nat} (h : 80 ≤ w ∧ w < 96) : resetWord w = 0x3C23D70B#32 := by
  unfold resetWord
  rw [if_neg (by omega), if_neg (by omega), if_neg (by omega), if_pos h]

/-- Every register at reset reads as the word of its index. -/
theorem readReg_reset (r : Reg) : readReg hw State.reset r = resetWord (regIndex r) := by
  cases r with
  | shape i => rw [resetWord_shape (by simp only [regIndex]; omega), readReg, reset_lane]; rfl
  | pitchCv i | shapeCv i | out i | phase i | freq i =>
    rw [resetWord_eq_zero (by simp only [regIndex]; omega) (by simp only [regIndex]; omega)]
    simp only [readReg, reset_pitchCv, reset_shapeCv, reset_lane, Lane.reset]
  | _ => rfl

/-- A word without a register is none of those that read other than 0 at reset. -/
theorem resetWord_of_reserved {off : BitVec 10} (h : regAt 16 off = .reserved) :
    resetWord (wordIndex off).toNat = 0#32 := by
  have hne : ∀ r : Reg, r ≠ .reserved → (wordIndex off).toNat ≠ regIndex r := fun r hr hidx =>
    hr ((regAt_of_wordIndex hr hidx).symm.trans h)
  have hid : (wordIndex off).toNat ≠ 0 := hne .id (by simp)
  have hparams : (wordIndex off).toNat ≠ 1 := hne .params (by simp)
  have hconfig : (wordIndex off).toNat ≠ 2 := hne .config (by simp)
  refine resetWord_eq_zero (by omega) fun ⟨hlo, hhi⟩ => ?_
  exact hne (.shape ⟨(wordIndex off).toNat - 80, by omega⟩) (by simp) (by simp only [regIndex]; omega)

theorem readWindow_reset (off : BitVec 10) :
    readWindow hw State.reset off = resetWord (wordIndex off).toNat := by
  have hread : readWindow hw State.reset off = resetWord (regIndex (regAt 16 off)) := readReg_reset _
  by_cases h : regAt 16 off = .reserved
  · rw [hread, h, resetWord_of_reserved h]; rfl
  · rw [hread, regIndex_regAt h]

/-- A reset of the lanes shows in no register below the lane outputs. -/
theorem readReg_resetLanes {r : Reg} (p : Params) (s : State) (h : regIndex r < 48) :
    readReg p (resetLanes s) r = readReg p s r := by
  cases r with
  | out i | phase i | shape i | freq i => simp only [regIndex] at h; omega
  | _ => rfl

theorem readWindow_resetLanes {off : BitVec 10} (s : State) (h : (wordIndex off).toNat < 48) :
    readWindow hw (resetLanes s) off = readWindow hw s off := by
  refine readReg_resetLanes hw s ?_
  by_cases hr : regAt hw.maxChannels off = .reserved
  · rw [hr]; decide
  · exact (regIndex_regAt hr).trans_lt h

/-- Settles O29: the window and the hidden lane fields at reset, and what LANE_RESET resets and keeps. -/
theorem resetValues : Obligations.ResetValues := by
  refine ⟨readWindow_reset, fun i => ?_, fun s => ⟨_, exec_eq_next .laneReset s, rfl, fun off h => ?_⟩⟩
  · rw [reset_lane]
    exact ⟨rfl, rfl, fun k => by simp [Lane.reset]⟩
  · exact (readWindow_complete ..).trans (readWindow_resetLanes s h)

end Sys2Proof.Proofs.Registers
end

section
/-! PROOFS. The bus: the word an address selects, which words hold a register, what an access to a read-only or
reserved word does, and what a transaction leaves undecoded, with the statements about them (spec/20_memory.md). -/

namespace Sys2Proof.Proofs.BusWindow

open Sys2Proof Sys2Proof.Machine Sys2Proof.Config Sys2Proof.Safety Sys2Proof.Laws Sys2Proof.Proofs.Registers

/-! ### Reads (rules R71, R74, R76, R230) -/

theorem exec_read (off : BitVec 10) (be : BitVec 4) (s : State) :
    exec (.read off be) s = .next (complete (.readData (readWindow hw s off)) s) := exec_eq_next _ _

/-- Offsets of one word read alike (rule R75). -/
theorem readWindow_congr {p : Params} {a b : BitVec 10} (s : State) (h : wordIndex a = wordIndex b) :
    readWindow p s a = readWindow p s b := congrArg (readReg p s) (regAt_congr h)

/-- The words no register stands at: 11 to 15 and 112 up (rules R49, R67). -/
theorem regIndex_of_ne_reserved {r : Reg} (h : r ≠ .reserved) :
    regIndex r < 11 ∨ (16 ≤ regIndex r ∧ regIndex r < 112) := by
  cases r with
  | reserved => exact absurd rfl h
  | _ => simp only [regIndex]; omega

theorem regAt_eq_reserved {off : BitVec 10}
    (h : (11 ≤ (wordIndex off).toNat ∧ (wordIndex off).toNat < 16) ∨ 112 ≤ (wordIndex off).toNat) :
    regAt 16 off = .reserved := by
  by_contra hreg
  have hindex : regIndex (regAt 16 off) = (wordIndex off).toNat := regIndex_regAt hreg
  have hrange := regIndex_of_ne_reserved hreg
  omega

/-- A reserved word reads 0. -/
theorem readWindow_of_reserved {off : BitVec 10} (s : State) (h : regAt 16 off = .reserved) :
    readWindow hw s off = 0#32 := congrArg (readReg hw s) h

/-! ### Writes (rules R74–R76, R231) -/

theorem exec_write (off : BitVec 10) (be : BitVec 4) (data : Word) (s : State) :
    exec (.write off be data) s = .next (complete .writeDone (performWrite hw off be data s)) := exec_eq_next _ _

/-- Offsets of one word are written alike (rule R75). -/
theorem performWrite_congr {p : Params} {a b : BitVec 10} (be : BitVec 4) (data : Word) (s : State)
    (h : wordIndex a = wordIndex b) : performWrite p a be data s = performWrite p b be data s := by
  simp only [performWrite, regAt_congr h]

/-- A write with a byte enable clear reaches no register, and no command either (rule R76). -/
theorem performWrite_of_partial {be : BitVec 4} (p : Params) (off : BitVec 10) (data : Word) (s : State)
    (h : be ≠ 15#4) : performWrite p off be data s = setBadAcc s := if_neg h

/-- A full-width write at a register that stores nothing and is not CMD only records a bad access (rule R74). -/
theorem performWrite_of_not_stores {p : Params} {off : BitVec 10} (data : Word) (s : State)
    (hs : storesWrites (regAt p.maxChannels off) = false) (hc : regAt p.maxChannels off ≠ .cmd) :
    performWrite p off 15#4 data s = setBadAcc s := by
  rcases performWrite_cases p off 15#4 data s with ⟨hbe, -⟩ | ⟨-, hcmd, -⟩ | ⟨-, -, hwrite⟩
  · exact absurd rfl hbe
  · exact absurd hcmd hc
  · rw [hwrite, writeReg_of_not_stores p data s _ hs hc]

/-! ### Address decoding (rules R71, R72, R75) -/

/-- The distance from BASE, cut to ten bits, is the offset. -/
theorem offsetOfAddress_add (b n : Nat) : offsetOfAddress b (b + n) = BitVec.ofNat 10 n := by
  have hdist : ((b + n : Nat) : Int) - b = n := by omega
  rw [offsetOfAddress, hdist, BitVec.ofInt_natCast]

/-- The window repeats every 1024 bytes: no bit above the tenth is decoded. -/
theorem offsetOfAddress_add_window (b a k : Nat) : offsetOfAddress b (a + 1024 * k) = offsetOfAddress b a := by
  apply BitVec.eq_of_toNat_eq
  simp only [offsetOfAddress, BitVec.toNat_ofInt]
  omega

/-- A step on a bus read answers the word at the address. -/
theorem step_busRead (b a : Nat) (s : State) (rest : List HostEvent) :
    step { s with queue := .transaction (busRead b a) :: rest } =
      .next (complete (.readData (readWindow hw s (offsetOfAddress b a))) { s with queue := rest }) := rfl

/-- Slot `i` of a lane array stands at the array's offset plus `4 * i`, if the build has the lane (rule R72). -/
theorem regAt_regOffset_laneArray (m : Nat) (a : LaneArray) (i : Fin 16) :
    regAt m (regOffset (laneArrayReg a i)) = laneSlot m (laneArrayReg a) i := by
  unfold regAt
  rw [wordIndex_regOffset]
  cases a <;>
    simp [laneArrayReg, regIndex, Nat.add_div_of_dvd_right, Nat.div_eq_of_lt i.isLt, Fin.ofNat, Nat.add_mod,
      Nat.mod_eq_of_lt i.isLt]

/-- A transaction's instruction sees its offset through the word index alone (rule R75). -/
theorem exec_decodeTransaction_congr {a b : BitVec 10} (isWrite : Bool) (be : BitVec 4) (data : Word) (s : State)
    (h : wordIndex a = wordIndex b) :
    exec (decodeTransaction ⟨isWrite, a, be, data⟩) s = exec (decodeTransaction ⟨isWrite, b, be, data⟩) s := by
  have hwrite : exec (.write a be data) s = exec (.write b be data) s := by
    rw [exec_write, exec_write, performWrite_congr be data s h]
  have hread : exec (.read a be) s = exec (.read b be) s := by
    rw [exec_read, exec_read, readWindow_congr s h]
  cases isWrite with
  | false => exact hread
  | true =>
    simp only [decodeTransaction, if_true, h]
    split_ifs
    · cases decodeCommand data with
      | some c => rfl
      | none => exact hwrite
    · exact hwrite

/-! ### The statements -/

/-- Settles O12: the word of an address, the period of the window, and a bus read. -/
theorem addressSelectsTheWord : Obligations.AddressSelectsTheWord := by
  refine ⟨fun b n => ?_, offsetOfAddress_add_window, fun b n s => ⟨_, step_busRead b (b + n) s [], ?_⟩⟩
  · rw [offsetOfAddress_add, wordIndex_ofNat]
  · rw [complete_response, offsetOfAddress_add]

/-- Settles O14: the words whose writes are bad accesses, and the reads that answer 0. -/
theorem readOnlyAndReservedAccesses : Obligations.ReadOnlyAndReservedAccesses := by
  refine fun off be data s => ⟨fun hword => ?_, fun hword => ?_, _, exec_read off be s, rfl⟩
  · obtain ⟨hstores, hcmd⟩ := (regAt_not_stores_iff off).2 hword
    rw [exec_write, performWrite_of_not_stores data s hstores hcmd]; rfl
  · rw [exec_read, readWindow_of_reserved s (regAt_eq_reserved hword)]; rfl

/-- Settles O13: the six lane arrays, each by `regAt_regOffset_laneArray`. -/
theorem laneSlotsExistBelowMaxChannels : Obligations.LaneSlotsExistBelowMaxChannels :=
  ⟨fun m i => ⟨regAt_regOffset_laneArray m .pitchCv i, regAt_regOffset_laneArray m .shapeCv i,
    regAt_regOffset_laneArray m .out i, regAt_regOffset_laneArray m .phase i,
    regAt_regOffset_laneArray m .shape i, regAt_regOffset_laneArray m .freq i⟩, rfl⟩

/-- Settles O15: both steps run an instruction of the same word. -/
theorem lowOffsetBitsAreIgnored : Obligations.LowOffsetBitsAreIgnored := by
  rintro s ⟨isWrite, a, be, data⟩ ⟨_, b, _, _⟩ rest rfl rfl rfl hword
  exact exec_decodeTransaction_congr isWrite be data { s with queue := rest } hword

/-- Settles O16: a partial write at any offset, and a read at any byte enables. -/
theorem partialByteEnables : Obligations.PartialByteEnables := by
  refine fun off be data s => ⟨fun hbe => ?_, ?_⟩
  · rw [exec_write, performWrite_of_partial hw off data s hbe]; rfl
  · rw [exec_read, exec_read]

end Sys2Proof.Proofs.BusWindow
end

section
/-! PROOFS. Commands: the command decoder and the command words are inverse to each other, over
spec/30_encoding.md (O4). -/

namespace Sys2Proof.Proofs.Commands

open Sys2Proof Sys2Proof.Machine Sys2Proof.Laws

/-- A command's own word decodes to it (rule R107). -/
@[simp] theorem decodeCommand_encodeCommand (c : Command) : decodeCommand (encodeCommand c) = some c := by
  cases c <;> rfl

/-- The decoder takes a command's word and no other, all 32 bits compared (rule R106). -/
theorem decodeCommand_eq_some_iff (w : Word) (c : Command) : decodeCommand w = some c ↔ w = encodeCommand c where
  mp := decodeCommand_eq_some
  mpr h := h ▸ decodeCommand_encodeCommand c

/-- Settles O4: `decodeCommand_eq_some_iff`, and the five words by evaluation. -/
theorem commandDecoderTakesExactlyTheFiveWords : Obligations.CommandDecoderTakesExactlyTheFiveWords :=
  ⟨decodeCommand_eq_some_iff, rfl, rfl, rfl, rfl, rfl⟩

end Sys2Proof.Proofs.Commands
end

section
/-! PROOFS. The rounding error: how far RN32 moves a value, which values it keeps, the step from one binary32
magnitude to the next, and the integer `floorInt` answers (spec/00_scope.md section 4). -/

namespace Sys2Proof.Proofs.RoundingError

open Sys2Proof Sys2Proof.Machine Sys2Proof.Safety Sys2Proof.Laws

/-! ### What a rounded magnitude is worth -/

theorem nearestEven_le_add_half {y : ℚ} (hy : 0 ≤ y) : (nearestEven y : ℚ) ≤ y + 1 / 2 := by
  have hfloor : (⌊y⌋₊ : ℚ) ≤ y := Nat.floor_le hy
  unfold nearestEven
  split_ifs with h
  · have hfrac : 1 / 2 ≤ y - ⌊y⌋₊ := h.elim le_of_lt fun h => h.1.ge
    push_cast
    linarith
  · linarith

/-- The magnitude that counts `c` spacings of `2 ^ q` is worth `c * 2 ^ q`, also where the count carries into the
exponent field. -/
theorem magValue_of_count {q : ℤ} {c : ℕ} (hq : -149 ≤ q) (hc : c ≤ 2 ^ 24) (hnormal : q = -149 ∨ 2 ^ 23 ≤ c) :
    magValue ((q + 149).toNat * 2 ^ 23 + c) = c * 2 ^ q := by
  obtain ⟨n, hn⟩ := Int.eq_ofNat_of_zero_le (show 0 ≤ q + 149 by omega)
  obtain rfl : q = n - 149 := by omega
  rw [hn, Int.toNat_natCast, magValue]
  have hcase : (n = 0 ∧ c < 2 ^ 23) ∨ (2 ^ 23 ≤ c ∧ c < 2 ^ 24) ∨ c = 2 ^ 24 := by omega
  rcases hcase with ⟨rfl, hsub⟩ | ⟨hlo, hhi⟩ | rfl
  · rw [if_pos (by omega)]
    norm_num
  · have hexp : (n * 2 ^ 23 + c) / 2 ^ 23 = n + 1 := by omega
    have hsig : 2 ^ 23 + (n * 2 ^ 23 + c) % 2 ^ 23 = c := by omega
    rw [hexp, hsig, if_neg (by omega)]
    congr 2
    push_cast
    ring
  · have hexp : (n * 2 ^ 23 + 2 ^ 24) / 2 ^ 23 = n + 2 := by omega
    have hsig : 2 ^ 23 + (n * 2 ^ 23 + 2 ^ 24) % 2 ^ 23 = 2 ^ 23 := by omega
    have hpow : ((n + 2 : ℕ) : ℤ) - 150 = (n - 149) + 1 := by push_cast; ring
    rw [hexp, hsig, if_neg (by omega), hpow, zpow_add_one₀ (by norm_num)]
    push_cast
    ring

/-- A rounded value is its nearest count of spacings. -/
theorem magValue_roundRat {x : ℚ} (hx : 0 < x) (hlo : -150 ≤ Int.log 2 x) (hhi : Int.log 2 x ≤ 127) :
    magValue (roundRat x) = nearestEven (x / 2 ^ spacing x) * 2 ^ spacing x := by
  rw [roundRat_mid hx hhi hlo]
  refine magValue_of_count (le_max_right _ _) (nearestEven_le_two_pow x) ?_
  by_cases h : -126 ≤ Int.log 2 x
  · exact .inr (le_nearestEven_of_normal hx h)
  · exact .inl (max_eq_right (by omega))

/-- RN32 moves a value up by at most half a spacing. -/
theorem magValue_roundRat_le {x : ℚ} (hx : 0 < x) (hhi : Int.log 2 x ≤ 127) :
    magValue (roundRat x) ≤ x + 2 ^ spacing x / 2 := by
  have hpos : (0 : ℚ) < 2 ^ spacing x := by positivity
  by_cases hlo : -150 ≤ Int.log 2 x
  · have hround := nearestEven_le_add_half (y := x / 2 ^ spacing x) (by positivity)
    calc magValue (roundRat x) = nearestEven (x / 2 ^ spacing x) * 2 ^ spacing x := magValue_roundRat hx hlo hhi
      _ ≤ (x / 2 ^ spacing x + 1 / 2) * 2 ^ spacing x := by gcongr
      _ = x + 2 ^ spacing x / 2 := by field_simp
  · have hzero : roundRat x = 0 := by
      simp [roundRat, hx.ne', not_lt.2 hhi, not_le.1 hlo]
    have hvalue : magValue 0 = 0 := by simp [magValue]
    rw [hzero, hvalue]
    positivity

/-- Below 2.0 that is at most `2 ^ -24`. -/
theorem magValue_roundRat_le_of_lt_two {x : ℚ} (hx : 0 < x) (h2 : x < 2) :
    magValue (roundRat x) ≤ x + 2 ^ (-24 : ℤ) := by
  have hlog : Int.log 2 x < 1 := (Int.lt_zpow_iff_log_lt (by norm_num) hx).1 (by simpa using h2)
  have hspacing : spacing x ≤ -23 := max_le (by omega) (by norm_num)
  have hulp : (2 : ℚ) ^ spacing x ≤ 2 ^ (-23 : ℤ) := zpow_le_zpow_right₀ (by norm_num) hspacing
  have hround := magValue_roundRat_le hx (by omega)
  norm_num at hulp ⊢
  linarith

/-! ### The values RN32 keeps -/

theorem exists_magValue_eq_of_normal {n k : ℕ} (hk : k < 2 ^ 24) (hn : n ≤ 253) (hnormal : n = 0 ∨ 2 ^ 23 ≤ k) :
    ∃ m < infMagnitude, magValue m = k * 2 ^ (n - 149 : ℤ) :=
  ⟨(n - 149 + 149 : ℤ).toNat * 2 ^ 23 + k, by unfold infMagnitude; omega,
    magValue_of_count (by omega) hk.le (by omega)⟩

/-- Every integer of 24 bits, scaled within the exponent range, is a binary32 magnitude: double the integer until it
fills the significand or the exponent is the least one. -/
theorem exists_magValue_eq (n k : ℕ) (hk : k < 2 ^ 24) (hn : n ≤ 253) :
    ∃ m < infMagnitude, magValue m = k * 2 ^ (n - 149 : ℤ) := by
  induction n generalizing k with
  | zero => exact exists_magValue_eq_of_normal hk hn (.inl rfl)
  | succ n ih =>
    by_cases hfull : 2 ^ 23 ≤ k
    · exact exists_magValue_eq_of_normal hk hn (.inr hfull)
    · obtain ⟨m, hm, hvalue⟩ := ih (2 * k) (by omega) (by omega)
      refine ⟨m, hm, hvalue.trans ?_⟩
      have hpow : ((n + 1 : ℕ) : ℤ) - 149 = (n - 149) + 1 := by push_cast; ring
      rw [hpow, zpow_add_one₀ (by norm_num)]
      push_cast
      ring

/-- The next magnitude is worth one unit in the last place more. -/
theorem magValue_succ (m : ℕ) : magValue (m + 1) = magValue m + 2 ^ ((max (m / 2 ^ 23) 1 : ℕ) - 150 : ℤ) := by
  unfold magValue
  have hcase : (m + 1 < 2 ^ 23) ∨ m = 2 ^ 23 - 1 ∨
      (m / 2 ^ 23 ≠ 0 ∧ (m + 1) / 2 ^ 23 = m / 2 ^ 23 ∧ (m + 1) % 2 ^ 23 = m % 2 ^ 23 + 1) ∨
      (m / 2 ^ 23 ≠ 0 ∧ (m + 1) / 2 ^ 23 = m / 2 ^ 23 + 1 ∧ (m + 1) % 2 ^ 23 = 0 ∧ m % 2 ^ 23 = 2 ^ 23 - 1) := by
    omega
  rcases hcase with hsub | rfl | ⟨h0, hexp, hsig⟩ | ⟨h0, hexp, hsig, hsig'⟩
  · rw [Nat.div_eq_of_lt hsub, Nat.div_eq_of_lt (by omega : m < 2 ^ 23)]
    push_cast
    norm_num
    ring
  · norm_num
  · rw [hexp, hsig, if_neg h0, if_neg h0, max_eq_left (by omega)]
    push_cast
    ring
  · have hpow : ((m / 2 ^ 23 + 1 : ℕ) : ℤ) - 150 = ((m / 2 ^ 23 : ℕ) - 150 : ℤ) + 1 := by push_cast; ring
    rw [hexp, hsig, hsig', if_neg h0, if_neg (by omega), max_eq_left (by omega), hpow, zpow_add_one₀ (by norm_num)]
    push_cast
    ring

theorem ulpExponent_eq (w : Word) : ulpExponent w = (max (magnitude w / 2 ^ 23) 1 : ℕ) - 150 := by
  rw [ulpExponent, expField_eq]

/-! ### The encoding of a rounded value -/

/-- A rounding of a nonnegative value that does not overflow is worth its magnitude. -/
theorem value_roundQ {x : ℚ} (hx : 0 ≤ x) (h : roundRat x < infMagnitude) :
    value (roundQ false x) = magValue (roundRat x) := by
  rw [value_of_lt (by rwa [toNat_roundQ hx]), toNat_roundQ hx]

/-- `floorInt` is the floor of the value (rule R12). -/
theorem floorInt_eq_floor {w : Word} (h : isFinite w = true) : floorInt w = ⌊value w⌋ := by
  rw [floorInt, if_pos h, value]
  dsimp only
  generalize signedSignificand w = z
  generalize ulpExponent w = e
  split_ifs with he
  · obtain ⟨n, rfl⟩ := Int.eq_ofNat_of_zero_le he
    rw [Int.toNat_natCast, zpow_natCast]
    exact_mod_cast (Int.floor_intCast (R := ℚ) (z * 2 ^ n)).symm
  · obtain ⟨n, hn⟩ := Int.eq_ofNat_of_zero_le (show 0 ≤ -e by omega)
    obtain rfl : e = -(n : ℤ) := by omega
    rw [neg_neg, Int.toNat_natCast, zpow_neg, zpow_natCast, ← div_eq_mul_inv]
    exact_mod_cast (Rat.floor_intCast_div_natCast z (2 ^ n)).symm

end Sys2Proof.Proofs.RoundingError
end

section
/-! PROOFS. The phase accumulator: the increment's range, the sum of phase and increment, what ADVANCE makes of it
with and without a wrap, and the statements about it (spec/40_phase_accumulator.md). -/

namespace Sys2Proof.Proofs.PhaseAccumulator

open Sys2Proof Sys2Proof.Machine Sys2Proof.Config Sys2Proof.Safety Sys2Proof.Laws
open Sys2Proof.Proofs.Registers Sys2Proof.Proofs.RoundingError

/-! ### The increment (rule R130) -/

/-- Between positive encodings the order of the values is the order of the words. -/
theorem toNat_mem_of_inRange {lo hi w : Word} (hpos : 0 < lo.toNat) (hlo : lo.toNat < 2 ^ 31) (hhi : hi.toNat < 2 ^ 31)
    (h : InRange lo hi w) : lo.toNat ≤ w.toNat ∧ w.toNat ≤ hi.toNat := by
  obtain ⟨hl, hh⟩ := h
  obtain ⟨-, -, hl⟩ := (fle_iff lo w).1 hl
  obtain ⟨-, -, hh⟩ := (fle_iff w hi).1 hh
  rw [orderKey_of_lt hlo] at hl
  rw [orderKey_of_lt hhi] at hh
  have hsign : signBit w = false := by
    by_contra hneg
    rw [orderKey, if_pos (by simpa using hneg)] at hl
    omega
  have hword : orderKey w = w.toNat := by
    rw [orderKey, toNat_eq w, hsign]; simp
  omega

/-- The clamp's range, INC_MIN to INC_MAX, as words; every increment lies in it (`increment_ok`). -/
def IncrementOk (w : Word) : Prop := 0x358637BD ≤ w.toNat ∧ w.toNat ≤ 0x3EB33333

theorem increment_ok (freq dt : Word) : IncrementOk (increment freq dt) :=
  toNat_mem_of_inRange (lo := incMin) (hi := incMax) (by decide) (by decide) (by decide)
    (inRange_fclamp (by decide) (fmul freq dt))

/-! ### The operands and their values -/

theorem magValue_one : magValue 0x3F800000 = 1 := by norm_num [magValue]

theorem value_one : value 0x3F800000#32 = 1 := (value_of_lt (by decide)).trans magValue_one

/-- The largest phase is one unit in its last place below 1.0. -/
theorem magValue_maxPhase : magValue 0x3F7FFFFF = 1 - 2 ^ (-24 : ℤ) := by norm_num [magValue]

theorem magValue_incMax_lt : magValue 0x3EB33333 < 1 / 2 := by norm_num [magValue]

theorem two_zpow_lt_value_incMin : 2 ^ (-24 : ℤ) < value 0x358637BD#32 := by
  rw [value_of_lt (by decide)]
  norm_num [magValue]

section Advance

variable {phase inc : Word}

theorem phase_lt_inf (hphase : PhaseOk phase) : phase.toNat < infMagnitude := hphase.trans (by decide)

theorem inc_lt_inf (hinc : IncrementOk inc) : inc.toNat < infMagnitude := hinc.2.trans_lt (by decide)

theorem value_phase (hphase : PhaseOk phase) : value phase = magValue phase.toNat := value_of_lt (phase_lt_inf hphase)

theorem value_inc (hinc : IncrementOk inc) : value inc = magValue inc.toNat := value_of_lt (inc_lt_inf hinc)

theorem value_phase_nonneg (hphase : PhaseOk phase) : 0 ≤ value phase := by
  rw [value_phase hphase]; exact magValue_nonneg _

theorem value_phase_le (hphase : PhaseOk phase) : value phase ≤ 1 - 2 ^ (-24 : ℤ) := by
  rw [value_phase hphase, ← magValue_maxPhase]
  exact magValue_mono (Nat.le_of_lt_succ hphase) (by decide)

theorem value_incMin_le (hinc : IncrementOk inc) : value 0x358637BD#32 ≤ value inc := by
  rw [value_inc hinc, value_of_lt (by decide)]
  exact magValue_mono hinc.1 (inc_lt_inf hinc)

theorem value_inc_pos (hinc : IncrementOk inc) : 0 < value inc := by
  have hmin : (2 : ℚ) ^ (-24 : ℤ) < value inc := two_zpow_lt_value_incMin.trans_le (value_incMin_le hinc)
  exact lt_trans (by positivity) hmin

theorem value_inc_lt_half (hinc : IncrementOk inc) : value inc < 1 / 2 := by
  have hmax : magValue inc.toNat ≤ magValue 0x3EB33333 := magValue_mono hinc.2 (by decide)
  exact (value_inc hinc).trans_lt (hmax.trans_lt magValue_incMax_lt)

/-! ### The rounded sum -/

theorem fadd_eq_roundQ (hphase : PhaseOk phase) (hinc : IncrementOk inc) :
    fadd phase inc = roundQ false (value phase + value inc) := by
  rw [fadd_finite (isFinite_of_lt (phase_lt_inf hphase)) (isFinite_of_lt (inc_lt_inf hinc)),
    signBit_of_lt (hphase.trans (by decide))]
  rfl

theorem sum_pos (hphase : PhaseOk phase) (hinc : IncrementOk inc) : 0 < value phase + value inc :=
  add_pos_of_nonneg_of_pos (value_phase_nonneg hphase) (value_inc_pos hinc)

theorem sum_lt_three_halves (hphase : PhaseOk phase) (hinc : IncrementOk inc) :
    value phase + value inc < 3 / 2 := by
  have hulp : (0 : ℚ) < 2 ^ (-24 : ℤ) := by positivity
  linarith [value_phase_le hphase, value_inc_lt_half hinc]

theorem toNat_fadd (hphase : PhaseOk phase) (hinc : IncrementOk inc) :
    (fadd phase inc).toNat = roundRat (value phase + value inc) := by
  rw [fadd_eq_roundQ hphase hinc, toNat_roundQ (sum_pos hphase hinc).le]

/-- The rounded sum is below 2.0. -/
theorem toNat_fadd_lt (hphase : PhaseOk phase) (hinc : IncrementOk inc) : (fadd phase inc).toNat < 0x40000000 := by
  have hbound : magValue 0x3FC00000 = 3 / 2 := by norm_num [magValue]
  rw [toNat_fadd hphase hinc]
  calc roundRat (value phase + value inc) ≤ roundRat (magValue 0x3FC00000) :=
        roundRat_mono (sum_pos hphase hinc).le (hbound ▸ (sum_lt_three_halves hphase hinc).le)
    _ = 0x3FC00000 := roundRat_magValue (by decide)
    _ < 0x40000000 := by decide

theorem fadd_lt_inf (hphase : PhaseOk phase) (hinc : IncrementOk inc) : (fadd phase inc).toNat < infMagnitude :=
  (toNat_fadd_lt hphase hinc).trans (by decide)

theorem value_fadd (hphase : PhaseOk phase) (hinc : IncrementOk inc) :
    value (fadd phase inc) = magValue (fadd phase inc).toNat := value_of_lt (fadd_lt_inf hphase hinc)

/-- Rounding moves the sum up by at most half a unit in the last place above 1.0. -/
theorem value_fadd_le (hphase : PhaseOk phase) (hinc : IncrementOk inc) :
    value (fadd phase inc) ≤ value phase + value inc + 2 ^ (-24 : ℤ) := by
  rw [value_fadd hphase hinc, toNat_fadd hphase hinc]
  exact magValue_roundRat_le_of_lt_two (sum_pos hphase hinc)
    ((sum_lt_three_halves hphase hinc).trans (by norm_num))

theorem value_fadd_lt_add_one (hphase : PhaseOk phase) (hinc : IncrementOk inc) :
    value (fadd phase inc) < value phase + 1 := by
  have hround := value_fadd_le hphase hinc
  norm_num at hround
  linarith [value_inc_lt_half hinc]

theorem one_le_value_fadd_iff (hphase : PhaseOk phase) (hinc : IncrementOk inc) :
    1 ≤ value (fadd phase inc) ↔ 0x3F800000 ≤ (fadd phase inc).toNat := by
  rw [value_fadd hphase hinc, ← magValue_one]
  refine ⟨fun h => ?_, fun h => magValue_mono h (fadd_lt_inf hphase hinc)⟩
  by_contra hlt
  exact absurd (magValue_strictMono (not_le.1 hlt) (by decide)) h.not_gt

/-- The wrap flag is the rounded sum reaching 1.0 (rule R39). -/
theorem wrapFlag_fadd_iff (hphase : PhaseOk phase) (hinc : IncrementOk inc) :
    wrapFlag (fadd phase inc) = true ↔ 1 ≤ value (fadd phase inc) := by
  rw [one_le_value_fadd_iff hphase hinc, wrapFlag, fle_iff_of_le (by decide) (fadd_lt_inf hphase hinc).le]
  rfl

/-! ### The increment is not absorbed (rule R135) -/

/-- A unit in a phase's last place is smaller than INC_MIN. -/
theorem two_zpow_ulpExponent_lt (hphase : PhaseOk phase) : (2 : ℚ) ^ ulpExponent phase < value 0x358637BD#32 := by
  refine lt_of_le_of_lt (zpow_le_zpow_right₀ (by norm_num) ?_) two_zpow_lt_value_incMin
  have hlt : phase.toNat < 0x3F800000 := hphase
  rw [ulpExponent_eq, magnitude_of_lt (by omega)]
  omega

/-- The sum reaches the next encoding above the phase, so its rounding does too. -/
theorem phase_lt_fadd (hphase : PhaseOk phase) (hinc : IncrementOk inc) : phase.toNat < (fadd phase inc).toNat := by
  have hlt : phase.toNat < 0x3F800000 := hphase
  have hnext : magValue (phase.toNat + 1) ≤ value phase + value inc := by
    have hulp := (two_zpow_ulpExponent_lt hphase).trans_le (value_incMin_le hinc)
    rw [ulpExponent_eq, magnitude_of_lt (by omega)] at hulp
    rw [magValue_succ, value_phase hphase]
    linarith
  calc phase.toNat < phase.toNat + 1 := Nat.lt_succ_self _
    _ = roundRat (magValue (phase.toNat + 1)) := (roundRat_magValue (by unfold infMagnitude; omega)).symm
    _ ≤ roundRat (value phase + value inc) := roundRat_mono (magValue_nonneg _) hnext
    _ = (fadd phase inc).toNat := (toNat_fadd hphase hinc).symm

theorem fadd_ne_phase (hphase : PhaseOk phase) (hinc : IncrementOk inc) : fadd phase inc ≠ phase := fun h =>
  (phase_lt_fadd hphase hinc).ne' (congrArg BitVec.toNat h)

/-! ### The wrap (rule R133) -/

/-- The floor of a sum that wraps is 1.0. -/
theorem ffloor_fadd (hphase : PhaseOk phase) (hinc : IncrementOk inc) (hwrap : 1 ≤ value (fadd phase inc)) :
    ffloor (fadd phase inc) = 0x3F800000#32 := by
  have hfinite : isFinite (fadd phase inc) = true := isFinite_of_lt (fadd_lt_inf hphase hinc)
  have htwo : value (fadd phase inc) < 2 := by
    have hmag : magValue 0x40000000 = 2 := by norm_num [magValue]
    rw [value_fadd hphase hinc, ← hmag]
    exact magValue_strictMono (toNat_fadd_lt hphase hinc) (by decide)
  have hfloor : ⌊value (fadd phase inc)⌋ = 1 := Int.floor_eq_iff.2 ⟨by simpa using hwrap, by norm_num; exact htwo⟩
  rw [ffloor, if_pos hfinite, floorInt_eq_floor hfinite, hfloor]
  decide

theorem fsub_fadd_one_eq_roundQ (hphase : PhaseOk phase) (hinc : IncrementOk inc) :
    fsub (fadd phase inc) 0x3F800000#32 = roundQ false (value (fadd phase inc) - 1) := by
  have hsign : signBit (fadd phase inc) = false := signBit_of_lt ((fadd_lt_inf hphase hinc).trans (by decide))
  rw [fsub_finite (isFinite_of_lt (fadd_lt_inf hphase hinc)) (by decide), hsign, value_one]
  rfl

/-- What a sum in [1.0, 2.0) has above 1.0 counts the sum's units in the last place, so it is a binary32 value. -/
theorem exists_magValue_eq_overshoot (hphase : PhaseOk phase) (hinc : IncrementOk inc)
    (hwrap : 1 ≤ value (fadd phase inc)) : ∃ m < infMagnitude, magValue m = value (fadd phase inc) - 1 := by
  have hlo := (one_le_value_fadd_iff hphase hinc).1 hwrap
  have hhi := toNat_fadd_lt hphase hinc
  rw [value_fadd hphase hinc]
  generalize (fadd phase inc).toNat = n at hlo hhi ⊢
  have hexp : n / 2 ^ 23 = 127 := by omega
  obtain ⟨m, hm, hvalue⟩ := exists_magValue_eq 126 (n % 2 ^ 23) (by omega) (by omega)
  refine ⟨m, hm, hvalue.trans ?_⟩
  rw [magValue, hexp, if_neg (by decide)]
  generalize n % 2 ^ 23 = count
  push_cast
  norm_num
  ring

/-- Subtracting 1.0 is exact. -/
theorem value_fsub_fadd_one (hphase : PhaseOk phase) (hinc : IncrementOk inc)
    (hwrap : 1 ≤ value (fadd phase inc)) :
    value (fsub (fadd phase inc) 0x3F800000#32) = value (fadd phase inc) - 1 := by
  obtain ⟨m, hm, hvalue⟩ := exists_magValue_eq_overshoot hphase hinc hwrap
  rw [fsub_fadd_one_eq_roundQ hphase hinc, ← hvalue, value_roundQ (magValue_nonneg m), roundRat_magValue hm]
  rwa [roundRat_magValue hm]

/-- The new phase is at most the increment: the phase was at most `1 - 2 ^ -24`, and rounding adds at most that much. -/
theorem toNat_fsub_fadd_one_le (hphase : PhaseOk phase) (hinc : IncrementOk inc)
    (hwrap : 1 ≤ value (fadd phase inc)) : (fsub (fadd phase inc) 0x3F800000#32).toNat ≤ inc.toNat := by
  have hover : value (fadd phase inc) - 1 ≤ magValue inc.toNat := by
    linarith [value_fadd_le hphase hinc, value_phase_le hphase, value_inc hinc]
  rw [fsub_fadd_one_eq_roundQ hphase hinc, toNat_roundQ (sub_nonneg.2 hwrap)]
  calc roundRat (value (fadd phase inc) - 1) ≤ roundRat (magValue inc.toNat) :=
        roundRat_mono (sub_nonneg.2 hwrap) hover
    _ = inc.toNat := roundRat_magValue (inc_lt_inf hinc)

/-! ### ADVANCE (rules R130, R131) -/

theorem advance_of_wrap (hphase : PhaseOk phase) (hinc : IncrementOk inc) (hwrap : 1 ≤ value (fadd phase inc)) :
    advance phase inc =
      { phase := fsub (fadd phase inc) 0x3F800000#32, wrapped := true,
        d := fdiv (fsub (fadd phase inc) 0x3F800000#32) inc } := by
  rw [advance, if_pos ((wrapFlag_fadd_iff hphase hinc).2 hwrap), ffloor_fadd hphase hinc hwrap]

theorem advance_of_lt_one (hphase : PhaseOk phase) (hinc : IncrementOk inc) (h : value (fadd phase inc) < 1) :
    advance phase inc = { phase := fadd phase inc, wrapped := false, d := 0#32 } := by
  rw [advance, if_neg fun hwrap => absurd ((wrapFlag_fadd_iff hphase hinc).1 hwrap) h.not_ge]

/-- A quotient of an encoding without sign by a larger one is at most 1.0. -/
theorem toNat_fdiv_le_one {a b : Word} (hle : a.toNat ≤ b.toNat) (hb : b.toNat < infMagnitude) (hpos : 0 < value b) :
    (fdiv a b).toNat ≤ 0x3F800000 := by
  have ha : a.toNat < infMagnitude := hle.trans_lt hb
  have hvalue : value a ≤ value b := by
    rw [value_of_lt ha, value_of_lt hb]; exact magValue_mono hle hb
  have hnonneg : 0 ≤ value a / value b := by
    rw [value_of_lt ha]; exact div_nonneg (magValue_nonneg _) hpos.le
  have hquot : fdiv a b = roundQ false (value a / value b) := by
    rw [fdiv_finite (isFinite_of_lt ha) (isFinite_of_lt hb) hpos.ne', signBit_of_lt (ha.trans (by decide)),
      signBit_of_lt (hb.trans (by decide))]
    rfl
  rw [hquot, toNat_roundQ hnonneg]
  calc roundRat (value a / value b) ≤ roundRat (magValue 0x3F800000) :=
        roundRat_mono hnonneg (magValue_one ▸ (div_le_one hpos).2 hvalue)
    _ = 0x3F800000 := roundRat_magValue (by decide)

/-- ADVANCE keeps the phase in [0, 1) (rule R132). -/
theorem advance_phaseOk (hphase : PhaseOk phase) (hinc : IncrementOk inc) : PhaseOk (advance phase inc).phase := by
  rcases le_or_gt 1 (value (fadd phase inc)) with hwrap | hlt
  · rw [advance_of_wrap hphase hinc hwrap]
    exact ((toNat_fsub_fadd_one_le hphase hinc hwrap).trans hinc.2).trans_lt (by decide)
  · rw [advance_of_lt_one hphase hinc hlt]
    exact not_le.1 (mt (one_le_value_fadd_iff hphase hinc).2 hlt.not_ge)

/-- ADVANCE changes the phase (rule R135): without a wrap the increment is not absorbed, and with one the phase falls,
the rounded sum being less than 1.0 above it. -/
theorem advance_phase_ne (hphase : PhaseOk phase) (hinc : IncrementOk inc) : (advance phase inc).phase ≠ phase := by
  rcases le_or_gt 1 (value (fadd phase inc)) with hwrap | hlt
  · rw [advance_of_wrap hphase hinc hwrap]
    intro (hsame : fsub (fadd phase inc) 0x3F800000#32 = phase)
    have hexact := value_fsub_fadd_one hphase hinc hwrap
    rw [hsame] at hexact
    linarith [value_fadd_lt_add_one hphase hinc]
  · rw [advance_of_lt_one hphase hinc hlt]
    exact fadd_ne_phase hphase hinc

end Advance

/-! ### The statements -/

theorem reset_lane_phaseOk : PhaseOk Lane.reset.phase := by unfold PhaseOk; decide

/-- A STEP's ADVANCE keeps every lane's phase in range, and an inactive lane is untouched. -/
theorem stepLanes_phaseOk {p : Params} {s : State} (h : ∀ i : Fin 16, PhaseOk s.lanes[i].phase) (i : Fin 16) :
    PhaseOk (stepLanes p s)[i].phase := by
  rw [stepLanes_getElem]
  split_ifs
  · rw [stepLane_phase]; exact advance_phaseOk (h i) (increment_ok _ _)
  · exact h i

theorem buildExec_phaseOk {p : Params} {s : State} (instr : Instr) (h : ∀ i : Fin 16, PhaseOk s.lanes[i].phase)
    (i : Fin 16) : PhaseOk (buildExec p instr s).lanes[i].phase := by
  rcases buildExec_lanes p instr s with hlanes | hlanes | hlanes
  · rw [hlanes]; exact h i
  · rw [hlanes]; exact stepLanes_phaseOk h i
  · rw [hlanes]; simpa using reset_lane_phaseOk

/-- Settles O41: `advance_phaseOk`, and every step leaves the lanes, resets them, or runs an instruction. -/
theorem phaseStaysBelowOne : Obligations.PhaseStaysBelowOne := by
  refine ⟨fun phase freq dt hphase => advance_phaseOk hphase (increment_ok freq dt), fun s t h hstep i => ?_⟩
  rcases step_cases s with ⟨-, hnext⟩ | ⟨-, rest, -, hnext⟩ | ⟨tr, rest, -, hnext⟩ <;>
    obtain rfl := Host.Outcome.next.inj (hnext.symm.trans hstep)
  · exact h i
  · have hlane : (hardwareReset { s with queue := rest }).lanes[i] = Lane.reset := reset_lane i
    rw [hlane]; exact reset_lane_phaseOk
  · exact buildExec_phaseOk (s := { s with queue := rest }) (decodeTransaction tr) h i

/-- Settles O42: INC_MIN against half a unit in the phase's last place, and `advance_phase_ne` on an active lane. -/
theorem everyActivePhaseChanges : Obligations.EveryActivePhaseChanges := by
  refine ⟨fun phase freq dt hphase => ?_, fun s i hphase hactive => ⟨_, exec_step s, ?_⟩⟩
  · have hulp : (0 : ℚ) < 2 ^ ulpExponent phase := by positivity
    have hmin := two_zpow_ulpExponent_lt hphase
    have hinc := increment_ok freq dt
    exact ⟨hulp.trans hmin, value_incMin_le hinc, (half_lt_self hulp).trans hmin, fadd_ne_phase hphase hinc⟩
  · have hlane : (stepLanes hw s)[i] = stepLane hw s i s.lanes[i] := by
      rw [stepLanes_getElem, if_pos hactive]
    rw [complete_lanes, stepBlock_lanes, hlane, stepLane_phase]
    exact advance_phase_ne hphase (increment_ok _ _)

/-- Settles O43: the flag, the branch of ADVANCE with a wrap and the one without. -/
theorem wrapSubtractsOneExactly : Obligations.WrapSubtractsOneExactly := by
  intro phase inc hphase hmin hmax
  have hinc : IncrementOk inc := ⟨hmin, hmax⟩
  refine ⟨wrapFlag_fadd_iff hphase hinc, fun hwrap => ?_, fun hlt => ?_⟩
  · have hle := toNat_fsub_fadd_one_le hphase hinc hwrap
    rw [advance_of_wrap hphase hinc hwrap]
    exact ⟨ffloor_fadd hphase hinc hwrap, value_fsub_fadd_one hphase hinc hwrap, rfl, rfl, hle, rfl,
      toNat_fdiv_le_one hle (inc_lt_inf hinc) (value_inc_pos hinc)⟩
  · rw [advance_of_lt_one hphase hinc hlt]
    exact ⟨rfl, rfl⟩

end Sys2Proof.Proofs.PhaseAccumulator
end

section
/-! PROOFS. The naive sample: an enclosure of binary32 results between representable bounds, carried operation by
operation through the three waveforms, and the statement about their range (spec/41_waveform_shaper.md). -/

namespace Sys2Proof.Proofs.NaiveSample

open Sys2Proof Sys2Proof.Machine Sys2Proof.Config Sys2Proof.Safety Sys2Proof.Laws
open Sys2Proof.Proofs.Registers Sys2Proof.Proofs.RoundingError Sys2Proof.Proofs.PhaseAccumulator

/-! ### Rationals that are binary32 values -/

/-- A rational whose size is the value of a finite magnitude. -/
def Representable (q : ℚ) : Prop := ∃ m < infMagnitude, |q| = magValue m

theorem representable_value {w : Word} (h : isFinite w = true) : Representable (value w) :=
  ⟨magnitude w, (isFinite_iff w).1 h, abs_value w⟩

theorem Representable.neg {q : ℚ} (h : Representable q) : Representable (-q) := by
  unfold Representable
  rwa [abs_neg]

/-- An integer of 24 bits over a power of two is a binary32 value; on numerals the side conditions are computed. -/
theorem representable_of_eq {q : ℚ} (k n : ℕ) (hq : q = k / 2 ^ n := by norm_num) (hk : k < 2 ^ 24 := by norm_num)
    (hn : n ≤ 149 := by norm_num) : Representable q := by
  obtain ⟨m, hm, hvalue⟩ := exists_magValue_eq (149 - n) k hk (by omega)
  have hpow : ((149 - n : ℕ) : ℤ) - 149 = -(n : ℤ) := by omega
  refine ⟨m, hm, ?_⟩
  rw [hvalue, hpow, zpow_neg, zpow_natCast, hq, abs_of_nonneg (by positivity), div_eq_mul_inv]

theorem representable_zero : Representable 0 := representable_of_eq 0 0

theorem representable_one : Representable 1 := representable_of_eq 1 0

theorem representable_half : Representable (1 / 2) := representable_of_eq 1 1

/-! ### Rounding keeps a representable bound -/

theorem roundRat_le_of_le_abs {x q : ℚ} {m : ℕ} (hx : 0 ≤ x) (hm : m < infMagnitude) (hq : |q| = magValue m)
    (h : x ≤ |q|) : roundRat x ≤ m :=
  (roundRat_mono hx (h.trans_eq hq)).trans_eq (roundRat_magValue hm)

theorem roundRat_lt_inf {x q : ℚ} (hq : Representable q) (hx : 0 ≤ x) (h : x ≤ |q|) : roundRat x < infMagnitude := by
  obtain ⟨m, hm, hvalue⟩ := hq
  exact (roundRat_le_of_le_abs hx hm hvalue h).trans_lt hm

theorem magValue_roundRat_le_abs {x q : ℚ} (hq : Representable q) (hx : 0 ≤ x) (h : x ≤ |q|) :
    magValue (roundRat x) ≤ |q| := by
  obtain ⟨m, hm, hvalue⟩ := hq
  exact (magValue_mono (roundRat_le_of_le_abs hx hm hvalue h) hm).trans_eq hvalue.symm

theorem abs_le_magValue_roundRat {x q : ℚ} (hq : Representable q) (hx : roundRat x < infMagnitude) (h : |q| ≤ x) :
    |q| ≤ magValue (roundRat x) := by
  obtain ⟨m, hm, hvalue⟩ := hq
  have hle : m ≤ roundRat x := (roundRat_magValue hm).symm.trans_le (roundRat_mono (magValue_nonneg m) (hvalue ▸ h))
  exact hvalue.trans_le (magValue_mono hle hx)

theorem withSign_fields (neg : Bool) {m : ℕ} (h : m < 2 ^ 31) :
    magnitude (withSign neg m) = m ∧ signBit (withSign neg m) = neg := by
  have hword := (toNat_eq (withSign neg m)).symm.trans (toNat_withSign neg h)
  have hmag := magnitude_lt (withSign neg m)
  generalize signBit (withSign neg m) = sign at hword ⊢
  cases neg <;> cases sign <;> simp at hword ⊢ <;> omega

theorem roundQ_fields (zneg : Bool) {x : ℚ} (h : roundRat |x| < infMagnitude) :
    magnitude (roundQ zneg x) = roundRat |x| ∧
      signBit (roundQ zneg x) = if x = 0 then zneg else decide (x < 0) :=
  withSign_fields _ (h.trans (by decide))

/-- What RN32 of a rational is worth: the rounding of its size, with its sign. -/
theorem value_roundQ_eq (zneg : Bool) {x : ℚ} (h : roundRat |x| < infMagnitude) :
    value (roundQ zneg x) = if x < 0 then -magValue (roundRat |x|) else magValue (roundRat |x|) := by
  obtain ⟨hmag, hsign⟩ := roundQ_fields zneg h
  rw [value_eq, hmag, hsign]
  by_cases h0 : x = 0
  · subst h0
    simp [roundRat, magValue]
  · simp [h0]

theorem value_roundQ_neg (zneg : Bool) {x : ℚ} (h : roundRat |x| < infMagnitude) :
    value (roundQ zneg (-x)) = -value (roundQ zneg x) := by
  rw [value_roundQ_eq zneg h, value_roundQ_eq zneg (by rwa [abs_neg]), abs_neg]
  rcases lt_trichotomy x 0 with hx | rfl | hx
  · simp [hx, hx.le]
  · simp [roundRat, magValue]
  · simp [hx, hx.le]

theorem le_value_roundQ (zneg : Bool) {lo x : ℚ} (hlo : Representable lo) (h : roundRat |x| < infMagnitude)
    (hle : lo ≤ x) : lo ≤ value (roundQ zneg x) := by
  rw [value_roundQ_eq zneg h]
  split_ifs with hx
  · have hround := magValue_roundRat_le_abs hlo (abs_nonneg x) (abs_le_abs_of_nonpos hx.le hle)
    rw [abs_of_neg (hle.trans_lt hx)] at hround
    linarith
  · rcases le_total lo 0 with hneg | hpos
    · exact hneg.trans (magValue_nonneg _)
    · exact (le_abs_self lo).trans (abs_le_magValue_roundRat hlo h (abs_le_abs_of_nonneg hpos hle))

theorem value_roundQ_le (zneg : Bool) {hi x : ℚ} (hhi : Representable hi) (h : roundRat |x| < infMagnitude)
    (hle : x ≤ hi) : value (roundQ zneg x) ≤ hi := by
  have hneg := le_value_roundQ zneg hhi.neg (x := -x) (by rwa [abs_neg]) (neg_le_neg hle)
  rw [value_roundQ_neg zneg h] at hneg
  exact neg_le_neg_iff.1 hneg

/-- `w` is finite, and worth at least `lo` and at most `hi`. -/
structure Within (lo hi : ℚ) (w : Word) : Prop where
  finite : isFinite w = true
  ge : lo ≤ value w
  le : value w ≤ hi

theorem Within.mono {lo hi lo' hi' : ℚ} {w : Word} (h : Within lo hi w) (hlo : lo' ≤ lo) (hhi : hi ≤ hi') :
    Within lo' hi' w := ⟨h.finite, hlo.trans h.ge, h.le.trans hhi⟩

theorem isFinite_roundQ (zneg : Bool) {x : ℚ} (h : roundRat |x| < infMagnitude) :
    isFinite (roundQ zneg x) = true := by
  rw [isFinite_iff, (roundQ_fields zneg h).1]
  exact h

/-- RN32 is monotone and keeps every representable value, so it stays between representable bounds. -/
theorem within_roundQ (zneg : Bool) {lo hi x : ℚ} (hlo : Representable lo) (hhi : Representable hi) (hge : lo ≤ x)
    (hle : x ≤ hi) : Within lo hi (roundQ zneg x) := by
  have hfin : roundRat |x| < infMagnitude := by
    rcases le_max_iff.1 (abs_le_max_abs_abs hge hle) with h | h
    · exact roundRat_lt_inf hlo (abs_nonneg x) h
    · exact roundRat_lt_inf hhi (abs_nonneg x) h
  exact ⟨isFinite_roundQ zneg hfin, le_value_roundQ zneg hlo hfin hge, value_roundQ_le zneg hhi hfin hle⟩

section Operations

variable {a b : Word} {lo hi : ℚ}

theorem within_fadd (ha : isFinite a = true) (hb : isFinite b = true) (hlo : Representable lo)
    (hhi : Representable hi) (hge : lo ≤ value a + value b) (hle : value a + value b ≤ hi) :
    Within lo hi (fadd a b) := by
  rw [fadd_finite ha hb]
  exact within_roundQ _ hlo hhi hge hle

theorem within_fsub (ha : isFinite a = true) (hb : isFinite b = true) (hlo : Representable lo)
    (hhi : Representable hi) (hge : lo ≤ value a - value b) (hle : value a - value b ≤ hi) :
    Within lo hi (fsub a b) := by
  rw [fsub_finite ha hb]
  exact within_roundQ _ hlo hhi hge hle

theorem within_fmul (ha : isFinite a = true) (hb : isFinite b = true) (hlo : Representable lo)
    (hhi : Representable hi) (hge : lo ≤ value a * value b) (hle : value a * value b ≤ hi) :
    Within lo hi (fmul a b) := by
  rw [fmul_finite ha hb]
  exact within_roundQ _ hlo hhi hge hle

theorem within_fdiv (ha : isFinite a = true) (hb : isFinite b = true) (hpos : 0 < value b) (hlo : Representable lo)
    (hhi : Representable hi) (hge : lo * value b ≤ value a) (hle : value a ≤ hi * value b) :
    Within lo hi (fdiv a b) := by
  rw [fdiv_finite ha hb hpos.ne']
  exact within_roundQ _ hlo hhi ((le_div_iff₀ hpos).2 hge) ((div_le_iff₀ hpos).2 hle)

end Operations

/-! ### The order of finite encodings is the order of their values -/

theorem magValue_le_iff {m n : ℕ} (hm : m < infMagnitude) (hn : n < infMagnitude) :
    magValue m ≤ magValue n ↔ m ≤ n :=
  ⟨fun h => not_lt.1 fun hlt => (magValue_strictMono hlt hm).not_ge h, fun h => magValue_mono h hn⟩

theorem magValue_nonpos_iff {m : ℕ} (hm : m < infMagnitude) : magValue m ≤ 0 ↔ m = 0 := by
  have hzero : magValue 0 = 0 := by simp [magValue]
  rw [← hzero, magValue_le_iff hm (by decide), Nat.le_zero]

theorem orderKey_le_iff {a b : Word} (ha : isFinite a = true) (hb : isFinite b = true) :
    orderKey a ≤ orderKey b ↔ value a ≤ value b := by
  rw [isFinite_iff] at ha hb
  have hapos := magValue_nonneg (magnitude a)
  have hbpos := magValue_nonneg (magnitude b)
  rw [value_eq, value_eq, orderKey, orderKey]
  rcases Bool.eq_false_or_eq_true (signBit a) with hsa | hsa <;>
    rcases Bool.eq_false_or_eq_true (signBit b) with hsb | hsb <;>
    simp only [hsa, hsb, Bool.false_eq_true, if_true, if_false]
  case inl.inl => rw [neg_le_neg_iff, neg_le_neg_iff, magValue_le_iff hb ha, Int.ofNat_le]
  case inl.inr => exact iff_of_true (by omega) (by linarith)
  case inr.inl =>
    have hboth : magValue (magnitude a) ≤ -magValue (magnitude b) ↔
        magValue (magnitude a) ≤ 0 ∧ magValue (magnitude b) ≤ 0 :=
      ⟨fun h => ⟨by linarith, by linarith⟩, fun ⟨h, h'⟩ => by linarith⟩
    rw [hboth, magValue_nonpos_iff ha, magValue_nonpos_iff hb]
    omega
  case inr.inr => rw [magValue_le_iff ha hb, Int.ofNat_le]

theorem fle_iff_value_le {a b : Word} (ha : isFinite a = true) (hb : isFinite b = true) :
    fle a b = true ↔ value a ≤ value b := by
  rw [fle_iff, orderKey_le_iff ha hb]
  simp [not_isNaN_of_isFinite ha, not_isNaN_of_isFinite hb]

theorem Within.inRange {lo hi w : Word} (h : Within (value lo) (value hi) w) (hlo : isFinite lo = true)
    (hhi : isFinite hi = true) : InRange lo hi w :=
  ⟨(fle_iff_value_le hlo h.finite).2 h.ge, (fle_iff_value_le h.finite hhi).2 h.le⟩

theorem natAbs_orderKey (w : Word) : (orderKey w).natAbs = magnitude w := by
  rw [orderKey]
  split_ifs <;> simp

theorem isFinite_of_inRange {lo hi w : Word} (hlo : isFinite lo = true) (hhi : isFinite hi = true)
    (h : InRange lo hi w) : isFinite w = true := by
  obtain ⟨-, -, hge⟩ := (fle_iff lo w).1 h.1
  obtain ⟨-, -, hle⟩ := (fle_iff w hi).1 h.2
  rw [isFinite_iff, ← natAbs_orderKey] at *
  omega

/-- `min` keeps a common lower bound, and is at most either operand. -/
theorem within_fmin {lo hi hi' : ℚ} {a b : Word} (ha : Within lo hi a) (hb : Within lo hi' b) :
    Within lo hi' (fmin a b) ∧ value (fmin a b) ≤ value a := by
  rw [fmin]
  split_ifs with h
  · exact ⟨⟨ha.finite, ha.ge, ((fle_iff_value_le ha.finite hb.finite).1 h).trans hb.le⟩, le_rfl⟩
  · exact ⟨hb, (not_le.1 (mt (fle_iff_value_le ha.finite hb.finite).2 h)).le⟩

/-! ### The operands -/

theorem value_half : value half = 1 / 2 := (value_of_lt (by decide)).trans (by norm_num [magValue, half])

theorem value_unit : value one = 1 := value_one

theorem value_minusOne : value minusOne = -1 := (value_fneg one).trans (congrArg Neg.neg value_one)

theorem value_two : value two = 2 := (value_of_lt (by decide)).trans (by norm_num [magValue, two])

theorem value_four : value four = 4 := (value_of_lt (by decide)).trans (by norm_num [magValue, four])

section Waveforms

variable {φ s : Word}

theorem within_phase (hφ : PhaseOk φ) : Within 0 (1 - 1 / 2 ^ 24) φ :=
  ⟨isFinite_of_lt (phase_lt_inf hφ), value_phase_nonneg hφ, (value_phase_le hφ).trans (by norm_num)⟩

/-- The shape's clamp keeps it away from 0 and 1 (rule R207). -/
theorem within_shape (hs : ShapeOk s) : Within (1 / 128) (127 / 128) s := by
  obtain ⟨hmin, hmax⟩ := hs
  have hfin : s.toNat < infMagnitude := by unfold infMagnitude; omega
  have hlo : magValue 0x3C000000 = 1 / 128 := by norm_num [magValue]
  have hhi : magValue 0x3F7E0000 = 127 / 128 := by norm_num [magValue]
  refine ⟨isFinite_of_lt hfin, ?_, ?_⟩ <;> rw [value_of_lt hfin]
  · exact hlo ▸ magValue_mono (by omega) hfin
  · exact hhi ▸ magValue_mono (by omega) (by decide)

/-- The phase's distance from 1.0. -/
theorem within_one_sub_phase (hφ : PhaseOk φ) : Within (1 / 2 ^ 24) 1 (fsub one φ) := by
  obtain ⟨hfin, hge, hle⟩ := within_phase hφ
  apply within_fsub (by decide) hfin (representable_of_eq 1 24) representable_one <;> rw [value_unit] <;> linarith

/-- Rounding moves `1 - φ` up by at most half a unit in the last place above 1.0. -/
theorem value_one_sub_phase_le (hφ : PhaseOk φ) : value (fsub one φ) ≤ 1 - value φ + 1 / 2 ^ 24 := by
  obtain ⟨hfin, hge, hle⟩ := within_phase hφ
  have hpos : 0 < 1 - value φ := by norm_num at hle; linarith
  have hround := magValue_roundRat_le_of_lt_two hpos (by linarith)
  have hinf : roundRat |1 - value φ| < infMagnitude :=
    roundRat_lt_inf representable_one (abs_nonneg _) (by rw [abs_of_pos hpos, abs_one]; linarith)
  rw [fsub_finite (by decide) hfin, value_unit, value_roundQ_eq _ hinf, if_neg hpos.not_gt, abs_of_pos hpos]
  exact hround.trans_eq (by norm_num)

/-- The scaling into the cosine's cycle keeps a position in [0, 1] within the arguments of rule R154. -/
theorem inRange_cos32 {p : Params} (hp : p.Legal) {m : Word} (hm : Within 0 1 m) :
    InRange minusOne one (p.cos32 (fmul twoPi m)) := by
  obtain ⟨hfin, hge, hle⟩ := hm
  have hpi : 0 ≤ value twoPi := (magValue_nonneg _).trans_eq (value_of_lt (w := twoPi) (by decide)).symm
  have hzero : value 0#32 = 0 := (value_of_lt (by decide)).trans (by simp [magValue])
  have harg : Within (value 0#32) (value twoPi) (fmul twoPi m) := by
    rw [hzero]
    exact within_fmul (by decide) hfin representable_zero (representable_value (by decide)) (mul_nonneg hpi hge)
      (mul_le_of_le_one_right hpi hle)
  obtain ⟨harg0, harg1⟩ := harg.inRange (by decide) (by decide)
  exact hp.cos_range _ harg0 harg1

/-! ### CZ_SAW (rule R151) -/

/-- `l` stays away from 0. -/
theorem within_czSaw_join (hs : ShapeOk s) : Within (1 / 256) (1 / 2) (fsub half (fmul s half)) := by
  obtain ⟨hfin, hge, hle⟩ := within_shape hs
  obtain ⟨htfin, htge, htle⟩ : Within 0 (127 / 256) (fmul s half) := by
    apply within_fmul hfin (by decide) representable_zero (representable_of_eq 127 8) <;> rw [value_half] <;> linarith
  apply within_fsub (by decide) htfin (representable_of_eq 1 8) representable_half <;> rw [value_half] <;> linarith

/-- With its join in that range, the rising slope is finite and the falling one at most 1.0. -/
theorem within_czSaw_slopes {l : Word} (hl : Within (1 / 256) (1 / 2) l) :
    Within 0 128 (fdiv (fsub half l) l) ∧ Within 0 1 (fdiv (fsub half l) (fsub one l)) := by
  obtain ⟨hfin, hge, hle⟩ := hl
  obtain ⟨hnfin, hnge, hnle⟩ : Within 0 (1 / 2) (fsub half l) := by
    apply within_fsub (by decide) hfin representable_zero representable_half <;> rw [value_half] <;> linarith
  obtain ⟨hdfin, hdge, hdle⟩ : Within (1 / 2) 1 (fsub one l) := by
    apply within_fsub (by decide) hfin representable_half representable_one <;> rw [value_unit] <;> linarith
  exact ⟨within_fdiv hnfin hfin (by linarith) representable_zero (representable_of_eq 128 0) (by linarith)
      (by linarith),
    within_fdiv hnfin hdfin (by linarith) representable_zero representable_one (by linarith) (by linarith)⟩

/-- A sum that exceeds 1.0 by at most half a unit in the last place rounds to 1.0 at most, ties going to even. -/
theorem within_unit_roundQ (zneg : Bool) {x : ℚ} (hge : 0 ≤ x) (hle : x ≤ 1 + 1 / 2 ^ 24) :
    Within 0 1 (roundQ zneg x) := by
  have htie : roundRat (1 + 1 / 2 ^ 24) = 0x3F800000 := by
    have h := roundMagnitude_eq_roundRat (2 ^ 24 + 1) (2 ^ 24) 0 (by norm_num)
    rw [show roundMagnitude (2 ^ 24 + 1) (2 ^ 24) 0 = 0x3F800000 by decide] at h
    rw [h]
    norm_num
  have hround : roundRat |x| ≤ 0x3F800000 := htie ▸ roundRat_mono (abs_nonneg x) (by rwa [abs_of_nonneg hge])
  have hinf : roundRat |x| < infMagnitude := hround.trans_lt (by decide)
  refine ⟨isFinite_roundQ zneg hinf, ?_, ?_⟩ <;> rw [value_roundQ_eq zneg hinf, if_neg hge.not_gt]
  · exact magValue_nonneg _
  · exact magValue_one ▸ magValue_mono hround (by decide)

/-- The lesser ramp is at most `1 - φ`, as far as that is rounded, so the position is at most 1.0. -/
theorem within_czSawPosition (hφ : PhaseOk φ) (hs : ShapeOk s) : Within 0 1 (czSawPosition φ s) := by
  obtain ⟨⟨hufin, huge, hule⟩, hdfin, hdge, hdle⟩ := within_czSaw_slopes (within_czSaw_join hs)
  obtain ⟨hfin, hge, hle⟩ := within_phase hφ
  obtain ⟨homfin, homge, -⟩ := (within_one_sub_phase hφ).mono (lo' := 0) (by positivity) le_rfl
  have hrising : Within 0 128 (fmul φ _) :=
    within_fmul hfin hufin representable_zero (representable_of_eq 128 0) (mul_nonneg hge huge)
      ((mul_le_of_le_one_left huge (hle.trans (by norm_num))).trans hule)
  have hfalling : Within 0 (value (fsub one φ)) (fmul (fsub one φ) _) :=
    within_fmul homfin hdfin representable_zero (representable_value homfin) (mul_nonneg homge hdge)
      (mul_le_of_le_one_right homge hdle)
  obtain ⟨⟨hmfin, hmge, hmle⟩, -⟩ := within_fmin hrising hfalling
  rw [czSawPosition, fadd_finite hfin hmfin]
  exact within_unit_roundQ _ (add_nonneg hge hmge) (by linarith [value_one_sub_phase_le hφ])

/-! ### CZ_SAW_PULSE (rule R152) -/

theorem within_pulse_ratio (hs : ShapeOk s) : Within 0 128 (fdiv s (fsub one s)) := by
  obtain ⟨hfin, hge, hle⟩ := within_shape hs
  obtain ⟨hqfin, hqge, hqle⟩ : Within (1 / 128) 1 (fsub one s) := by
    apply within_fsub (by decide) hfin (representable_of_eq 1 7) representable_one <;> rw [value_unit] <;> linarith
  exact within_fdiv hfin hqfin (by linarith) representable_zero (representable_of_eq 128 0) (by linarith)
    (by linarith)

/-- `c`: the lesser of `a` and a finite ramp is at most `a`, so their difference is finite and not negative. -/
theorem within_pulse_difference {a k : Word} (ha : Within 0 2 a) (hk : Within 0 128 k) :
    Within 0 65 (fmul half (fsub a (fmin a (fmul (fsub one a) k)))) := by
  obtain ⟨hkfin, hkge, hkle⟩ := hk
  have h128 : Representable 128 := representable_of_eq 128 0
  obtain ⟨hofin, hoge, hole⟩ : Within (-1) 1 (fsub one a) := by
    apply within_fsub (by decide) ha.finite representable_one.neg representable_one <;> rw [value_unit] <;>
      linarith [ha.ge, ha.le]
  have hramp : Within (-128) 128 (fmul (fsub one a) k) :=
    within_fmul hofin hkfin h128.neg h128 (by nlinarith) (by nlinarith)
  obtain ⟨⟨hmfin, hmge, -⟩, hmle⟩ := within_fmin (ha.mono (lo' := -128) (by norm_num) le_rfl) hramp
  obtain ⟨hdfin, hdge, hdle⟩ : Within 0 130 (fsub a (fmin a (fmul (fsub one a) k))) :=
    within_fsub ha.finite hmfin representable_zero (representable_of_eq 130 0) (by linarith) (by linarith [ha.le])
  apply within_fmul (by decide) hdfin representable_zero (representable_of_eq 65 0) <;> rw [value_half] <;> linarith

/-- The pulse's position is at most the phase. -/
theorem within_czSawPulsePosition (hφ : PhaseOk φ) (hs : ShapeOk s) :
    Within 0 (value φ) (czSawPulsePosition φ s) := by
  obtain ⟨hfin, hge, -⟩ := within_phase hφ
  obtain ⟨homfin, homge, homle⟩ := (within_one_sub_phase hφ).mono (lo' := 0) (by positivity) le_rfl
  have ha : Within 0 2 (fmul two (fsub one φ)) := by
    apply within_fmul (by decide) homfin representable_zero (representable_of_eq 2 0) <;> rw [value_two] <;> linarith
  exact (within_fmin (within_pulse_difference ha (within_pulse_ratio hs)) ⟨hfin, hge, le_rfl⟩).1

/-! ### MOOG_INVSAW (rule R153) -/

/-- `a`: the phase is at least `2 ^ -24` below 1.0, and `a` at least twice that above -1.0. -/
theorem within_moog_line (hφ : PhaseOk φ) : Within (-(1 - 1 / 2 ^ 23)) 1 (fsub (fmul two (fsub one φ)) one) := by
  obtain ⟨homfin, homge, homle⟩ := within_one_sub_phase hφ
  obtain ⟨htfin, htge, htle⟩ : Within (1 / 2 ^ 23) 2 (fmul two (fsub one φ)) := by
    apply within_fmul (by decide) homfin (representable_of_eq 1 23) (representable_of_eq 2 0) <;> rw [value_two] <;>
      linarith
  apply within_fsub htfin (by decide) (representable_of_eq (2 ^ 23 - 1) 23).neg representable_one <;>
    rw [value_unit] <;> linarith

/-- `b`: a representable lower bound of `a²` is kept by the three roundings. -/
theorem within_moog_softening {a : Word} {c : ℚ} (ha : Within (-1) 1 a) (hc : Representable c)
    (hc4 : Representable (4 * c)) (hsq : Representable (1 - 4 * c)) (h : 1 - 4 * c ≤ value a * value a) :
    Within (-c) 0 (fdiv (fsub (fmul a a) one) four) := by
  obtain ⟨hfin, hge, hle⟩ := ha
  obtain ⟨hsqfin, hsqge, hsqle⟩ : Within (1 - 4 * c) 1 (fmul a a) :=
    within_fmul hfin hfin hsq representable_one h (by nlinarith)
  obtain ⟨hnfin, hnge, hnle⟩ : Within (-(4 * c)) 0 (fsub (fmul a a) one) := by
    apply within_fsub hsqfin (by decide) hc4.neg representable_zero <;> rw [value_unit] <;> linarith
  apply within_fdiv hnfin (by decide) _ hc.neg representable_zero <;> rw [value_four] <;> linarith

/-- A value in [-1, -1/2] counts the units of `2 ^ -24` above -1.0. -/
theorem exists_count_of_le_neg_half {a : Word} (ha : Within (-1) (-(1 / 2)) a) :
    ∃ k : ℕ, k ≤ 2 ^ 23 ∧ value a = -1 + k / 2 ^ 24 := by
  obtain ⟨hfin, hge, hle⟩ := ha
  have hhalf : magValue 0x3F000000 = 1 / 2 := by norm_num [magValue]
  have hmag : value a = -magValue (magnitude a) := by
    rw [← abs_value, abs_of_nonpos (by linarith), neg_neg]
  have hlo : 0x3F000000 ≤ magnitude a := (magValue_le_iff (by decide) ((isFinite_iff a).1 hfin)).1 (by linarith)
  have hhi : magnitude a ≤ 0x3F800000 :=
    (magValue_le_iff ((isFinite_iff a).1 hfin) (by decide)).1 (by rw [magValue_one]; linarith)
  refine ⟨0x3F800000 - magnitude a, by omega, ?_⟩
  rw [hmag, Nat.cast_sub hhi]
  rcases hhi.lt_or_eq with hlt | heq
  · have hexp : magnitude a / 2 ^ 23 = 126 := by omega
    have hfrac : 2 ^ 23 + magnitude a % 2 ^ 23 + 0x3F000000 = magnitude a + 2 ^ 23 := by omega
    have hcast : ((2 ^ 23 + magnitude a % 2 ^ 23 : ℕ) : ℚ) + 0x3F000000 = magnitude a + 2 ^ 23 := by
      exact_mod_cast hfrac
    rw [magValue, hexp, if_neg (by norm_num), eq_sub_of_add_eq hcast]
    norm_num
    ring
  · rw [heq, magValue_one]
    norm_num

/-- `y`: where `a ≤ -1/2` the tangent of `a²` at -1 bounds `b` by half the distance of `a` from -1.0, which leaves the
other half, at least `2 ^ -24`; elsewhere `b ≥ -1/4` leaves more. -/
theorem within_moogInvSaw (hφ : PhaseOk φ) : Within (-(1 - 1 / 2 ^ 24)) 1 (moogInvSaw φ) := by
  have hline := within_moog_line hφ
  rw [moogInvSaw]
  generalize fsub (fmul two (fsub one φ)) one = a at hline ⊢
  have ha : Within (-1) 1 a := hline.mono (by norm_num) le_rfl
  obtain ⟨hfin, hge, hle⟩ := hline
  obtain ⟨c, hb, hsum⟩ : ∃ c, Within (-c) 0 (fdiv (fsub (fmul a a) one) four) ∧ -(1 - 1 / 2 ^ 24) ≤ value a - c := by
    rcases le_total (value a) (-(1 / 2)) with hlow | hhigh
    · obtain ⟨k, hk, hvalue⟩ := exists_count_of_le_neg_half ⟨hfin, ha.ge, hlow⟩
      have hc4 : (4 : ℚ) * (k / 2 ^ 25) = k / 2 ^ 23 := by ring
      have hsq : (1 : ℚ) - 4 * (k / 2 ^ 25) = (2 ^ 23 - k : ℕ) / 2 ^ 23 := by
        rw [Nat.cast_sub hk]; push_cast; ring
      refine ⟨k / 2 ^ 25, within_moog_softening ha (representable_of_eq k 25 rfl (by omega))
        (representable_of_eq k 23 hc4 (by omega)) (representable_of_eq (2 ^ 23 - k) 23 hsq (by omega)) ?_, ?_⟩
      · rw [hvalue]
        nlinarith [sq_nonneg (k / 2 ^ 24 : ℚ)]
      · linarith
    · exact ⟨1 / 4, within_moog_softening ha (representable_of_eq 1 2) (representable_of_eq 1 0)
        (representable_of_eq 0 0) (by linarith [mul_self_nonneg (value a)]), by norm_num; linarith⟩
  exact within_fadd hfin hb.finite (representable_of_eq (2 ^ 24 - 1) 24).neg representable_one
    (by linarith [hb.ge]) (by linarith [hb.le])

end Waveforms

/-! ### The statement (rule R156) -/

theorem inRange_moogInvSaw {φ : Word} (hφ : PhaseOk φ) : InRange 0xBF7FFFFF#32 one (moogInvSaw φ) := by
  have hmin : value 0xBF7FFFFF#32 = -(1 - 1 / 2 ^ 24) := by
    have hmax : value 0x3F7FFFFF#32 = 1 - 1 / 2 ^ 24 :=
      (value_of_lt (by decide)).trans (magValue_maxPhase.trans (by norm_num))
    exact (value_fneg 0x3F7FFFFF#32).trans (congrArg Neg.neg hmax)
  have h := within_moogInvSaw hφ
  rw [← hmin, ← value_unit] at h
  exact h.inRange (by decide) (by decide)

/-- Settles O44: the cosine's range for the two CZ variants, whose positions lie in [0, 1], and the closed form's own
bounds for MOOG_INVSAW. -/
theorem naiveSampleIsBounded : Obligations.NaiveSampleIsBounded := by
  intro p v φ s hp hφ hs
  have hmoog := inRange_moogInvSaw hφ
  have hrange : InRange minusOne one (naiveSample p v φ s) := by
    cases v with
    | czSaw => exact inRange_cos32 hp (within_czSawPosition hφ hs)
    | czSawPulse =>
      exact inRange_cos32 hp ((within_czSawPulsePosition hφ hs).mono le_rfl
        ((within_phase hφ).le.trans (by norm_num)))
    | moogInvSaw =>
      have h := (within_moogInvSaw hφ).mono (lo' := -1) (by norm_num) le_rfl
      rw [← value_minusOne, ← value_unit] at h
      exact h.inRange (by decide) (by decide)
  exact ⟨isFinite_of_inRange (by decide) (by decide) hrange, hrange, hmoog⟩

end Sys2Proof.Proofs.NaiveSample
end

section
/-! PROOFS. The delay line: PROCESS's entry, its index and its frame, what a STEP leaves of both on an active lane, and
the statement about them (spec/42_minblep.md). -/

namespace Sys2Proof.Proofs.DelayLine

open Sys2Proof Sys2Proof.Machine Sys2Proof.Config Sys2Proof.Safety Sys2Proof.Laws
open Sys2Proof.Proofs.Registers

/-! ### PROCESS (rule R176) -/

theorem process_dl_due (l : Lane) : (process l).2.dl[l.pos] = 0#32 := Vector.getElem_set_self l.pos.isLt

theorem process_dl_of_ne (l : Lane) {k : Fin 32} (h : k ≠ l.pos) : (process l).2.dl[k] = l.dl[k] :=
  Vector.getElem_set_ne l.pos.isLt k.isLt (Fin.val_ne_of_ne h.symm)

theorem process_frame (l : Lane) : { (process l).2 with dl := l.dl, pos := l.pos } = l := rfl

/-- The index counts modulo 32. -/
theorem pos_succ_val (pos : Fin 32) : (pos + 1).val = (pos.val + 1) % 32 := Fin.val_add pos 1

/-! ### A STEP of an active lane (rules R209, R234) -/

/-- The delay line after one lane's STEP: what INSERT left of it, wrapped or not, with the due entry cleared. -/
theorem stepLane_dl (p : Params) (s : State) (i : Fin 16) (l : Lane) :
    (stepLane p s i l).dl =
      (insertOnWrap p s i (mapAdvance p s i l).2 (mapAdvance p s i l).1).dl.set l.pos 0#32 := by
  simp only [stepLane, emit_dl, process_dl, insertOnWrap_pos, mapAdvance_pos]

/-- PROCESS comes after INSERT, so the due entry is cleared whether or not the lane wrapped. -/
theorem stepLane_dl_due (p : Params) (s : State) (i : Fin 16) (l : Lane) : (stepLane p s i l).dl[l.pos] = 0#32 := by
  rw [stepLane_dl]
  exact Vector.getElem_set_self l.pos.isLt

/-- An active lane after the STEP command. -/
theorem lane_after_step_of_active {s : State} {i : Fin 16} (h : i.val < activeCount s) :
    (complete .writeDone (stepBlock hw s)).lanes[i] = stepLane hw s i s.lanes[i] :=
  (stepLanes_getElem hw s i).trans (if_pos h)

/-! ### The statement -/

/-- Settles O49: PROCESS's entry, index and frame, and PROCESS as the last stage on an active lane's delay line. -/
theorem processTakesAndClearsTheDueEntry : Obligations.ProcessTakesAndClearsTheDueEntry := by
  refine ⟨fun l => ⟨process_correction l, process_dl_due l, fun k => process_dl_of_ne l, ?_, process_frame l⟩,
    fun s i hactive => ⟨_, exec_step s, ?_⟩⟩
  · rw [process_pos, pos_succ_val]
  · rw [lane_after_step_of_active hactive, stepLane_pos, pos_succ_val]
    exact ⟨rfl, stepLane_dl_due hw s i s.lanes[i]⟩

end Sys2Proof.Proofs.DelayLine
end

section
/-! PROOFS. The mapper: what a STEP reports of its dispatch and leaves of an inactive lane, the range of the shape map,
and the statements about them (spec/43_control_mapper.md). -/

namespace Sys2Proof.Proofs.Mapper

open Sys2Proof Sys2Proof.Machine Sys2Proof.Config Sys2Proof.Safety Sys2Proof.Laws
open Sys2Proof.Proofs.Registers Sys2Proof.Proofs.RoundingError Sys2Proof.Proofs.PhaseAccumulator
open Sys2Proof.Proofs.NaiveSample Sys2Proof.Proofs.DelayLine

/-! ### The dispatch (rules R208–R210) -/

theorem activeCount_lt (s : State) : activeCount s < 32 := max_lt (by decide) s.channels.isLt

theorem outChannels_stepBlock (p : Params) (s : State) : (stepBlock p s).outChannels.toNat = activeCount s :=
  Nat.mod_eq_of_lt (activeCount_lt s)

/-- The hardware's group count fits its field. -/
theorem activeGroups_stepBlock_hw (s : State) : (stepBlock hw s).activeGroups.toNat = (activeCount s + 3) / 4 := by
  have hcount := activeCount_lt s
  exact Nat.mod_eq_of_lt (by change (activeCount s + 3) / 4 < 32; omega)

/-- A lane at or above the count keeps its state (rule R209). -/
theorem lane_after_step_of_inactive {s : State} {i : Fin 16} (h : activeCount s ≤ i.val) :
    (complete .writeDone (stepBlock hw s)).lanes[i] = s.lanes[i] :=
  (stepLanes_getElem hw s i).trans (if_neg h.not_gt)

/-- OUT[i] is the lane's last voltage (rule R36). -/
theorem readWindow_out (s : State) (i : Fin 16) : readWindow hw s (regOffset (.out i)) = s.lanes[i].outv :=
  readWindow_of_wordIndex s (by simp) (wordIndex_regOffset _)

/-- Settles O31: the report's two fields, an active lane's index, and an inactive lane's voltage. -/
theorem stepReportsTheDispatch : Obligations.StepReportsTheDispatch := by
  intro s
  have hout : (stepBlock hw s).outChannels.toNat = activeCount s := outChannels_stepBlock hw s
  have hgroups := activeGroups_stepBlock_hw s
  have hpos : 1 ≤ activeCount s := le_max_left 1 _
  refine ⟨_, exec_step s, hout, ?_, ?_, fun i hactive => ?_, fun i hinactive => ?_, rfl, rfl, fun hsound => ?_⟩
  · change 4 * (stepBlock hw s).activeGroups.toNat < activeCount s + 4
    omega
  · change activeCount s ≤ 4 * (stepBlock hw s).activeGroups.toNat
    omega
  · rw [lane_after_step_of_active hactive, stepLane_pos]
  · rw [readWindow_out, readWindow_out, lane_after_step_of_inactive hinactive]
  · have hchannels : s.channels.toNat ≤ 16 := hsound.channels
    have hle : activeCount s ≤ 16 := max_le (by decide) hchannels
    change 1 ≤ (stepBlock hw s).outChannels.toNat ∧ (stepBlock hw s).outChannels.toNat ≤ 16
    omega

/-! ### The shape (rule R207) -/

/-- The word of a product of finite operands without sign is its exact value, rounded. -/
theorem toNat_fmul {a b : Word} (ha : a.toNat < infMagnitude) (hb : b.toNat < infMagnitude) :
    (fmul a b).toNat = roundRat (value a * value b) := by
  have hsa : signBit a = false := signBit_of_lt (ha.trans (by decide))
  have hsb : signBit b = false := signBit_of_lt (hb.trans (by decide))
  have hnonneg : 0 ≤ value a * value b := by
    rw [value_of_lt ha, value_of_lt hb]
    exact mul_nonneg (magValue_nonneg _) (magValue_nonneg _)
  rw [fmul_finite (isFinite_of_lt ha) (isFinite_of_lt hb), hsa, hsb]
  exact toNat_roundQ hnonneg

/-- Multiplying by a nonnegative value is monotone, rounding included. -/
theorem toNat_fmul_mono {a b c : Word} (h : a.toNat ≤ b.toNat) (hb : b.toNat < infMagnitude)
    (hc : c.toNat < infMagnitude) : (fmul a c).toNat ≤ (fmul b c).toNat := by
  have ha := h.trans_lt hb
  rw [toNat_fmul ha hc, toNat_fmul hb hc, value_of_lt ha, value_of_lt hb, value_of_lt hc]
  exact roundRat_mono (mul_nonneg (magValue_nonneg _) (magValue_nonneg _))
    (mul_le_mul_of_nonneg_right (magValue_mono h hb) (magValue_nonneg _))

/-- The clamped value lies between the two bounds, so the shape lies between their shapes. -/
theorem shapeOfRaw_ok (raw : Word) : ShapeOk (shapeOfRaw raw) := by
  obtain ⟨hlo, hhi⟩ := toNat_mem_of_inRange (by decide) (by decide) (by decide)
    (inRange_fclamp (lo := shapeRawLo) (hi := shapeRawHi) (by decide) raw)
  have hfin : (fclamp raw shapeRawLo shapeRawHi).toNat < infMagnitude := hhi.trans_lt (by decide)
  have hleast : fmul shapeRawLo shapeScale = 0x3C23D70B#32 := by decide
  have hgreatest : fmul shapeRawHi shapeScale = 0x3F7D70A3#32 := by decide
  have hge := toNat_fmul_mono (c := shapeScale) hlo hfin (by decide)
  have hle := toNat_fmul_mono (c := shapeScale) hhi (by decide) (by decide)
  rw [hleast] at hge
  rw [hgreatest] at hle
  exact ⟨hge, hle⟩

theorem shapeOfRaw_of_isNaN {raw : Word} (h : isNaN raw = true) : shapeOfRaw raw = 0x3C23D70B#32 := by
  rw [shapeOfRaw, fclamp_of_isNaN _ _ h]
  decide

/-- Settles O38: MAP's shape on an active lane, the map's range, and the rule's examples by evaluation. -/
theorem shapeOfTheInputs : Obligations.ShapeOfTheInputs := by
  refine ⟨fun s i hactive => ⟨_, exec_step s, ?_⟩, fun raw => ⟨shapeOfRaw_ok raw, shapeOfRaw_of_isNaN⟩,
    by decide⟩
  rw [lane_after_step_of_active hactive, stepLane_shape]
  rfl

end Sys2Proof.Proofs.Mapper
end

section
/-! PROOFS. Rounding to nearest over the reals: what `RoundsTo` asks of the midpoints, the count of spacings that meets
it, and RN32 of a rational (rule R12). -/

namespace Sys2Proof.Proofs.NearestRounding

open Sys2Proof Sys2Proof.Machine Sys2Proof.Safety Sys2Proof.Laws
open Sys2Proof.Proofs.RoundingError Sys2Proof.Proofs.NaiveSample

/-! ### The midpoints -/

theorem strictMono_magValue : StrictMono magValue :=
  strictMono_nat_of_lt_succ fun m => by
    rw [magValue_succ]
    exact lt_add_of_pos_right _ (by positivity)

theorem magValue_cast_lt {a b : ℕ} (h : a < b) : (magValue a : ℝ) < magValue b := by
  exact_mod_cast strictMono_magValue h

theorem magValue_cast_le {a b : ℕ} (h : a ≤ b) : (magValue a : ℝ) ≤ magValue b := by
  exact_mod_cast strictMono_magValue.monotone h

/-- The value at which RN32 overflows. -/
theorem magValue_infMagnitude : magValue infMagnitude = 2 ^ (128 : ℤ) := by norm_num [magValue, infMagnitude]

theorem two_zpow_cast (n : ℤ) : (((2 : ℚ) ^ n : ℚ) : ℝ) = 2 ^ n := by push_cast; rfl

section Nearer

variable {v w x : ℝ} {even : Prop}

theorem abs_sub_lt_iff_of_lt (h : w < v) : |v - x| < |w - x| ↔ w + v < 2 * x := by
  have hfactor : (w - x) ^ 2 - (v - x) ^ 2 = (v - w) * (2 * x - (w + v)) := by ring
  rw [← sq_lt_sq, ← sub_pos, hfactor, mul_pos_iff_of_pos_left (sub_pos.2 h), sub_pos]

theorem abs_sub_eq_iff_of_lt (h : w < v) : |v - x| = |w - x| ↔ w + v = 2 * x := by
  rw [abs_eq_abs]
  constructor
  · rintro (h' | h') <;> linarith
  · intro h'
    exact .inr (by linarith)

/-- `v` is preferred to the smaller `w` when `x` is past their midpoint, or on it with `v` even. -/
theorem preferred_iff_of_lt (h : w < v) :
    (|v - x| < |w - x| ∨ (|v - x| = |w - x| ∧ even)) ↔ w + v ≤ 2 * x ∧ (w + v = 2 * x → even) := by
  rw [abs_sub_lt_iff_of_lt h, abs_sub_eq_iff_of_lt h, le_iff_lt_or_eq]
  constructor
  · rintro (hlt | ⟨heq, heven⟩)
    · exact ⟨.inl hlt, fun heq => absurd heq hlt.ne⟩
    · exact ⟨.inr heq, fun _ => heven⟩
  · rintro ⟨hlt | heq, htie⟩
    · exact .inl hlt
    · exact .inr ⟨heq, htie heq⟩

/-- The same for the larger `w`, by reflection. -/
theorem preferred_iff_of_gt (h : v < w) :
    (|v - x| < |w - x| ∨ (|v - x| = |w - x| ∧ even)) ↔ 2 * x ≤ w + v ∧ (w + v = 2 * x → even) := by
  have hreflect := preferred_iff_of_lt (x := -x) (even := even) (neg_lt_neg h)
  rw [neg_sub_neg, neg_sub_neg, abs_sub_comm x v, abs_sub_comm x w] at hreflect
  refine hreflect.trans (and_congr ⟨fun h => ?_, fun h => ?_⟩ (imp_congr_left ⟨fun h => ?_, fun h => ?_⟩))
  all_goals linarith

end Nearer

/-- `RoundsTo` in terms of the midpoints between `m` and the other magnitudes. -/
theorem roundsTo_iff {x : ℝ} {m : ℕ} : RoundsTo x m ↔ m ≤ infMagnitude ∧
    (∀ k < m, (magValue k : ℝ) + magValue m ≤ 2 * x ∧ ((magValue k : ℝ) + magValue m = 2 * x → m % 2 = 0)) ∧
    (∀ k ≤ infMagnitude, m < k →
      2 * x ≤ magValue k + magValue m ∧ ((magValue k : ℝ) + magValue m = 2 * x → m % 2 = 0)) := by
  refine and_congr_right fun hm =>
    ⟨fun h => ⟨fun k hk => ?_, fun k hinf hk => ?_⟩, fun ⟨hlo, hhi⟩ k hinf hk => ?_⟩
  · exact (preferred_iff_of_lt (magValue_cast_lt hk)).1 (h k (hk.le.trans hm) hk.ne)
  · exact (preferred_iff_of_gt (magValue_cast_lt hk)).1 (h k hinf hk.ne')
  · rcases hk.lt_or_gt with hlt | hgt
    · exact (preferred_iff_of_lt (magValue_cast_lt hlt)).2 (hlo k hlt)
    · exact (preferred_iff_of_gt (magValue_cast_lt hgt)).2 (hhi k hinf hgt)

/-- Rounding to nearest is monotone. -/
theorem roundsTo_mono {x y : ℝ} {m n : ℕ} (hm : RoundsTo x m) (hn : RoundsTo y n) (h : x ≤ y) : m ≤ n := by
  obtain ⟨hminf, hlo, -⟩ := roundsTo_iff.1 hm
  obtain ⟨-, -, hhi⟩ := roundsTo_iff.1 hn
  by_contra hlt
  obtain ⟨hxge, hmeven⟩ := hlo n (not_le.1 hlt)
  obtain ⟨hyle, hneven⟩ := hhi m hminf (not_le.1 hlt)
  have hnext : n + 1 < m := by
    have := hmeven (by linarith)
    have := hneven (by linarith)
    omega
  have hstep := magValue_cast_lt (Nat.lt_succ_self n)
  linarith [(hlo (n + 1) hnext).1]

/-! ### What RoundsTo takes to be nearest -/

/-- From `2 ^ 128` on RN32 is the infinity. -/
theorem roundsTo_infMagnitude {x : ℝ} (h : 2 ^ (128 : ℤ) ≤ x) : RoundsTo x infMagnitude := by
  have hinf : (magValue infMagnitude : ℝ) = 2 ^ (128 : ℤ) := by rw [magValue_infMagnitude, two_zpow_cast]
  refine roundsTo_iff.2 ⟨le_rfl, fun k hk => ?_, fun k hk hgt => absurd hk hgt.not_ge⟩
  have hbelow := magValue_cast_lt hk
  exact ⟨by linarith, fun htie => by linarith⟩

section Count

variable {q : ℤ} {c : ℕ}

theorem magValue_of_count_cast (hq : -149 ≤ q) (hc : c ≤ 2 ^ 24) (hnormal : q = -149 ∨ 2 ^ 23 ≤ c) :
    (magValue ((q + 149).toNat * 2 ^ 23 + c) : ℝ) = c * 2 ^ q := by
  rw [magValue_of_count hq hc hnormal]
  push_cast
  rfl

/-- The magnitude after `c` spacings of `2 ^ q` is worth at least one spacing more. -/
theorem le_magValue_of_count_succ (hq : -149 ≤ q) (hc : c ≤ 2 ^ 24) (hnormal : q = -149 ∨ 2 ^ 23 ≤ c) :
    ((c : ℝ) + 1) * 2 ^ q ≤ magValue ((q + 149).toNat * 2 ^ 23 + c + 1) := by
  rcases hc.lt_or_eq with hlt | rfl
  · have hnext := magValue_of_count_cast (c := c + 1) hq hlt (by omega)
    rw [add_assoc, hnext]
    push_cast
    rfl
  · have hcarry : (q + 149).toNat * 2 ^ 23 + 2 ^ 24 + 1 = (q + 1 + 149).toNat * 2 ^ 23 + (2 ^ 23 + 1) := by omega
    rw [hcarry, magValue_of_count_cast (by omega) (by norm_num) (.inr (by norm_num)), zpow_add_one₀ (by norm_num)]
    have hpos : (0 : ℝ) < 2 ^ q := by positivity
    push_cast
    linarith

variable {k : ℕ} {y : ℝ}

/-- A value at least half a spacing past the count before is past the midpoint to every smaller magnitude. At the least
count of a binade the spacing below is finer, so there the value must not lie below the count. -/
theorem midpoint_le_of_lt_count (hq : -149 ≤ q) (hc : c ≤ 2 ^ 24) (hnormal : q = -149 ∨ (2 ^ 23 ≤ c ∧ 2 ^ 23 ≤ y))
    (hge : c - 1 / 2 ≤ y) (hk : k < (q + 149).toNat * 2 ^ 23 + c) :
    (magValue k : ℝ) + c * 2 ^ q ≤ 2 * (y * 2 ^ q) ∧
      ((magValue k : ℝ) + c * 2 ^ q = 2 * (y * 2 ^ q) → y = c - 1 / 2 ∨ c % 2 = 0) := by
  have hpos : (0 : ℝ) < 2 ^ q := by positivity
  have hbinade : (q ≠ -149 ∧ c = 2 ^ 23) ∨ (1 ≤ c ∧ (q = -149 ∨ 2 ^ 23 ≤ c - 1)) := by omega
  rcases hbinade with ⟨hq0, rfl⟩ | ⟨hc1, hnormal'⟩
  · have hbelow := magValue_cast_lt hk
    rw [magValue_of_count_cast hq hc (.inr le_rfl)] at hbelow
    have hy : (2 ^ 23 : ℝ) ≤ y := (hnormal.resolve_left hq0).2
    have hx : ((2 ^ 23 : ℕ) : ℝ) * 2 ^ q ≤ y * 2 ^ q := by gcongr; exact_mod_cast hy
    exact ⟨by linarith, fun _ => .inr (by norm_num)⟩
  · have hbelow := magValue_cast_le (show k ≤ (q + 149).toNat * 2 ^ 23 + (c - 1) by omega)
    rw [magValue_of_count_cast hq (by omega) hnormal', Nat.cast_sub hc1, Nat.cast_one] at hbelow
    have hmid : (2 * c - 1 : ℝ) * 2 ^ q ≤ 2 * y * 2 ^ q := by gcongr; linarith
    refine ⟨by linarith, fun htied => .inl ?_⟩
    have hy := mul_right_cancel₀ hpos.ne' (show (2 * c - 1 : ℝ) * 2 ^ q = 2 * y * 2 ^ q by linarith)
    linarith

/-- A value at most half a spacing above the count is below the midpoint to every larger magnitude. -/
theorem le_midpoint_of_count_lt (hq : -149 ≤ q) (hc : c ≤ 2 ^ 24) (hnormal : q = -149 ∨ 2 ^ 23 ≤ c)
    (hle : y ≤ c + 1 / 2) (hk : (q + 149).toNat * 2 ^ 23 + c < k) :
    2 * (y * 2 ^ q) ≤ (magValue k : ℝ) + c * 2 ^ q ∧
      ((magValue k : ℝ) + c * 2 ^ q = 2 * (y * 2 ^ q) → y = c + 1 / 2) := by
  have hpos : (0 : ℝ) < 2 ^ q := by positivity
  have habove := (le_magValue_of_count_succ hq hc hnormal).trans (magValue_cast_le (Nat.succ_le_of_lt hk))
  have hmid : 2 * y * 2 ^ q ≤ (2 * c + 1 : ℝ) * 2 ^ q := by gcongr; linarith
  refine ⟨by linarith, fun htied => ?_⟩
  have hy := mul_right_cancel₀ hpos.ne' (show 2 * y * 2 ^ q = (2 * c + 1 : ℝ) * 2 ^ q by linarith)
  linarith

/-- The nearest count of the spacing, ties to even, gives the nearest magnitude. -/
theorem roundsTo_of_count (hq : -149 ≤ q) (hq' : q ≤ 104) (hc : c ≤ 2 ^ 24)
    (hnormal : q = -149 ∨ (2 ^ 23 ≤ c ∧ 2 ^ 23 ≤ y)) (hnear : |y - c| ≤ 1 / 2)
    (htie : |y - c| = 1 / 2 → c % 2 = 0) : RoundsTo (y * 2 ^ q) ((q + 149).toNat * 2 ^ 23 + c) := by
  have hnormal' : q = -149 ∨ 2 ^ 23 ≤ c := hnormal.imp_right And.left
  obtain ⟨hge, hle⟩ := abs_le.1 hnear
  refine roundsTo_iff.2 ⟨by unfold infMagnitude; omega, fun k hk => ?_, fun k _ hk => ?_⟩ <;>
    rw [magValue_of_count_cast hq hc hnormal']
  · obtain ⟨hmid, heq⟩ := midpoint_le_of_lt_count hq hc hnormal (by linarith) hk
    refine ⟨hmid, fun htied => ?_⟩
    have heven : c % 2 = 0 := (heq htied).elim (fun hy => htie (by rw [hy]; norm_num [abs_of_neg])) id
    omega
  · obtain ⟨hmid, heq⟩ := le_midpoint_of_count_lt (y := y) hq hc hnormal' (by linarith) hk
    refine ⟨hmid, fun htied => ?_⟩
    have heven : c % 2 = 0 := htie (by rw [heq htied]; norm_num)
    omega

end Count

/-- Up to `2 ^ -150`, half the least magnitude, RN32 is zero. -/
theorem roundsTo_zero {x : ℝ} (h0 : 0 ≤ x) (h : x ≤ 2 ^ (-150 : ℤ)) : RoundsTo x 0 := by
  have hhalf : x * 2 ^ (149 : ℤ) ≤ 1 / 2 := by
    calc x * 2 ^ (149 : ℤ) ≤ 2 ^ (-150 : ℤ) * 2 ^ (149 : ℤ) := by gcongr
      _ = 1 / 2 := by norm_num
  have hcount := roundsTo_of_count (q := -149) (c := 0) (y := x * 2 ^ (149 : ℤ)) le_rfl (by norm_num) (by norm_num)
    (.inl rfl) (by rw [Nat.cast_zero, sub_zero, abs_of_nonneg (by positivity)]; exact hhalf) (fun _ => rfl)
  rwa [mul_assoc, ← zpow_add₀ (by norm_num), add_neg_cancel, zpow_zero, mul_one] at hcount

/-! ### RN32 of a rational -/

theorem abs_sub_nearestEven {y : ℚ} (hy : 0 ≤ y) :
    |y - nearestEven y| ≤ 1 / 2 ∧ (|y - nearestEven y| = 1 / 2 → nearestEven y % 2 = 0) := by
  have hfloor : (⌊y⌋₊ : ℚ) ≤ y := Nat.floor_le hy
  have hlt : y < ⌊y⌋₊ + 1 := Nat.lt_floor_add_one y
  unfold nearestEven
  split_ifs with h
  · have hfrac : 1 / 2 ≤ y - ⌊y⌋₊ := h.elim le_of_lt fun h => h.1.ge
    rw [Nat.cast_add_one, abs_of_nonpos (by linarith)]
    refine ⟨by linarith, fun htie => ?_⟩
    rcases h with h | ⟨-, h⟩
    · linarith
    · omega
  · obtain ⟨hnot, hodd⟩ := not_or.1 h
    rw [abs_of_nonneg (by linarith)]
    exact ⟨not_lt.1 hnot, fun htie => by have := not_and.1 hodd htie; omega⟩

theorem abs_sub_nearestEven_cast {y : ℚ} (hy : 0 ≤ y) :
    |(y : ℝ) - nearestEven y| ≤ 1 / 2 ∧ (|(y : ℝ) - nearestEven y| = 1 / 2 → nearestEven y % 2 = 0) := by
  have hhalf : ((1 / 2 : ℚ) : ℝ) = 1 / 2 := by norm_num
  rw [← Rat.cast_natCast, ← Rat.cast_sub, ← Rat.cast_abs, ← hhalf, Rat.cast_le, Rat.cast_inj]
  exact abs_sub_nearestEven hy

/-- `roundRat` is RN32. -/
theorem roundsTo_roundRat {x : ℚ} (hx : 0 ≤ x) : RoundsTo (x : ℝ) (roundRat x) := by
  rcases hx.eq_or_lt with rfl | hpos
  · have hzero : roundRat 0 = 0 := if_pos rfl
    rw [hzero, Rat.cast_zero]
    exact roundsTo_zero le_rfl (by positivity)
  by_cases hover : 127 < Int.log 2 x
  · have hinf : roundRat x = infMagnitude := by rw [roundRat, if_neg hpos.ne', if_pos hover]
    have hle : (2 : ℚ) ^ (128 : ℤ) ≤ x :=
      (zpow_le_zpow_right₀ (by norm_num) (by omega)).trans (log_zpow_le hpos)
    rw [hinf]
    exact roundsTo_infMagnitude ((two_zpow_cast 128).symm.trans_le (Rat.cast_le.2 hle))
  by_cases hunder : Int.log 2 x < -150
  · have hzero : roundRat x = 0 := by rw [roundRat, if_neg hpos.ne', if_neg hover, if_pos hunder]
    have hle : x ≤ (2 : ℚ) ^ (-150 : ℤ) :=
      (lt_log_zpow x).le.trans (zpow_le_zpow_right₀ (by norm_num) (by omega))
    rw [hzero]
    exact roundsTo_zero (Rat.cast_nonneg.2 hx) ((Rat.cast_le.2 hle).trans_eq (two_zpow_cast _))
  have hcount : x / 2 ^ spacing x * 2 ^ spacing x = x := div_mul_cancel₀ _ (by positivity)
  obtain ⟨hnear, htie⟩ := abs_sub_nearestEven_cast (y := x / 2 ^ spacing x) (by positivity)
  have hnormal : spacing x = -149 ∨ (2 ^ 23 ≤ nearestEven (x / 2 ^ spacing x) ∧ 2 ^ 23 ≤ x / 2 ^ spacing x) := by
    by_cases hlog : -126 ≤ Int.log 2 x
    · refine .inr ⟨le_nearestEven_of_normal hpos hlog, (le_div_iff₀ (by positivity)).2 ?_⟩
      have hspacing : spacing x = Int.log 2 x - 23 := max_eq_left (by omega)
      calc (2 : ℚ) ^ 23 * 2 ^ spacing x = 2 ^ Int.log 2 x := by
            rw [hspacing, zpow_sub₀ (by norm_num)]; norm_num; ring
        _ ≤ x := log_zpow_le hpos
    · exact .inl (max_eq_right (by omega))
  have hround := roundsTo_of_count (q := spacing x) (c := nearestEven (x / 2 ^ spacing x))
    (y := ((x / 2 ^ spacing x : ℚ) : ℝ)) (le_max_right _ _) (max_le (by omega) (by norm_num))
    (nearestEven_le_two_pow x) (hnormal.imp_right fun ⟨h1, h2⟩ => ⟨h1, by exact_mod_cast h2⟩)
    hnear htie
  rwa [← two_zpow_cast, ← Rat.cast_mul, hcount, ← roundRat_mid hpos (by omega) (by omega)] at hround

theorem isRN32_roundQ (zneg : Bool) {x : ℚ} (hx : x ≠ 0) : IsRN32 (x : ℝ) (roundQ zneg x) := by
  obtain ⟨hmag, hsign⟩ := withSign_fields (if x = 0 then zneg else decide (x < 0))
    ((roundRat_le_inf (abs_nonneg x)).trans_lt (by decide))
  refine ⟨?_, ?_⟩
  · rw [roundQ, hsign, if_neg hx]
    simp
  · rw [roundQ, hmag, ← Rat.cast_abs]
    exact roundsTo_roundRat (abs_nonneg x)

end Sys2Proof.Proofs.NearestRounding
end

section
/-! PROOFS. EXP2 in mode TAYLOR5: the fraction and the scaling as roundings of their exact values, the polynomial's
range, and the statement about it (rule R204). -/

namespace Sys2Proof.Proofs.TaylorExp2

open Sys2Proof Sys2Proof.Machine Sys2Proof.Config Sys2Proof.Safety Sys2Proof.Laws
open Sys2Proof.Proofs.Registers Sys2Proof.Proofs.RoundingError Sys2Proof.Proofs.PhaseAccumulator
open Sys2Proof.Proofs.NaiveSample Sys2Proof.Proofs.NearestRounding

/-! ### The fraction -/

theorem roundQ_zero : roundQ false 0 = 0#32 := by
  rw [roundQ, if_pos rfl, abs_zero, roundRat, if_pos rfl]
  rfl

/-- `fracPart` is the exact difference from the floor, rounded once. -/
theorem fracPart_eq {x : Word} (h : isFinite x = true) : fracPart x = roundQ false (value x - ⌊value x⌋) := by
  have hfloor := floorInt_eq_floor h
  rw [floorInt, if_pos h] at hfloor
  rw [← hfloor, value]
  unfold fracPart
  dsimp only
  generalize signedSignificand x = z
  generalize ulpExponent x = e
  split_ifs with he
  · obtain ⟨n, rfl⟩ := Int.eq_ofNat_of_zero_le he
    simp [roundQ_zero]
  · obtain ⟨n, hn⟩ := Int.eq_ofNat_of_zero_le (show 0 ≤ -e by omega)
    obtain rfl : e = -(n : ℤ) := by omega
    have hdiv : (z : ℚ) = 2 ^ n * (z / 2 ^ n : ℤ) + (z % 2 ^ n : ℤ) := by
      exact_mod_cast (Int.mul_ediv_add_emod z (2 ^ n)).symm
    rw [neg_neg, Int.toNat_natCast, rn32Int_eq]
    congr 1
    rw [zpow_neg, zpow_natCast]
    field_simp
    linarith

theorem fract_value_mem (x : Word) : 0 ≤ value x - ⌊value x⌋ ∧ value x - ⌊value x⌋ ≤ 1 :=
  ⟨Int.fract_nonneg (value x), (Int.fract_lt_one (value x)).le⟩

theorem within_fracPart {x : Word} (h : isFinite x = true) : Within 0 1 (fracPart x) := by
  obtain ⟨hge, hle⟩ := fract_value_mem x
  rw [fracPart_eq h]
  exact within_roundQ false representable_zero representable_one hge hle

theorem significand_lt (w : Word) : significand w < 2 ^ 24 := by
  have := fracField_eq w
  unfold significand
  split_ifs <;> omega

/-- The fraction of a value that is not negative keeps low bits of the significand, so it is a binary32 value. -/
theorem representable_fract {x : Word} (h0 : 0 ≤ value x) : Representable (value x - ⌊value x⌋) := by
  have hz : 0 ≤ signedSignificand x := by
    have hq : (0 : ℚ) ≤ signedSignificand x := nonneg_of_mul_nonneg_left h0 (by positivity)
    exact_mod_cast hq
  have hlt : signedSignificand x < 2 ^ 24 := by
    have := significand_lt x
    unfold signedSignificand
    split_ifs <;> omega
  have hulp : -149 ≤ ulpExponent x := by unfold ulpExponent; omega
  change Representable (Int.fract (value x))
  rw [value]
  generalize ulpExponent x = e at hulp
  obtain ⟨k, hk⟩ := Int.eq_ofNat_of_zero_le hz
  rw [hk] at hlt ⊢
  rcases le_or_gt 0 e with he | he
  · obtain ⟨n, rfl⟩ := Int.eq_ofNat_of_zero_le he
    have hint : ((k : ℤ) : ℚ) * 2 ^ (n : ℤ) = ((k * 2 ^ n : ℤ) : ℚ) := by rw [zpow_natCast]; push_cast; rfl
    rw [hint, Int.fract_intCast]
    exact representable_zero
  · obtain ⟨n, hn⟩ := Int.eq_ofNat_of_zero_le (show 0 ≤ -e by omega)
    obtain rfl : e = -(n : ℤ) := by omega
    have hfract : Int.fract (((k : ℤ) : ℚ) * 2 ^ (-(n : ℤ))) = ((k % 2 ^ n : ℕ) : ℚ) / 2 ^ n := by
      have := Int.fract_div_natCast_eq_div_natCast_mod (k := ℚ) (m := k) (n := 2 ^ n)
      rw [Nat.cast_pow, Nat.cast_ofNat] at this
      rw [zpow_neg, zpow_natCast, ← div_eq_mul_inv, Int.cast_natCast, this]
    exact representable_of_eq (k % 2 ^ n) n hfract ((Nat.mod_le _ _).trans_lt (by omega)) (by omega)

/-- A rounding keeps a binary32 value. -/
theorem value_roundQ_of_representable (zneg : Bool) {q : ℚ} (h : Representable q) : value (roundQ zneg q) = q :=
  have hin := within_roundQ zneg h h le_rfl le_rfl
  le_antisymm hin.le hin.ge

/-! ### The scaling -/

/-- `ldexp32` is the scaled value, rounded once; a zero keeps its sign. -/
theorem ldexp32_eq {w : Word} (h : isFinite w = true) (n : ℤ) :
    ldexp32 w n = roundQ (signBit w) (value w * 2 ^ n) := by
  have hpos : (0 : ℚ) < 2 ^ n := by positivity
  rw [ldexp32, if_pos h, rn32_eq _ _ _ _ one_pos, roundQ, abs_mul, abs_value, abs_of_pos hpos,
    ← significand_mul_eq_magValue, zpow_add₀ (by norm_num), Nat.cast_one, div_one, mul_assoc]
  congr 1
  split_ifs with h0
  · rfl
  · rw [← value_neg_iff w (left_ne_zero_of_mul h0), decide_eq_decide, mul_neg_iff]
    simp [hpos, hpos.not_gt]

/-! ### The polynomial -/

theorem representable_natCast {n : ℕ} (h : n < 2 ^ 24) : Representable n := representable_of_eq n 0 (by norm_num) h

/-- The words from +0.0 to 1.0, the coefficients among them. -/
theorem within_unit_of_toNat_le {t : Word} (h : t.toNat ≤ 0x3F800000) : Within 0 1 t := by
  have hinf : t.toNat < infMagnitude := h.trans_lt (by decide)
  refine ⟨isFinite_of_lt hinf, ?_, ?_⟩ <;> rw [value_of_lt hinf]
  · exact magValue_nonneg _
  · exact (magValue_mono h (by decide)).trans_eq magValue_one

/-- One step of Horner's rule at a fraction: the value grows by at most 1 and is at least the coefficient. -/
theorem within_horner {fr p t : Word} {n : ℕ} (hn : n < 2 ^ 23) (hfr : Within 0 1 fr) (hp : Within 0 n p)
    (ht : t.toNat ≤ 0x3F800000) : Within (value t) (n + 1 : ℕ) (fadd (fmul fr p) t) := by
  have ht := within_unit_of_toNat_le ht
  have hmul : Within 0 n (fmul fr p) :=
    within_fmul hfr.finite hp.finite representable_zero (representable_natCast (by omega)) (mul_nonneg hfr.ge hp.ge)
      ((mul_le_of_le_one_left hp.ge hfr.le).trans hp.le)
  refine within_fadd hmul.finite ht.finite (representable_value ht.finite) (representable_natCast (by omega))
    (le_add_of_nonneg_left hmul.ge) ?_
  push_cast
  exact add_le_add hmul.le ht.le

/-- The step with the coefficient's own size forgotten. -/
theorem within_horner_nonneg {fr p t : Word} {n : ℕ} (hn : n < 2 ^ 23) (hfr : Within 0 1 fr) (hp : Within 0 n p)
    (ht : t.toNat ≤ 0x3F800000) : Within 0 (n + 1 : ℕ) (fadd (fmul fr p) t) :=
  (within_horner hn hfr hp ht).mono (within_unit_of_toNat_le ht).ge le_rfl

/-- The last coefficient is 1.0, so the polynomial is at least 1. -/
theorem within_taylorPoly {fr : Word} (hfr : Within 0 1 fr) : Within 1 6 (taylorPoly fr) := by
  have hp5 : Within 0 (1 : ℕ) taylorT5 := by simpa using within_unit_of_toNat_le (t := taylorT5) (by decide)
  have hp4 := within_horner_nonneg (t := 0x3C1D955B#32) (by norm_num) hfr hp5 (by decide)
  have hp3 := within_horner_nonneg (t := 0x3D635847#32) (by norm_num) hfr hp4 (by decide)
  have hp2 := within_horner_nonneg (t := 0x3E75FDF0#32) (by norm_num) hfr hp3 (by decide)
  have hp1 := within_horner_nonneg (t := 0x3F317218#32) (by norm_num) hfr hp2 (by decide)
  have hp0 := within_horner (t := 0x3F800000#32) (by norm_num) hfr hp1 (by decide)
  exact hp0.mono value_one.ge (by norm_num)

/-! ### EXP2 by its argument (rules R204, R205) -/

/-- An encoding that is no NaN is finite or one of the infinities. -/
theorem isFinite_or_eq_inf {w : Word} (h : isNaN w = false) :
    isFinite w = true ∨ w = 0x7F800000#32 ∨ w = 0xFF800000#32 := by
  have hnan : ¬ infMagnitude < magnitude w := fun hlt => by simp [(isNaN_iff w).2 hlt] at h
  rw [isFinite_iff]
  rcases (not_lt.1 hnan).lt_or_eq with hlt | heq
  · exact .inl hlt
  · have hword := toNat_eq w
    rw [heq] at hword
    cases hsign : signBit w <;> rw [hsign] at hword
    · exact .inr (.inl (BitVec.eq_of_toNat_eq hword))
    · exact .inr (.inr (BitVec.eq_of_toNat_eq hword))

theorem exp2_of_isNaN (p : Params) {x : Word} (h : isNaN x = true) : exp2 p x = 0#32 := if_pos h

theorem exp2_posInf (p : Params) : exp2 p 0x7F800000#32 = 0x7F800000#32 := rfl

theorem exp2_negInf (p : Params) : exp2 p 0xFF800000#32 = 0#32 := rfl

theorem exp2_of_taylor5 {p : Params} (hp : p.exp2Mode = .taylor5) {x : Word} (h : isFinite x = true) :
    exp2 p x = exp2Taylor x := by
  simp [exp2, not_isNaN_of_isFinite h, not_isInf_of_isFinite h, hp]

theorem roundRat_of_overflow {x : ℚ} (h : (2 : ℚ) ^ (128 : ℤ) ≤ x) : roundRat x = infMagnitude := by
  have hpos : 0 < x := lt_of_lt_of_le (by positivity) h
  have hlog : 128 ≤ Int.log 2 x := (Int.zpow_le_iff_le_log (by norm_num) hpos).1 (by exact_mod_cast h)
  rw [roundRat, if_neg hpos.ne', if_pos (by omega)]

/-- From 128 on the scaled polynomial overflows. -/
theorem exp2Taylor_of_le {x : Word} (h : isFinite x = true) (hx : 128 ≤ value x) : exp2Taylor x = 0x7F800000#32 := by
  have hfloor : 128 ≤ ⌊value x⌋ := Int.le_floor.2 (by exact_mod_cast hx)
  have hpoly := within_taylorPoly (within_fracPart h)
  have hpow : (2 : ℚ) ^ (128 : ℤ) ≤ 2 ^ ⌊value x⌋ := zpow_le_zpow_right₀ (by norm_num) hfloor
  have hover : (2 : ℚ) ^ (128 : ℤ) ≤ value (taylorPoly (fracPart x)) * 2 ^ ⌊value x⌋ :=
    hpow.trans (le_mul_of_one_le_left (by positivity) hpoly.ge)
  have hpos : 0 < value (taylorPoly (fracPart x)) * 2 ^ ⌊value x⌋ := lt_of_lt_of_le (by positivity) hover
  rw [exp2Taylor, floorInt_eq_floor h, ldexp32_eq hpoly.finite, roundQ, if_neg hpos.ne', abs_of_pos hpos,
    roundRat_of_overflow hover, decide_eq_false hpos.not_gt]
  rfl

/-- The examples of rule R204. -/
theorem exp2Taylor_examples :
    exp2Taylor 0x42FE0000#32 = 0x7F000000#32 ∧ exp2Taylor 0xC3150000#32 = 0x00000001#32 ∧
    exp2Taylor 0xC3160000#32 = 0#32 ∧ exp2Taylor 0xB089705F#32 = 0x3F7FFA68#32 ∧
    exp2Taylor 0x3F000000#32 = 0x3FB504DE#32 ∧ exp2Taylor 0x3DAAAAAB#32 = 0x3F879C7D#32 ∧
    exp2Taylor 0x40900000#32 = 0x41B504DE#32 ∧ exp2Taylor 0xC0900000#32 = 0x3D3504DE#32 := by
  decide +kernel

theorem exp2_of_128_le {p : Params} (hp : p.exp2Mode = .taylor5) {x : Word} (h : fle 0x43000000#32 x = true) :
    exp2 p x = 0x7F800000#32 := by
  obtain ⟨-, hnan, -⟩ := (fle_iff _ _).1 h
  rcases isFinite_or_eq_inf hnan with hfin | rfl | rfl
  · have h128 : value 0x43000000#32 = 128 := (value_of_lt (by decide)).trans (by norm_num [magValue])
    rw [exp2_of_taylor5 hp hfin]
    exact exp2Taylor_of_le hfin (h128.symm.trans_le ((fle_iff_value_le (by decide) hfin).1 h))
  · rfl
  · exact absurd h (by decide)

/-! ### The statement -/

/-- Settles O58: EXP2 as the scaled polynomial with its corners and examples, the fraction, and the scaling. -/
theorem taylorExp2IsTheHornerPolynomial : Obligations.TaylorExp2IsTheHornerPolynomial := by
  refine ⟨fun p x hp => ⟨fun hfin => ?_, exp2_of_isNaN p, exp2_negInf p, exp2_posInf p, exp2_of_128_le hp, ?_⟩,
    fun x hfin => ⟨fun h0 => ?_, fun h0 => ?_, ?_, fun hx => ?_⟩, fun w n hfin h0 => ?_⟩
  · rw [exp2_of_taylor5 hp hfin, exp2Taylor, floorInt_eq_floor hfin]
    rfl
  · simp (disch := decide) only [exp2_of_taylor5 hp]
    exact exp2Taylor_examples
  · rw [fracPart_eq hfin, h0, roundQ_zero]
  · rw [fracPart_eq hfin]
    exact isRN32_roundQ false h0
  · have hzero : value 0#32 = 0 := (value_of_lt (by decide)).trans (by simp [magValue])
    exact ((within_fracPart hfin).mono hzero.le value_one.ge).inRange (by decide) (by decide)
  · rw [fracPart_eq hfin]
    exact value_roundQ_of_representable false (representable_fract hx)
  · rw [ldexp32_eq hfin]
    exact isRN32_roundQ _ (mul_ne_zero h0 (by positivity))

end Sys2Proof.Proofs.TaylorExp2
end

section
/-! PROOFS. EXP2 in mode EXACT: the bounds on a power decide a comparison with a power of two, the count of spacings is
the nearest one, and the statement about it (rule R205, log entry 11). -/

namespace Sys2Proof.Proofs.ExactExp2

open Sys2Proof Sys2Proof.Machine Sys2Proof.Config Sys2Proof.Safety Sys2Proof.Laws
open Sys2Proof.Proofs.Registers Sys2Proof.Proofs.RoundingError Sys2Proof.Proofs.PhaseAccumulator
open Sys2Proof.Proofs.NaiveSample Sys2Proof.Proofs.NearestRounding Sys2Proof.Proofs.TaylorExp2

/-! ### Bounds on a repeatedly squared number -/

/-- The relative distance of the bounds that `k` squarings allow. -/
def slack (k : ℕ) : ℚ := (2 ^ k - 1) / 2 ^ 190

theorem slack_succ (k : ℕ) : slack (k + 1) = 2 * slack k + 1 / 2 ^ 190 := by
  unfold slack
  ring

theorem slack_nonneg (k : ℕ) : 0 ≤ slack k :=
  div_nonneg (sub_nonneg.2 (one_le_pow₀ (by norm_num))) (by positivity)

theorem slack_lt_one {k : ℕ} (hk : k ≤ 190) : slack k < 1 := by
  have hpow : (2 : ℚ) ^ k ≤ 2 ^ 190 := pow_le_pow_right₀ (by norm_num) hk
  rw [slack, div_lt_one (by positivity)]
  linarith

/-- The triple `(lo, hi, s)` encloses `c ^ 2 ^ k`, with `lo` so near `hi` that it stays positive while `k ≤ 190`. -/
structure Encloses (c k lo hi s : ℕ) : Prop where
  lower : lo * 2 ^ s ≤ c ^ 2 ^ k
  upper : c ^ 2 ^ k ≤ hi * 2 ^ s
  near : (hi : ℚ) * (1 - slack k) ≤ lo

theorem encloses_self (c : ℕ) : Encloses c 0 c c 0 := by
  constructor <;> simp [slack]

section Squaring

variable {c k lo hi s : ℕ}

theorem pow_two_pow_succ (c k : ℕ) : c ^ 2 ^ (k + 1) = c ^ 2 ^ k * c ^ 2 ^ k := by
  rw [pow_succ, mul_two, pow_add]

theorem Encloses.lower_sq (h : Encloses c k lo hi s) : lo * lo * 2 ^ (2 * s) ≤ c ^ 2 ^ (k + 1) := by
  rw [pow_two_pow_succ, two_mul, pow_add, mul_mul_mul_comm]
  exact Nat.mul_le_mul h.lower h.lower

theorem Encloses.upper_sq (h : Encloses c k lo hi s) : c ^ 2 ^ (k + 1) ≤ hi * hi * 2 ^ (2 * s) := by
  rw [pow_two_pow_succ, two_mul, pow_add, mul_mul_mul_comm]
  exact Nat.mul_le_mul h.upper h.upper

/-- Squaring doubles the relative distance of the bounds. -/
theorem Encloses.near_sq (h : Encloses c k lo hi s) (hk : k ≤ 190) :
    ((hi * hi : ℕ) : ℚ) * (1 - 2 * slack k) ≤ ((lo * lo : ℕ) : ℚ) := by
  have hsq : ((hi : ℚ) * (1 - slack k)) * (hi * (1 - slack k)) ≤ lo * lo :=
    mul_self_le_mul_self (mul_nonneg hi.cast_nonneg (by linarith [slack_lt_one hk])) h.near
  push_cast
  linarith [mul_self_nonneg ((hi : ℚ) * slack k)]

theorem Encloses.square (h : Encloses c k lo hi s) (hk : k ≤ 190) :
    Encloses c (k + 1) (lo * lo) (hi * hi) (2 * s) where
  lower := h.lower_sq
  upper := h.upper_sq
  near := by
    refine le_trans ?_ (h.near_sq hk)
    rw [slack_succ]
    gcongr
    norm_num

/-- Dropping low bits outwards, with 191 bits left of the upper bound, adds one unit of `2 ^ -190` to the distance. -/
theorem Encloses.square_drop (h : Encloses c k lo hi s) (hk : k < 190) {d : ℕ} (hd : 2 ^ 191 ≤ hi * hi / 2 ^ d) :
    Encloses c (k + 1) (lo * lo / 2 ^ d) (hi * hi / 2 ^ d + 1) (2 * s + d) where
  lower := by
    refine le_trans ?_ h.lower_sq
    rw [add_comm (2 * s), pow_add, ← mul_assoc]
    exact Nat.mul_le_mul_right _ (Nat.div_mul_le_self _ _)
  upper := by
    refine h.upper_sq.trans ?_
    rw [add_comm (2 * s), pow_add, ← mul_assoc]
    refine Nat.mul_le_mul_right _ ?_
    rw [add_one_mul]
    exact (Nat.lt_div_mul_add (by positivity)).le
  near := by
    have hle : ((hi * hi : ℕ) : ℚ) / 2 ^ d * (1 - 2 * slack k) ≤ ((lo * lo : ℕ) : ℚ) / 2 ^ d := by
      rw [div_mul_eq_mul_div]
      gcongr
      exact h.near_sq hk.le
    have hupper : ((hi * hi / 2 ^ d : ℕ) : ℚ) ≤ ((hi * hi : ℕ) : ℚ) / 2 ^ d := by
      simpa using Nat.cast_div_le (α := ℚ) (m := hi * hi) (n := 2 ^ d)
    have hkept : (2 ^ 191 : ℚ) ≤ ((hi * hi : ℕ) : ℚ) / 2 ^ d := le_trans (by exact_mod_cast hd) hupper
    have hlower : ((lo * lo : ℕ) : ℚ) / 2 ^ d ≤ ((lo * lo / 2 ^ d : ℕ) : ℚ) + 1 := by
      rw [div_le_iff₀ (by positivity)]
      have hlt : lo * lo ≤ (lo * lo / 2 ^ d + 1) * 2 ^ d := by
        rw [add_one_mul]
        exact (Nat.lt_div_mul_add (by positivity)).le
      exact_mod_cast hlt
    have hnonneg := slack_nonneg k
    have hnext := slack_succ k
    have hle1 := slack_lt_one (Nat.succ_le_of_lt hk)
    generalize ((hi * hi : ℕ) : ℚ) / 2 ^ d = u at hle hupper hkept
    have hunit : 2 ≤ u * (1 / 2 ^ 190) := by linarith
    calc ((hi * hi / 2 ^ d + 1 : ℕ) : ℚ) * (1 - slack (k + 1)) ≤ (u + 1) * (1 - slack (k + 1)) := by
          push_cast
          gcongr
      _ = u * (1 - 2 * slack k) - u * (1 / 2 ^ 190) + (1 - slack (k + 1)) := by rw [hnext]; ring
      _ ≤ ((lo * lo / 2 ^ d : ℕ) : ℚ) := by linarith

end Squaring

theorem powBounds_encloses (c : ℕ) {k : ℕ} (hk : k ≤ 190) :
    Encloses c k (powBounds c k).1 (powBounds c k).2.1 (powBounds c k).2.2 := by
  induction k with
  | zero => exact encloses_self c
  | succ k ih =>
    have h := ih (by omega)
    rw [powBounds]
    split_ifs with hdrop
    · exact h.square (by omega)
    · refine h.square_drop (by omega) ?_
      generalize (powBounds c k).2.1 * (powBounds c k).2.1 = u at hdrop ⊢
      rw [Nat.le_div_iff_mul_le (by positivity), ← pow_add]
      have hu : u ≠ 0 := fun h0 => hdrop (by rw [h0, Nat.log2_zero])
      have hexp : 191 + (u.log2 + 1 - 192) = u.log2 := by omega
      rw [hexp]
      exact Nat.log2_self_le hu

/-! ### Comparing a power with a power of two -/

section Decision

variable {c k lo hi s : ℕ}

theorem Encloses.lo_pos (h : Encloses c k lo hi s) (hc : 0 < c) (hk : k ≤ 190) : 0 < lo := by
  have hpos : 0 < hi * 2 ^ s := (show 0 < c ^ 2 ^ k by positivity).trans_le h.upper
  have hhi : (0 : ℚ) < hi := by exact_mod_cast Nat.pos_of_mul_pos_right hpos
  have hlo : (0 : ℚ) < lo := lt_of_lt_of_le (mul_pos hhi (sub_pos.2 (slack_lt_one hk))) h.near
  exact_mod_cast hlo

theorem Encloses.two_pow_le (h : Encloses c k lo hi s) (hlo : lo ≠ 0) : 2 ^ (lo.log2 + s) ≤ c ^ 2 ^ k := by
  rw [pow_add]
  exact (Nat.mul_le_mul_right _ (Nat.log2_self_le hlo)).trans h.lower

theorem Encloses.two_pow_lt_of_ne (h : Encloses c k lo hi s) (hlo : lo ≠ 0) (hne : lo ≠ 2 ^ lo.log2) :
    2 ^ (lo.log2 + s) < c ^ 2 ^ k := by
  rw [pow_add]
  exact (Nat.mul_lt_mul_of_pos_right (lt_of_le_of_ne (Nat.log2_self_le hlo) hne.symm) (by positivity)).trans_le h.lower

theorem Encloses.lt_two_pow (h : Encloses c k lo hi s) : c ^ 2 ^ k < 2 ^ (hi.log2 + s + 1) := by
  rw [add_right_comm, pow_add]
  exact h.upper.trans_lt (Nat.mul_lt_mul_of_pos_right Nat.lt_log2_self (by positivity))

theorem powLe_iff_pow (hc : 0 < c) (hk : k ≤ 190) (E : ℤ) :
    powLe c k E = true ↔ 0 ≤ E ∧ c ^ 2 ^ k ≤ 2 ^ E.toNat := by
  have h := powBounds_encloses c hk
  have hlo := (h.lo_pos hc hk).ne'
  have hleast := h.two_pow_le hlo
  have hstrict := h.two_pow_lt_of_ne hlo
  have habove := h.lt_two_pow
  unfold powLe
  dsimp only
  split_ifs with hgt hlt
  · exact iff_of_true rfl ⟨by omega, habove.le.trans (Nat.pow_le_pow_right (by norm_num) (by omega))⟩
  · refine iff_of_false (by simp) fun ⟨hE, hle⟩ => ?_
    rcases hlt with hlt | ⟨heq, hne⟩
    · have hpow : 2 ^ E.toNat < 2 ^ ((powBounds c k).1.log2 + (powBounds c k).2.2) :=
        Nat.pow_lt_pow_right (by norm_num) (by omega)
      exact (hpow.trans_le hleast).not_ge hle
    · have hexp : E.toNat = (powBounds c k).1.log2 + (powBounds c k).2.2 := by omega
      rw [hexp] at hle
      exact (hstrict hne).not_ge hle
  · exact decide_eq_true_iff

end Decision

/-- The real number of which `E` is the binary logarithm times `2 ^ k`. -/
theorem rpow_div_pow (E : ℤ) (k : ℕ) : ((2 : ℝ) ^ ((E : ℝ) / 2 ^ k)) ^ 2 ^ k = 2 ^ E := by
  rw [← Real.rpow_natCast, ← Real.rpow_mul (by norm_num), ← Real.rpow_intCast]
  push_cast
  rw [div_mul_cancel₀ _ (by positivity)]

section Comparison

variable {a c k : ℕ} {E : ℤ}

theorem two_zpow_lt_one_of_neg (h : E < 0) : (2 : ℝ) ^ E < 1 := zpow_lt_one_of_neg₀ (by norm_num) h

theorem natCast_le_two_zpow_iff (ha : 0 < a) : (a : ℝ) ≤ 2 ^ E ↔ 0 ≤ E ∧ a ≤ 2 ^ E.toNat := by
  rcases le_or_gt 0 E with hE | hE
  · obtain ⟨n, rfl⟩ := Int.eq_ofNat_of_zero_le hE
    rw [zpow_natCast, Int.toNat_natCast, and_iff_right hE]
    exact_mod_cast Iff.rfl
  · have hone : (1 : ℝ) ≤ a := by exact_mod_cast ha
    exact iff_of_false (by linarith [two_zpow_lt_one_of_neg hE]) fun h => hE.not_ge h.1

theorem natCast_eq_two_zpow_iff (ha : 0 < a) : (a : ℝ) = 2 ^ E ↔ 0 ≤ E ∧ a = 2 ^ E.toNat := by
  rcases le_or_gt 0 E with hE | hE
  · obtain ⟨n, rfl⟩ := Int.eq_ofNat_of_zero_le hE
    rw [zpow_natCast, Int.toNat_natCast, and_iff_right hE]
    exact_mod_cast Iff.rfl
  · have hone : (1 : ℝ) ≤ a := by exact_mod_cast ha
    exact iff_of_false (by linarith [two_zpow_lt_one_of_neg hE]) fun h => hE.not_ge h.1

/-- `powLe` decides `c ≤ 2 ^ (E / 2 ^ k)`. -/
theorem powLe_iff (hc : 0 < c) (hk : k ≤ 190) : powLe c k E = true ↔ (c : ℝ) ≤ 2 ^ ((E : ℝ) / 2 ^ k) := by
  rw [powLe_iff_pow hc hk, ← natCast_le_two_zpow_iff (by positivity), ← rpow_div_pow E k, Nat.cast_pow,
    pow_le_pow_iff_left₀ (by positivity) (by positivity) (by positivity)]

/-- A root of a power of two that is an integer. -/
theorem natCast_eq_rpow_iff (hc : 0 < c) :
    (c : ℝ) = 2 ^ ((E : ℝ) / 2 ^ k) ↔ 0 ≤ E ∧ c ^ 2 ^ k = 2 ^ E.toNat := by
  rw [← natCast_eq_two_zpow_iff (by positivity), ← rpow_div_pow E k, Nat.cast_pow,
    pow_left_inj₀ (by positivity) (by positivity) (by positivity)]

end Comparison

/-! ### The greatest count -/

/-- After `j` rounds the search has the top `j` bits of the greatest count. -/
theorem greatest_rounds {le : ℕ → Bool} {bits g j : ℕ} (hle : ∀ c, 0 < c → (le c = true ↔ c ≤ g))
    (hg : g < 2 ^ bits) (hj : j ≤ bits) :
    (List.range j).foldl (fun m j => let m' := m + 2 ^ (bits - 1 - j); if le m' then m' else m) 0 =
      g / 2 ^ (bits - j) * 2 ^ (bits - j) := by
  induction j with
  | zero => simp [Nat.div_eq_of_lt hg]
  | succ j ih =>
    rw [List.range_succ, List.foldl_append, ih (by omega)]
    obtain ⟨w, rfl⟩ : ∃ w, bits = w + j + 1 := ⟨bits - j - 1, by omega⟩
    have hw : w + j + 1 - 1 - j = w := by omega
    have hw' : w + j + 1 - (j + 1) = w := by omega
    have hw1 : w + j + 1 - j = w + 1 := by omega
    have hsplit : g / 2 ^ (w + 1) = g / 2 ^ w / 2 := by rw [pow_succ, Nat.div_div_eq_div_mul]
    have hbit : g / 2 ^ w / 2 * 2 ^ (w + 1) + 2 ^ w = (2 * (g / 2 ^ w / 2) + 1) * 2 ^ w := by ring
    simp only [List.foldl_cons, List.foldl_nil, hw, hw', hw1, hsplit, hbit]
    have hiff := hle ((2 * (g / 2 ^ w / 2) + 1) * 2 ^ w) (by positivity)
    rw [← Nat.le_div_iff_mul_le (by positivity)] at hiff
    split_ifs with h
    · congr 1
      have := hiff.1 h
      omega
    · have := mt hiff.2 h
      rw [pow_succ, mul_comm (2 ^ w), ← mul_assoc]
      congr 1
      omega

theorem greatest_eq {le : ℕ → Bool} {bits g : ℕ} (hle : ∀ c, 0 < c → (le c = true ↔ c ≤ g))
    (hg : g < 2 ^ bits) : greatest le bits = g := by
  rw [greatest, greatest_rounds hle hg le_rfl]
  simp

/-! ### The count of spacings -/

/-- `2 ^ (n / 2 ^ k)` counted in spacings of `2 ^ q`. -/
noncomputable def scaledPow (n : ℤ) (k : ℕ) (q : ℤ) : ℝ := 2 ^ ((n : ℝ) / 2 ^ k - q)

/-- Whether `exp2Exact` sees `2 ^ (n / 2 ^ k)` halfway between `m` and `m + 1` spacings of `2 ^ q` (`onMidpoint_iff`). -/
def onMidpoint (n : ℤ) (k : ℕ) (q : ℤ) (m : ℕ) : Bool :=
  k == 0 && decide (0 ≤ n - (q - 1) * 2 ^ k ∧ 2 * m + 1 = 2 ^ (n - (q - 1) * 2 ^ k).toNat)

/-- The count `exp2Exact` takes for `2 ^ (n / 2 ^ k)` in spacings of `2 ^ q` (`exp2Exact_eq`). -/
def exactCount (n : ℤ) (k : ℕ) (q : ℤ) : ℕ :=
  let m := greatest (fun c => powLe c k (n - q * 2 ^ k)) 24
  if powLe (2 * m + 1) k (n - (q - 1) * 2 ^ k) && !(onMidpoint n k q m && m % 2 == 0) then m + 1 else m

section Count

variable {c k m : ℕ} {n q : ℤ}

theorem scaledPow_pos : 0 < scaledPow n k q := Real.rpow_pos_of_pos (by norm_num) _

theorem scaledPow_mul : scaledPow n k q * 2 ^ q = 2 ^ ((n : ℝ) / 2 ^ k) := by
  rw [scaledPow, ← Real.rpow_intCast, ← Real.rpow_add (by norm_num), sub_add_cancel]

/-- Counted in half spacings there are twice as many. -/
theorem scaledPow_sub_one : scaledPow n k (q - 1) = 2 * scaledPow n k q := by
  have hexp : (n : ℝ) / 2 ^ k - (q - 1 : ℤ) = n / 2 ^ k - q + 1 := by push_cast; ring
  rw [scaledPow, hexp, Real.rpow_add_one (by norm_num), mul_comm, scaledPow]

theorem scaledPow_eq : scaledPow n k q = 2 ^ (((n - q * 2 ^ k : ℤ) : ℝ) / 2 ^ k) := by
  rw [scaledPow]
  congr 1
  push_cast
  field_simp

theorem powLe_iff_le_scaledPow (hc : 0 < c) (hk : k ≤ 190) :
    powLe c k (n - q * 2 ^ k) = true ↔ (c : ℝ) ≤ scaledPow n k q := by
  rw [powLe_iff hc hk, scaledPow_eq]

/-- The comparison with the midpoint above `m`. -/
theorem powLe_half_iff (hk : k ≤ 190) :
    powLe (2 * m + 1) k (n - (q - 1) * 2 ^ k) = true ↔ (m : ℝ) + 1 / 2 ≤ scaledPow n k q := by
  rw [powLe_iff_le_scaledPow (by omega) hk, scaledPow_sub_one]
  push_cast
  constructor <;> intro h <;> linarith

/-- A power of two with exponent in lowest terms is on a midpoint only for an integer exponent: otherwise an odd power
would be a power of two. -/
theorem onMidpoint_iff (hlow : k = 0 ∨ n % 2 = 1) :
    onMidpoint n k q m = true ↔ (m : ℝ) + 1 / 2 = scaledPow n k q := by
  have hhalf : (m : ℝ) + 1 / 2 = scaledPow n k q ↔
      0 ≤ n - (q - 1) * 2 ^ k ∧ (2 * m + 1) ^ 2 ^ k = 2 ^ (n - (q - 1) * 2 ^ k).toNat := by
    rw [← natCast_eq_rpow_iff (by omega), ← scaledPow_eq, scaledPow_sub_one]
    push_cast
    constructor <;> intro h <;> linarith
  rw [hhalf, onMidpoint, Bool.and_eq_true, beq_iff_eq, decide_eq_true_iff]
  constructor
  · rintro ⟨rfl, h⟩
    simpa using h
  · rintro ⟨hge, hpow⟩
    have hk : k = 0 := by
      by_contra hk
      have hodd : Odd ((2 * m + 1) ^ 2 ^ k) := (odd_two_mul_add_one m).pow
      have hexp : (n - (q - 1) * 2 ^ k).toNat = 0 := by
        by_contra hne
        rw [hpow] at hodd
        exact Nat.not_odd_iff_even.2 ((Nat.even_pow.2 ⟨even_two, hne⟩)) hodd
      have heven : (2 : ℤ) ∣ (q - 1) * 2 ^ k := (dvd_pow_self 2 hk).mul_left _
      omega
    subst hk
    exact ⟨rfl, hge, by simpa using hpow⟩

theorem greatest_powLe (hk : k ≤ 190) (hlt : scaledPow n k q < 2 ^ 24) :
    greatest (fun c => powLe c k (n - q * 2 ^ k)) 24 = ⌊scaledPow n k q⌋₊ := by
  refine greatest_eq (fun c hc => ?_) ((Nat.floor_lt scaledPow_pos.le).2 (by exact_mod_cast hlt))
  rw [powLe_iff_le_scaledPow hc hk, Nat.le_floor_iff scaledPow_pos.le]

/-- The count is the floor, raised past the midpoint, and on it when the floor is odd. -/
theorem exactCount_eq (hk : k ≤ 190) (hlow : k = 0 ∨ n % 2 = 1) (hlt : scaledPow n k q < 2 ^ 24)
    (hm : m = ⌊scaledPow n k q⌋₊) :
    (exactCount n k q = m + 1 ∧ (m : ℝ) + 1 / 2 ≤ scaledPow n k q ∧ ((m : ℝ) + 1 / 2 = scaledPow n k q → m % 2 = 1)) ∨
      (exactCount n k q = m ∧ scaledPow n k q ≤ m + 1 / 2 ∧ ((m : ℝ) + 1 / 2 = scaledPow n k q → m % 2 = 0)) := by
  have hpast := powLe_half_iff (n := n) (q := q) (m := m) hk
  have htie := onMidpoint_iff (q := q) (m := m) hlow
  unfold exactCount
  rw [greatest_powLe hk hlt, ← hm]
  dsimp only
  generalize powLe (2 * m + 1) k (n - (q - 1) * 2 ^ k) = past at hpast ⊢
  generalize onMidpoint n k q m = tie at htie ⊢
  split_ifs with hup
  · rw [Bool.and_eq_true] at hup
    refine .inl ⟨rfl, hpast.1 hup.1, fun h => ?_⟩
    simpa [htie.2 h] using hup.2
  · refine .inr ⟨rfl, ?_, fun h => ?_⟩
    · by_contra hgt
      have hp := hpast.2 (not_le.1 hgt).le
      have ht := mt htie.1 (not_le.1 hgt).ne
      simp [hp, ht] at hup
    · simpa [hpast.2 h.le, htie.2 h] using hup

/-- So it is the nearest count, ties to even. -/
theorem exactCount_spec (hk : k ≤ 190) (hlow : k = 0 ∨ n % 2 = 1) (hlt : scaledPow n k q < 2 ^ 24) :
    |scaledPow n k q - exactCount n k q| ≤ 1 / 2 ∧
      (|scaledPow n k q - exactCount n k q| = 1 / 2 → exactCount n k q % 2 = 0) ∧
      ⌊scaledPow n k q⌋₊ ≤ exactCount n k q ∧ exactCount n k q ≤ 2 ^ 24 := by
  obtain ⟨m, hm⟩ : ∃ m, m = ⌊scaledPow n k q⌋₊ := ⟨_, rfl⟩
  have hfloor : (m : ℝ) ≤ scaledPow n k q := hm ▸ Nat.floor_le scaledPow_pos.le
  have hceil : scaledPow n k q < m + 1 := hm ▸ Nat.lt_floor_add_one _
  have hm24 : m < 2 ^ 24 := hm ▸ (Nat.floor_lt scaledPow_pos.le).2 (by exact_mod_cast hlt)
  rw [← hm]
  rcases exactCount_eq hk hlow hlt hm with ⟨hcount, hmid, htie⟩ | ⟨hcount, hmid, htie⟩ <;> rw [hcount]
  · rw [Nat.cast_add_one, abs_of_nonpos (by linarith)]
    refine ⟨by linarith, fun h => ?_, by omega, by omega⟩
    have := htie (by linarith)
    omega
  · rw [abs_of_nonneg (by linarith)]
    exact ⟨by linarith, fun h => htie (by linarith), le_rfl, hm24.le⟩

end Count

/-! ### The argument in lowest terms -/

theorem twosIn_spec {fuel m : ℕ} (hm : 0 < m) (hlt : m < 2 ^ fuel) :
    2 ^ twosIn fuel m ∣ m ∧ m / 2 ^ twosIn fuel m % 2 = 1 := by
  induction fuel generalizing m with
  | zero => omega
  | succ fuel ih =>
    rw [twosIn]
    split_ifs with heven
    · obtain ⟨hdvd, hodd⟩ := ih (m := m / 2) (by omega) (by omega)
      obtain ⟨r, rfl⟩ := Nat.dvd_of_mod_eq_zero heven
      rw [Nat.mul_div_cancel_left _ two_pos] at hdvd hodd ⊢
      rw [pow_succ', Nat.mul_div_mul_left _ _ two_pos]
      exact ⟨Nat.mul_dvd_mul_left 2 hdvd, hodd⟩
    · simpa using Nat.mod_two_ne_zero.1 heven

/-- The exponent of the least spacing the argument is a multiple of. -/
def dyadicExponent (x : Word) : ℤ := ulpExponent x + twosIn 24 (significand x)

/-- The numerator of the argument over `2 ^ dyadicLog x`. -/
def dyadicNum (x : Word) : ℤ :=
  signedSignificand x / 2 ^ twosIn 24 (significand x) * 2 ^ (dyadicExponent x).toNat

/-- The binary logarithm of the argument's denominator. -/
def dyadicLog (x : Word) : ℕ := (-dyadicExponent x).toNat

theorem dyadicLog_le (x : Word) : dyadicLog x ≤ 149 := by
  unfold dyadicLog dyadicExponent ulpExponent
  omega

section Argument

variable {x : Word}

theorem significand_pos_of_not_isZero (h : isZero x = false) : 0 < significand x := by
  rw [isZero, beq_eq_false_iff_ne] at h
  have hfrac := fracField_eq x
  have hexp := expField_eq x
  unfold significand
  split_ifs <;> omega

theorem signedSignificand_twos (h : isZero x = false) :
    signedSignificand x = 2 ^ twosIn 24 (significand x) * (signedSignificand x / 2 ^ twosIn 24 (significand x)) ∧
      signedSignificand x / 2 ^ twosIn 24 (significand x) % 2 = 1 := by
  obtain ⟨hdvd, hodd⟩ := twosIn_spec (significand_pos_of_not_isZero h) (significand_lt x)
  unfold signedSignificand
  generalize twosIn 24 (significand x) = t at hdvd hodd ⊢
  obtain ⟨r, hr⟩ := hdvd
  rw [hr, Nat.mul_div_cancel_left _ (by positivity)] at hodd
  have hpos : (2 : ℤ) ^ t ≠ 0 := by positivity
  have hr' : (significand x : ℤ) = 2 ^ t * r := by exact_mod_cast hr
  rw [hr']
  split_ifs
  · rw [← mul_neg, Int.mul_ediv_cancel_left _ hpos]
    exact ⟨rfl, by omega⟩
  · rw [Int.mul_ediv_cancel_left _ hpos]
    exact ⟨rfl, by omega⟩

theorem two_zpow_eq_div (e : ℤ) : (2 : ℚ) ^ e = 2 ^ e.toNat / 2 ^ (-e).toNat := by
  rw [← zpow_natCast, ← zpow_natCast, ← zpow_sub₀ (by norm_num)]
  congr 1
  omega

theorem value_eq_dyadic (h : isZero x = false) : value x = dyadicNum x / 2 ^ dyadicLog x := by
  have hexp : ulpExponent x = dyadicExponent x - twosIn 24 (significand x) := by unfold dyadicExponent; ring
  rw [value, (signedSignificand_twos h).1, hexp, zpow_sub₀ (by norm_num), zpow_natCast, two_zpow_eq_div,
    dyadicNum, dyadicLog]
  push_cast
  field_simp

theorem dyadic_lowest (h : isZero x = false) : dyadicLog x = 0 ∨ dyadicNum x % 2 = 1 := by
  obtain ⟨-, hodd⟩ := signedSignificand_twos h
  rcases le_or_gt 0 (dyadicExponent x) with he | he
  · exact .inl (by unfold dyadicLog; omega)
  · have hzero : (dyadicExponent x).toNat = 0 := by omega
    rw [dyadicNum, hzero, pow_zero, mul_one]
    exact .inr hodd

theorem exp2Exact_eq {q : ℤ} (hzero : isZero x = false) (hover : floorInt x ≤ 127) (hunder : -150 ≤ floorInt x)
    (hq : q = max (floorInt x - 23) (-149)) :
    exp2Exact x = withSign false ((q + 149).toNat * 2 ^ 23 + exactCount (dyadicNum x) (dyadicLog x) q) := by
  subst hq
  rw [exp2Exact, hzero, if_neg (by simp), if_neg hover.not_gt, if_neg hunder.not_gt]
  rfl

end Argument

/-! ### The rounded power (rule R205) -/

theorem roundsTo_magValue {m : ℕ} (hm : m < infMagnitude) : RoundsTo (magValue m : ℝ) m := by
  have hround := roundsTo_roundRat (magValue_nonneg m)
  rwa [roundRat_magValue hm] at hround

theorem two_rpow_le {a b : ℝ} (h : a ≤ b) : (2 : ℝ) ^ a ≤ 2 ^ b :=
  Real.rpow_le_rpow_of_exponent_le (by norm_num) h

/-- In spacings of the result's size the power fills the significand, unless the spacing is the least one. -/
theorem scaledPow_bounds {x : Word} {q : ℤ} (hzero : isZero x = false) (hq : q = max (⌊value x⌋ - 23) (-149)) :
    scaledPow (dyadicNum x) (dyadicLog x) q < 2 ^ 24 ∧
      (q = -149 ∨ 2 ^ 23 ≤ scaledPow (dyadicNum x) (dyadicLog x) q) := by
  have hexp : (dyadicNum x : ℝ) / 2 ^ dyadicLog x = (value x : ℚ) := by
    rw [value_eq_dyadic hzero]
    push_cast
    rfl
  have hfloor : (⌊value x⌋ : ℝ) ≤ (value x : ℚ) := by exact_mod_cast Int.floor_le (value x)
  have hceil : ((value x : ℚ) : ℝ) < ⌊value x⌋ + 1 := by exact_mod_cast Int.lt_floor_add_one (value x)
  rw [scaledPow, hexp]
  constructor
  · have hle : (⌊value x⌋ : ℝ) - 23 ≤ q := by exact_mod_cast hq ▸ le_max_left _ _
    calc (2 : ℝ) ^ (((value x : ℚ) : ℝ) - q) < 2 ^ (24 : ℝ) :=
          Real.rpow_lt_rpow_of_exponent_lt (by norm_num) (by linarith)
      _ = 2 ^ 24 := by norm_num
  · rcases max_choice (⌊value x⌋ - 23) (-149) with hmax | hmax <;> rw [hmax] at hq
    · have hge : (q : ℝ) = ⌊value x⌋ - 23 := by rw [hq]; push_cast; rfl
      refine .inr ?_
      calc (2 : ℝ) ^ 23 = 2 ^ (23 : ℝ) := by norm_num
        _ ≤ 2 ^ (((value x : ℚ) : ℝ) - q) := two_rpow_le (by linarith)
    · exact .inl hq

/-- Between the subnormal underflow and the overflow the count is the nearest one. -/
theorem roundsTo_exactCount {x : Word} {q : ℤ} (hzero : isZero x = false) (hover : ⌊value x⌋ ≤ 127)
    (hq : q = max (⌊value x⌋ - 23) (-149)) :
    RoundsTo (2 ^ ((value x : ℚ) : ℝ)) ((q + 149).toNat * 2 ^ 23 + exactCount (dyadicNum x) (dyadicLog x) q) := by
  obtain ⟨hlt, hnormal⟩ := scaledPow_bounds hzero hq
  obtain ⟨hnear, htie, hge, hle⟩ := exactCount_spec ((dyadicLog_le x).trans (by norm_num)) (dyadic_lowest hzero) hlt
  have hpow : scaledPow (dyadicNum x) (dyadicLog x) q * 2 ^ q = 2 ^ ((value x : ℚ) : ℝ) := by
    rw [scaledPow_mul, value_eq_dyadic hzero]
    push_cast
    rfl
  rw [← hpow]
  refine roundsTo_of_count (by omega) (by omega) hle (hnormal.imp_right fun h => ⟨?_, h⟩) hnear htie
  exact (Nat.le_floor (by exact_mod_cast h)).trans hge

/-- EXP2 of a finite argument in mode EXACT is the encoding without sign of RN32(2^x). -/
theorem exp2Exact_spec {x : Word} (h : isFinite x = true) :
    ∃ m, exp2Exact x = withSign false m ∧ RoundsTo (2 ^ ((value x : ℚ) : ℝ)) m := by
  have hfloor : floorInt x = ⌊value x⌋ := floorInt_eq_floor h
  cases hzero : isZero x with
  | true =>
    have hvalue : value x = 0 := by
      rw [value_eq, (isZero_iff x).1 hzero]
      simp [magValue]
    refine ⟨0x3F800000, by rw [exp2Exact, hzero]; rfl, ?_⟩
    have hone := roundsTo_magValue (show 0x3F800000 < infMagnitude by decide)
    rwa [magValue_one, Rat.cast_one, ← Real.rpow_zero 2, ← Rat.cast_zero, ← hvalue] at hone
  | false =>
    by_cases hover : 127 < floorInt x
    · refine ⟨infMagnitude, by rw [exp2Exact, hzero, if_neg (by simp), if_pos hover], roundsTo_infMagnitude ?_⟩
      have hge : (128 : ℝ) ≤ (value x : ℚ) := by exact_mod_cast Int.le_floor.1 (show (128 : ℤ) ≤ ⌊value x⌋ by omega)
      rw [← Real.rpow_intCast]
      exact two_rpow_le (by exact_mod_cast hge)
    by_cases hunder : floorInt x < -150
    · refine ⟨0, by rw [exp2Exact, hzero, if_neg (by simp), if_neg hover, if_pos hunder]; rfl,
        roundsTo_zero (by positivity) ?_⟩
      have hle : ((value x : ℚ) : ℝ) ≤ (-150 : ℤ) := by
        exact_mod_cast (Int.floor_lt.1 (show ⌊value x⌋ < (-150 : ℤ) by omega)).le
      rw [← Real.rpow_intCast]
      exact two_rpow_le hle
    · exact ⟨_, exp2Exact_eq hzero (by omega) (by omega) rfl, roundsTo_exactCount hzero (by omega) (by rw [hfloor])⟩

/-! ### EXP2 in mode EXACT -/

section Mode

variable {p : Params} {x y : Word}

theorem exp2_of_exact (hp : p.exp2Mode = .exact) (h : isFinite x = true) : exp2 p x = exp2Exact x := by
  simp [exp2, not_isNaN_of_isFinite h, not_isInf_of_isFinite h, hp]

theorem exp2_exact_fields (hp : p.exp2Mode = .exact) (h : isFinite x = true) :
    signBit (exp2 p x) = false ∧ RoundsTo (2 ^ ((value x : ℚ) : ℝ)) (magnitude (exp2 p x)) := by
  obtain ⟨m, hword, hround⟩ := exp2Exact_spec h
  obtain ⟨hmag, hsign⟩ := withSign_fields false (hround.1.trans_lt (show infMagnitude < 2 ^ 31 by decide))
  rw [exp2_of_exact hp h, hword, hmag]
  exact ⟨hsign, hround⟩

theorem toNat_exp2_exact (hp : p.exp2Mode = .exact) (h : isFinite x = true) :
    (exp2 p x).toNat = magnitude (exp2 p x) := by
  rw [toNat_eq, (exp2_exact_fields hp h).1]
  simp

theorem toNat_exp2_le_inf (hp : p.exp2Mode = .exact) (h : isNaN x = false) : (exp2 p x).toNat ≤ infMagnitude := by
  rcases isFinite_or_eq_inf h with hfin | rfl | rfl
  · rw [toNat_exp2_exact hp hfin]
    exact (exp2_exact_fields hp hfin).2.1
  · exact le_rfl
  · exact Nat.zero_le _

theorem natAbs_orderKey_lt (h : isFinite x = true) : (orderKey x).natAbs < 0x7F800000 := by
  rw [natAbs_orderKey]
  exact (isFinite_iff x).1 h

/-- EXP2 is monotone, the infinities included. -/
theorem exp2_exact_mono (hp : p.exp2Mode = .exact) (h : fle x y = true) : fle (exp2 p x) (exp2 p y) = true := by
  obtain ⟨hx, hy, hkey⟩ := (fle_iff x y).1 h
  rw [fle_iff_of_le (toNat_exp2_le_inf hp hx) (toNat_exp2_le_inf hp hy)]
  rcases isFinite_or_eq_inf hx with hfinx | rfl | rfl
  · rcases isFinite_or_eq_inf hy with hfiny | rfl | rfl
    · have hvalue : ((value x : ℚ) : ℝ) ≤ (value y : ℚ) := by exact_mod_cast (fle_iff_value_le hfinx hfiny).1 h
      rw [toNat_exp2_exact hp hfinx, toNat_exp2_exact hp hfiny]
      exact roundsTo_mono (exp2_exact_fields hp hfinx).2 (exp2_exact_fields hp hfiny).2 (two_rpow_le hvalue)
    · exact toNat_exp2_le_inf hp hx
    · have hneg : orderKey 0xFF800000#32 = -0x7F800000 := by decide
      have := natAbs_orderKey_lt hfinx
      omega
  · rcases isFinite_or_eq_inf hy with hfiny | rfl | rfl
    · have hpos : orderKey 0x7F800000#32 = 0x7F800000 := by decide
      have := natAbs_orderKey_lt hfiny
      omega
    · exact le_rfl
    · exact absurd h (by decide)
  · exact Nat.zero_le _

end Mode

/-! ### The statement -/

theorem configWord_bit_one (p : Params) : (configWord p).getLsbD 1 = decide (p.exp2Mode = .exact) := by
  unfold configWord
  cases p.exp2Mode <;> cases p.lfoSupported <;> decide

/-- Settles O37: EXP2 of finite arguments, its special arguments, its order, and the mode CONFIG reports. -/
theorem exactExp2IsCorrectlyRounded : Obligations.ExactExp2IsCorrectlyRounded :=
  ⟨fun p _ hp => ⟨exp2_exact_fields hp, exp2_of_isNaN p, exp2_negInf p, exp2_posInf p, fun _ => exp2_exact_mono hp⟩,
    fun p _ => configWord_bit_one p, rfl⟩

end Sys2Proof.Proofs.ExactExp2
end

section
/-! PROOFS. The host's commands: what a full-width CMD write executes, what each command but STEP leaves behind, and
that no later step looks at what the bus last reported, with the statements about them (spec/44_host_commands.md). -/

namespace Sys2Proof.Proofs.HostCommands

open Sys2Proof Sys2Proof.Machine Sys2Proof.Config Sys2Proof.Safety Sys2Proof.Laws
open Sys2Proof.Proofs.Registers Sys2Proof.Proofs.BusWindow Sys2Proof.Proofs.Commands

/-! ### EXECUTE (rules R232, R238) -/

theorem exec_instrOfCommand (c : Command) (s : State) :
    exec (instrOfCommand c) s = .next (complete .writeDone (performCommand hw s c)) := by
  cases c <;> rfl

/-- The reserved words are those of no command (rule R108). -/
theorem decodeCommand_eq_none_iff (w : Word) : decodeCommand w = none ↔ ∀ c, w ≠ encodeCommand c := by
  simp only [Option.eq_none_iff_forall_ne_some, ne_eq, decodeCommand_eq_some_iff]

theorem execute_encodeCommand (p : Params) (c : Command) (s : State) :
    execute p (encodeCommand c) s = performCommand p s c := by
  simp only [execute, decodeCommand_encodeCommand]

theorem execute_of_reserved {w : Word} (p : Params) (s : State) (h : ∀ c, w ≠ encodeCommand c) :
    execute p w s = setBadCmd s := by
  simp only [execute, (decodeCommand_eq_none_iff w).2 h]

/-- A full-width write at CMD's word executes what it writes (rule R231). -/
theorem exec_cmdWrite {off : BitVec 10} (data : Word) (s : State) (h : wordIndex off = cmdIndex) :
    exec (.write off 15#4 data) s = .next (complete .writeDone (execute hw data s)) := by
  have hcmd : regAt hw.maxChannels off = .cmd := (regAt_eq_cmd_iff _ off).2 h
  rw [exec_write]
  rcases performWrite_cases hw off 15#4 data s with ⟨hbe, -⟩ | ⟨-, -, hexecute⟩ | ⟨-, hne, -⟩
  · exact absurd rfl hbe
  · rw [hexecute]
  · exact absurd hcmd hne

/-- Only CLEAR_STATUS and FULL_RESET touch BADCMD. -/
theorem performCommand_badCmd {c : Command} (p : Params) (s : State) (hclear : c ≠ .clearStatus)
    (hreset : c ≠ .fullReset) : (performCommand p s c).badCmd = s.badCmd := by
  cases c with
  | nop | step | laneReset => rfl
  | fullReset => exact absurd rfl hreset
  | clearStatus => exact absurd rfl hclear

/-- Settles O23: the CMD write of a defined word and of any other, the commands that keep BADCMD, and two reserved
words. -/
theorem cmdWriteExecutesOrSetsBadCmd : Obligations.CmdWriteExecutesOrSetsBadCmd := by
  refine ⟨fun off data s hcmd => ⟨?_, fun hreserved => ?_⟩, fun c s hclear hreset => ?_, fun c => ⟨?_, ?_⟩⟩
  · rintro c rfl
    rw [exec_cmdWrite _ s hcmd, execute_encodeCommand, exec_instrOfCommand]
  · rw [exec_cmdWrite data s hcmd, execute_of_reserved hw s hreserved]; rfl
  · exact ⟨_, exec_instrOfCommand c s, performCommand_badCmd hw s hclear hreset⟩
  · exact (decodeCommand_eq_none_iff _).1 rfl c
  · exact (decodeCommand_eq_none_iff _).1 rfl c

/-- Settles O24: NOP's next state, and the decoder at 0x00000001. -/
theorem nopChangesNothing : Obligations.NopChangesNothing :=
  ⟨exec_instrOfCommand .nop, rfl⟩

/-! ### CLEAR_STATUS (rule R237) -/

/-- CLEAR_STATUS's mask keeps every bit from bit 2 up. -/
theorem clearMask_bit : ∀ i : Fin 32, 2 ≤ i.val → (0xFFFFFFFC#32)[i] = true := by decide

/-- A field at bit 2 or above does not reach the two sticky bits. -/
theorem fieldAt_and_clearLow {n lo : Nat} (v : BitVec n) (h : 2 ≤ lo) :
    fieldAt lo v &&& 0xFFFFFFFC#32 = fieldAt lo v := by
  ext i hi
  have hbit (hlo : lo ≤ i) : (0xFFFFFFFC#32)[i] = true := clearMask_bit ⟨i, hi⟩ (h.trans hlo)
  simpa [fieldAt] using fun hlo _ => hbit hlo

/-- STATUS loses its two low bits and nothing else. -/
theorem statusWord_clearErrors (s : State) : statusWord (clearErrors s) = statusWord s &&& 0xFFFFFFFC#32 := by
  have hcmd : fieldAt 0 (BitVec.ofBool s.badCmd) &&& 0xFFFFFFFC#32 = 0#32 := by cases s.badCmd <;> rfl
  have hacc : fieldAt 1 (BitVec.ofBool s.badAcc) &&& 0xFFFFFFFC#32 = 0#32 := by cases s.badAcc <;> rfl
  have hgroups := fieldAt_and_clearLow (lo := 16) s.activeGroups (by decide)
  have hout := fieldAt_and_clearLow (lo := 8) s.outChannels (by decide)
  simp only [statusWord, BitVec.and_or_distrib_right, hgroups, hout, hacc, hcmd]
  rfl

/-- Word 4 of the window is STATUS (rule R54). -/
theorem readWindow_status (s : State) : readWindow hw s 0x010#10 = statusWord s :=
  readWindow_of_wordIndex (r := .status) s (by simp) rfl

/-- Settles O25: the next state, and STATUS as read from it. -/
theorem clearStatusClearsTheStickyBits : Obligations.ClearStatusClearsTheStickyBits := by
  refine fun s => ⟨_, exec_instrOfCommand .clearStatus s, rfl, ?_⟩
  rw [readWindow_complete, readWindow_status, readWindow_status]
  exact statusWord_clearErrors s

/-! ### LANE_RESET (rules R235, R283) -/

theorem resetLanes_lane (s : State) (i : Fin 16) : (resetLanes s).lanes[i] = Lane.reset := reset_lane i

/-- PHASE[i] is the lane's phase (rule R32). -/
theorem readWindow_phase (s : State) (i : Fin 16) : readWindow hw s (regOffset (.phase i)) = s.lanes[i].phase :=
  readWindow_of_wordIndex s (by simp) (wordIndex_regOffset _)

/-- SHAPE[i] is the lane's shape (rule R34). -/
theorem readWindow_shape (s : State) (i : Fin 16) : readWindow hw s (regOffset (.shape i)) = s.lanes[i].shape :=
  readWindow_of_wordIndex s (by simp) (wordIndex_regOffset _)

/-- Settles O26: each lane's fields, the two slots the host reads, and the frame. -/
theorem laneResetResetsTheLanesOnly : Obligations.LaneResetResetsTheLanesOnly := by
  refine fun s => ⟨_, exec_instrOfCommand .laneReset s, fun i => ?_, rfl⟩
  have hlane : (complete .writeDone (performCommand hw s .laneReset)).lanes[i] = Lane.reset := resetLanes_lane s i
  rw [readWindow_phase, readWindow_shape, hlane]
  exact ⟨rfl, rfl, rfl, rfl, rfl, fun k => Vector.getElem_replicate k.isLt, rfl, rfl, rfl⟩

/-! ### What the bus last reported is written and never read (rules R77, R82) -/

theorem performCommand_complete (p : Params) (r : BusResponse) (s : State) (c : Command) :
    performCommand p (complete r s) c = complete r (performCommand p s c) := by
  cases c <;> rfl

theorem execute_complete (p : Params) (w : Word) (r : BusResponse) (s : State) :
    execute p w (complete r s) = complete r (execute p w s) := by
  unfold execute
  cases decodeCommand w with
  | some c => exact performCommand_complete p r s c
  | none => rfl

theorem writeReg_complete (p : Params) (data : Word) (r : BusResponse) (s : State) (reg : Reg) :
    writeReg p data (complete r s) reg = complete r (writeReg p data s reg) := by
  cases reg <;> rfl

theorem performWrite_complete (p : Params) (off : BitVec 10) (be : BitVec 4) (data : Word) (r : BusResponse)
    (s : State) : performWrite p off be data (complete r s) = complete r (performWrite p off be data s) := by
  by_cases hbe : be = 15#4
  · unfold performWrite
    rw [if_pos hbe, if_pos hbe]
    cases regAt p.maxChannels off with
    | cmd => exact execute_complete p data r s
    | _ => exact writeReg_complete p data r s _
  · rw [performWrite_of_partial p off data _ hbe, performWrite_of_partial p off data s hbe]; rfl

/-- An instruction reports its own completion over whatever was reported before. -/
theorem buildExec_complete (p : Params) (i : Instr) (r : BusResponse) (s : State) :
    buildExec p i (complete r s) = buildExec p i s := by
  have hcommand (c : Command) : complete .writeDone (performCommand p (complete r s) c) =
      complete .writeDone (performCommand p s c) := by
    rw [performCommand_complete]; rfl
  cases i with
  | read off be => exact congrArg (fun w => complete (.readData w) s) (readWindow_complete p r s off)
  | write off be data => simp only [buildExec, performWrite_complete]; rfl
  | nop => exact hcommand .nop
  | step => exact hcommand .step
  | laneReset => exact hcommand .laneReset
  | fullReset => exact hcommand .fullReset
  | clearStatus => exact hcommand .clearStatus

theorem buildStep_of_queue_nil {s : State} (p : Params) (h : s.queue = []) : buildStep p s = s := by
  simp only [buildStep, h]

/-- With an event to take, a step does not depend on what was reported before it. -/
theorem buildStep_complete {s : State} (p : Params) (r : BusResponse) (h : s.queue ≠ []) :
    buildStep p (complete r s) = buildStep p s := by
  unfold buildStep
  rw [complete_queue]
  cases hq : s.queue with
  | nil => exact absurd hq h
  | cons e rest =>
    cases e with
    | hardReset t => rfl
    | transaction t => exact buildExec_complete p (decodeTransaction t) r { s with queue := rest }

theorem sameButResponse_refl (s : State) : SameButResponse s s := ⟨s.response, rfl⟩

theorem buildStep_sameButResponse {s t : State} (p : Params) (h : SameButResponse s t) :
    SameButResponse (buildStep p s) (buildStep p t) := by
  obtain ⟨r, rfl⟩ := h
  change SameButResponse (buildStep p s) (buildStep p (complete r s))
  by_cases hq : s.queue = []
  · rw [buildStep_of_queue_nil p hq, buildStep_of_queue_nil p (s := complete r s) hq]
    exact ⟨r, rfl⟩
  · rw [buildStep_complete p r hq]
    exact sameButResponse_refl _

theorem run_succ (n : Nat) (s : State) :
    Host.Core.run core (n + 1) s = Host.Core.run core n (buildStep hw s) := by
  have hstep : core.step s = .next (buildStep hw s) := step_eq_next s
  simp only [Host.Core.run, hstep]

/-- Any number of steps keeps two states apart in at most what the bus last reported. -/
theorem run_sameButResponse (n : Nat) {s t : State} (h : SameButResponse s t) : ∃ a b : State,
    Host.Core.run core n s = .next a ∧ Host.Core.run core n t = .next b ∧ SameButResponse a b := by
  induction n generalizing s t with
  | zero => exact ⟨s, t, rfl, rfl, h⟩
  | succ n ih =>
    simp only [run_succ]
    exact ih (buildStep_sameButResponse hw h)

/-! ### FULL_RESET and hardware reset (rules R236, R281, R282) -/

theorem step_hardReset {s : State} {x : Option Transaction} {rest : List HostEvent}
    (h : s.queue = .hardReset x :: rest) : step s = .next (hardwareReset { s with queue := rest }) := by
  simp only [step, h]

/-- Settles O27: the state after each reset, and the runs from two states that differ in the last report alone. -/
theorem fullResetIsHardwareReset : Obligations.FullResetIsHardwareReset :=
  ⟨exec_instrOfCommand .fullReset, fun _ _ _ h => step_hardReset h,
    fun _ _ n => run_sameButResponse n ⟨.none, rfl⟩⟩

end Sys2Proof.Proofs.HostCommands
end

section
/-! PROOFS. The sticky error bits: which transactions set BADCMD and BADACC, which clear them, that every other step
keeps both, and the statement about them (spec/60_exceptions.md). -/

namespace Sys2Proof.Proofs.ErrorBits

open Sys2Proof Sys2Proof.Machine Sys2Proof.Config Sys2Proof.Safety Sys2Proof.Laws
open Sys2Proof.Proofs.BusWindow Sys2Proof.Proofs.Commands Sys2Proof.Proofs.HostCommands

/-! ### The transactions that reach an error bit (rules R74, R76, R237, R238) -/

/-- A full-width CMD write of a reserved word, which sets BADCMD (`exec_of_reservedCommand`). -/
def ReservedCommand (tr : Transaction) : Prop :=
  tr.isWrite = true ∧ tr.be = 15#4 ∧ wordIndex tr.offset = cmdIndex ∧ ∀ c : Command, tr.data ≠ encodeCommand c

/-- The word of a read-only register or a reserved one (`regAt_not_stores_iff`). -/
def StorelessWord (off : BitVec 10) : Prop :=
  (wordIndex off).toNat < 3 ∨ (wordIndex off).toNat = 4 ∨
    (11 ≤ (wordIndex off).toNat ∧ (wordIndex off).toNat < 16) ∨ 48 ≤ (wordIndex off).toNat

/-- A write with a byte enable clear or at a storeless word, which sets BADACC (`exec_of_badAccess`). -/
def BadAccess (tr : Transaction) : Prop :=
  tr.isWrite = true ∧ (tr.be ≠ 15#4 ∨ StorelessWord tr.offset)

/-- A command that clears both bits (`exec_of_clearsErrors`). -/
def ClearsErrors (tr : Transaction) : Prop :=
  decodeTransaction tr = .clearStatus ∨ decodeTransaction tr = .fullReset

/-- The next event clears both bits: a hardware reset or one of the two clearing commands. -/
def ClearingEvent (s : State) : Prop :=
  (∃ x rest, s.queue = .hardReset x :: rest) ∨ ∃ tr rest, s.queue = .transaction tr :: rest ∧ ClearsErrors tr

/-- CMD is not a storeless word: a storeless word holds another register, which stores nothing. -/
theorem not_storelessWord_of_cmd {off : BitVec 10} (h : wordIndex off = cmdIndex) : ¬ StorelessWord off :=
  fun hword => ((regAt_not_stores_iff off).2 hword).2 ((regAt_eq_cmd_iff 16 off).2 h)

/-- Everything a transaction decodes to: a READ, a command, or a WRITE that carries no command. -/
theorem decodeTransaction_cases (tr : Transaction) :
    (tr.isWrite = false ∧ decodeTransaction tr = .read tr.offset tr.be) ∨
      (∃ c, tr.be = 15#4 ∧ wordIndex tr.offset = cmdIndex ∧ tr.data = encodeCommand c ∧
        decodeTransaction tr = instrOfCommand c) ∨
      (tr.isWrite = true ∧ (tr.be = 15#4 → wordIndex tr.offset = cmdIndex → ∀ c, tr.data ≠ encodeCommand c) ∧
        decodeTransaction tr = .write tr.offset tr.be tr.data) := by
  unfold decodeTransaction
  cases hisWrite : tr.isWrite with
  | false => exact .inl ⟨rfl, rfl⟩
  | true =>
    by_cases hcmd : wordIndex tr.offset = cmdIndex ∧ tr.be = 15#4
    · cases hc : decodeCommand tr.data with
      | some c => exact .inr (.inl ⟨c, hcmd.2, hcmd.1, decodeCommand_eq_some hc, by simp [hcmd]⟩)
      | none => exact .inr (.inr ⟨rfl, fun _ _ => (decodeCommand_eq_none_iff _).1 hc, by simp [hcmd]⟩)
    · exact .inr (.inr ⟨rfl, fun hbe hword => absurd ⟨hword, hbe⟩ hcmd, by simp [hcmd]⟩)

/-- A write is performed as a WRITE unless it carries a command. -/
theorem decodeTransaction_eq_write {tr : Transaction} (hisWrite : tr.isWrite = true)
    (h : tr.be = 15#4 → wordIndex tr.offset = cmdIndex → ∀ c, tr.data ≠ encodeCommand c) :
    decodeTransaction tr = .write tr.offset tr.be tr.data := by
  rcases decodeTransaction_cases tr with ⟨hread, -⟩ | ⟨c, hbe, hword, hdata, -⟩ | ⟨-, -, hdecode⟩
  · simp [hisWrite] at hread
  · exact absurd hdata (h hbe hword c)
  · exact hdecode

/-! ### What each of them does, and that nothing else does it -/

/-- A reserved command word sets BADCMD and nothing else (rule R238). -/
theorem exec_of_reservedCommand {tr : Transaction} (s : State) (h : ReservedCommand tr) :
    exec (decodeTransaction tr) s = .next (complete .writeDone (setBadCmd s)) := by
  obtain ⟨hisWrite, hbe, hword, hdata⟩ := h
  rw [decodeTransaction_eq_write hisWrite fun _ _ => hdata, hbe, exec_cmdWrite _ s hword, execute_of_reserved hw s hdata]

/-- A bad access sets BADACC and nothing else (rules R74, R76). -/
theorem exec_of_badAccess {tr : Transaction} (s : State) (h : BadAccess tr) :
    exec (decodeTransaction tr) s = .next (complete .writeDone (setBadAcc s)) := by
  obtain ⟨hisWrite, hbad⟩ := h
  have hnocmd : tr.be = 15#4 → wordIndex tr.offset = cmdIndex → ∀ c, tr.data ≠ encodeCommand c :=
    fun hbe hcmd => absurd hbad (not_or.2 ⟨not_not.2 hbe, not_storelessWord_of_cmd hcmd⟩)
  rw [decodeTransaction_eq_write hisWrite hnocmd, exec_write]
  by_cases hbe : tr.be = 15#4
  · obtain ⟨hstores, hcmd⟩ := (regAt_not_stores_iff tr.offset).2 (hbad.resolve_left (not_not.2 hbe))
    rw [hbe, performWrite_of_not_stores tr.data s hstores hcmd]
  · rw [performWrite_of_partial hw tr.offset tr.data s hbe]

/-- The two clearing commands clear both bits (rules R236, R237). -/
theorem exec_of_clearsErrors {tr : Transaction} {s t : State} (h : ClearsErrors tr)
    (hexec : exec (decodeTransaction tr) s = .next t) : t.badCmd = false ∧ t.badAcc = false := by
  rcases h with h | h
  · rw [h] at hexec; cases hexec; exact ⟨rfl, rfl⟩
  · rw [h] at hexec; cases hexec; exact ⟨rfl, rfl⟩

/-- Only CLEAR_STATUS and FULL_RESET touch BADACC. -/
theorem performCommand_badAcc {c : Command} (p : Params) (s : State) (hclear : c ≠ .clearStatus)
    (hreset : c ≠ .fullReset) : (performCommand p s c).badAcc = s.badAcc := by
  cases c with
  | nop | step | laneReset => rfl
  | fullReset => exact absurd rfl hreset
  | clearStatus => exact absurd rfl hclear

/-- A register that stores what is written records no bad access. -/
theorem writeReg_badAcc_of_stores {r : Reg} (p : Params) (data : Word) (s : State) (h : storesWrites r = true) :
    (writeReg p data s r).badAcc = s.badAcc := by
  cases r <;> first | rfl | simp [storesWrites] at h

/-- A full-width write at a word that holds neither CMD nor a storeless register keeps both bits. -/
theorem performWrite_keeps_errorBits {off : BitVec 10} (data : Word) (s : State) (hcmd : wordIndex off ≠ cmdIndex)
    (hword : ¬ StorelessWord off) :
    (performWrite hw off 15#4 data s).badCmd = s.badCmd ∧ (performWrite hw off 15#4 data s).badAcc = s.badAcc := by
  have hreg : regAt hw.maxChannels off ≠ .cmd := fun h => hcmd ((regAt_eq_cmd_iff _ off).1 h)
  have hstores : storesWrites (regAt hw.maxChannels off) = true :=
    eq_true_of_ne_false fun h => hword ((regAt_not_stores_iff off).1 ⟨h, hreg⟩)
  rcases performWrite_cases hw off 15#4 data s with ⟨hbe, -⟩ | ⟨-, h, -⟩ | ⟨-, -, hwrite⟩
  · exact absurd rfl hbe
  · exact absurd h hreg
  · obtain ⟨-, -, -, hbadCmd, -⟩ := writeReg_frame hw data s (regAt hw.maxChannels off)
    rw [hwrite]
    exact ⟨hbadCmd, writeReg_badAcc_of_stores hw data s hstores⟩

/-- Every transaction of no such kind keeps both bits. -/
theorem exec_keeps_errorBits {tr : Transaction} {s t : State} (hclear : ¬ ClearsErrors tr)
    (hreserved : ¬ ReservedCommand tr) (hbad : ¬ BadAccess tr) (hexec : exec (decodeTransaction tr) s = .next t) :
    t.badCmd = s.badCmd ∧ t.badAcc = s.badAcc := by
  rcases decodeTransaction_cases tr with ⟨-, hread⟩ | ⟨c, -, -, -, hcommand⟩ | ⟨hisWrite, hnocmd, hwrite⟩
  · rw [hread, exec_read] at hexec
    cases hexec; exact ⟨rfl, rfl⟩
  · have hc : c ≠ .clearStatus := by rintro rfl; exact hclear (.inl hcommand)
    have hr : c ≠ .fullReset := by rintro rfl; exact hclear (.inr hcommand)
    rw [hcommand, exec_instrOfCommand] at hexec
    cases hexec
    exact ⟨performCommand_badCmd hw s hc hr, performCommand_badAcc hw s hc hr⟩
  · have hbe : tr.be = 15#4 := by
      by_contra h; exact hbad ⟨hisWrite, .inl h⟩
    have hword : ¬ StorelessWord tr.offset := fun h => hbad ⟨hisWrite, .inr h⟩
    have hcmd : wordIndex tr.offset ≠ cmdIndex := fun h => hreserved ⟨hisWrite, hbe, h, hnocmd hbe h⟩
    rw [hwrite, exec_write, hbe] at hexec
    cases hexec
    exact performWrite_keeps_errorBits tr.data s hcmd hword

/-! ### The statement -/

theorem step_transaction {s : State} {tr : Transaction} {rest : List HostEvent}
    (h : s.queue = .transaction tr :: rest) : step s = exec (decodeTransaction tr) { s with queue := rest } := by
  simp only [step, h]

/-- A clearing event leaves both bits clear. -/
theorem step_of_clearingEvent {s t : State} (h : ClearingEvent s) (hstep : step s = .next t) :
    t.badCmd = false ∧ t.badAcc = false := by
  rcases h with ⟨x, rest, hq⟩ | ⟨tr, rest, hq, hclear⟩
  · rw [step_hardReset hq] at hstep
    cases hstep; exact ⟨rfl, rfl⟩
  · exact exec_of_clearsErrors hclear (step_transaction hq ▸ hstep)

/-- Everything a step can do to the error bits: a clearing event clears both, a reserved command or a bad access sets
its own and does nothing else, any other step keeps both. -/
theorem step_errorBits {s t : State} (hstep : step s = .next t) :
    (ClearingEvent s ∧ t.badCmd = false ∧ t.badAcc = false) ∨
      (∃ tr rest, s.queue = .transaction tr :: rest ∧ ReservedCommand tr ∧
        t = { s with badCmd := true, queue := rest, response := .writeDone }) ∨
      (∃ tr rest, s.queue = .transaction tr :: rest ∧ BadAccess tr ∧
        t = { s with badAcc := true, queue := rest, response := .writeDone }) ∨
      (t.badCmd = s.badCmd ∧ t.badAcc = s.badAcc) := by
  by_cases hclear : ClearingEvent s
  · exact .inl ⟨hclear, step_of_clearingEvent hclear hstep⟩
  rcases step_cases s with ⟨-, hidle⟩ | ⟨x, rest, hq, -⟩ | ⟨tr, rest, hq, -⟩
  · rw [hidle] at hstep
    cases hstep; exact .inr (.inr (.inr ⟨rfl, rfl⟩))
  · exact absurd (.inl ⟨x, rest, hq⟩) hclear
  · have htr : ¬ ClearsErrors tr := fun h => hclear (.inr ⟨tr, rest, hq, h⟩)
    rw [step_transaction hq] at hstep
    by_cases hreserved : ReservedCommand tr
    · rw [exec_of_reservedCommand _ hreserved] at hstep
      cases hstep; exact .inr (.inl ⟨tr, rest, hq, hreserved, rfl⟩)
    by_cases hbad : BadAccess tr
    · rw [exec_of_badAccess _ hbad] at hstep
      cases hstep; exact .inr (.inr (.inl ⟨tr, rest, hq, hbad, rfl⟩))
    · exact .inr (.inr (.inr (exec_keeps_errorBits (s := { s with queue := rest }) htr hreserved hbad hstep)))

/-- Settles O53: the two transactions that set a bit and the events that clear both, then, by `step_errorBits`, that a
bit which fell was cleared by such an event and a bit which rose was set by its own transaction. -/
theorem errorBitsAreSticky : Obligations.ErrorBitsAreSticky := by
  refine fun s t hstep => ⟨fun tr rest hq hisWrite => ⟨fun hbe hword hdata => ?_, fun hbad => ?_⟩,
    fun hclear => step_of_clearingEvent hclear hstep, ?_⟩
  · rw [step_transaction hq, exec_of_reservedCommand _ ⟨hisWrite, hbe, hword, hdata⟩] at hstep
    cases hstep; rfl
  · rw [step_transaction hq, exec_of_badAccess _ ⟨hisWrite, hbad⟩] at hstep
    cases hstep; rfl
  rcases step_errorBits hstep with ⟨hclear, hcmd, hacc⟩ | ⟨tr, rest, hq, ⟨hisWrite, hbe, hword, hdata⟩, rfl⟩ |
    ⟨tr, rest, hq, ⟨hisWrite, hbad⟩, rfl⟩ | ⟨hcmd, hacc⟩
  · exact ⟨fun _ _ => hclear, fun _ _ => hclear, fun _ ht => by simp [hcmd] at ht, fun _ ht => by simp [hacc] at ht⟩
  · exact ⟨fun _ ht => by simp at ht, fun hs ht => by simp [hs] at ht,
      fun _ _ => ⟨tr, rest, hq, hisWrite, hbe, hword, hdata, rfl⟩, fun hs ht => by simp [hs] at ht⟩
  · exact ⟨fun hs ht => by simp [hs] at ht, fun _ ht => by simp at ht, fun hs ht => by simp [hs] at ht,
      fun _ _ => ⟨tr, rest, hq, hisWrite, hbad, rfl⟩⟩
  · rw [hcmd, hacc]
    refine ⟨?_, ?_, ?_, ?_⟩ <;> exact fun hs ht => by simp [hs] at ht

end Sys2Proof.Proofs.ErrorBits
end

section
/-! PROOFS. The encoding: a word and its bytes, a transaction and its frame, an instruction and its transaction are
inverse to each other, with the statements about frames and table words (spec/30_encoding.md). -/

namespace Sys2Proof.Proofs.Encoding

open Sys2Proof Sys2Proof.Machine Sys2Proof.Config Sys2Proof.Safety Sys2Proof.Laws
open Sys2Proof.Proofs.Commands Sys2Proof.Proofs.HostCommands Sys2Proof.Proofs.ErrorBits

/-! ### Fields, words and bytes (rules R73, R102) -/

/-- A bit of a placed field is the field's bit, counted from where it is placed. -/
theorem getLsbD_fieldAt {n : Nat} (lo : Nat) (v : BitVec n) (i : Nat) :
    (fieldAt lo v).getLsbD i = (decide (i < 32 ∧ lo ≤ i) && v.getLsbD (i - lo)) := by
  by_cases hi : i < 32 <;> by_cases hlo : lo ≤ i <;> simp [fieldAt, hi, hlo]

/-- A byte put back where it was taken from holds the word's own bits. -/
theorem getLsbD_fieldAt_byte (lo : Nat) (w : Word) (i : Nat) :
    (fieldAt lo (w.extractLsb' lo 8)).getLsbD i = (decide (i < 32 ∧ lo ≤ i ∧ i < lo + 8) && w.getLsbD i) := by
  rw [getLsbD_fieldAt, BitVec.getLsbD_extractLsb']
  by_cases hlo : lo ≤ i
  · have hsub : i - lo < 8 ↔ i < lo + 8 := by omega
    simp only [hlo, hsub, Nat.add_sub_cancel' hlo, and_true, true_and, Bool.decide_and, Bool.and_assoc]
  · simp [hlo]

/-- The four bytes of a word make the word again. -/
theorem wordOfBytes_extract (w : Word) :
    wordOfBytes (w.extractLsb' 0 8) (w.extractLsb' 8 8) (w.extractLsb' 16 8) (w.extractLsb' 24 8) = w := by
  refine BitVec.eq_of_getLsbD_eq fun i hi => ?_
  simp only [wordOfBytes, BitVec.getLsbD_or, getLsbD_fieldAt_byte]
  cases w.getLsbD i with
  | false => simp
  | true => simp; omega

/-! ### Frames (log entry 2) -/

/-- Eight bytes are the frame of the transaction in their two words, if the reserved bits are clear. -/
theorem decode_wordBytes (w0 w1 : Word) : decode (wordBytes w0 ++ wordBytes w1) =
    if w0.extractLsb' 15 17 = 0#17 then .ok (decodeTransaction (transactionOfWords w0 w1))
    else .error .reservedFrameBits := by
  simp only [wordBytes, List.cons_append, List.nil_append, decode, wordOfBytes_extract]

theorem getLsbD_frameWord0 (t : Transaction) (i : Nat) : (frameWord0 t).getLsbD i =
    (decide (i < 32) && (decide (11 ≤ i) && t.be.getLsbD (i - 11) || decide (1 ≤ i) && t.offset.getLsbD (i - 1) ||
      decide (i = 0) && t.isWrite)) := by
  simp only [frameWord0, BitVec.getLsbD_or, getLsbD_fieldAt, BitVec.getLsbD_ofBool]
  by_cases hi : i < 32 <;> simp [hi]

theorem frameWord0_reserved (t : Transaction) : (frameWord0 t).extractLsb' 15 17 = 0#17 := by
  refine BitVec.eq_of_getLsbD_eq fun i hi => ?_
  have hbe : t.be.getLsbD (15 + i - 11) = false := BitVec.getLsbD_of_ge _ _ (by omega)
  have hoff : t.offset.getLsbD (15 + i - 1) = false := BitVec.getLsbD_of_ge _ _ (by omega)
  simp only [BitVec.getLsbD_extractLsb', getLsbD_frameWord0, hbe, hoff]
  simp

/-- The two words of a frame give the transaction back: no field overlaps another. -/
theorem transactionOfWords_frameWord0 (t : Transaction) (data : Word) :
    transactionOfWords (frameWord0 t) data = { t with data := data } := by
  have hoffset : (frameWord0 t).extractLsb' 1 10 = t.offset := by
    refine BitVec.eq_of_getLsbD_eq fun i hi => ?_
    have hfield : 1 + i < 32 ∧ ¬ 11 ≤ 1 + i := by omega
    simp only [BitVec.getLsbD_extractLsb', getLsbD_frameWord0]
    simp [hi, hfield]
  have hbe : (frameWord0 t).extractLsb' 11 4 = t.be := by
    refine BitVec.eq_of_getLsbD_eq fun i hi => ?_
    have hoff : t.offset.getLsbD (11 + i - 1) = false := BitVec.getLsbD_of_ge _ _ (by omega)
    have hfield : 11 + i < 32 := by omega
    simp only [BitVec.getLsbD_extractLsb', getLsbD_frameWord0, hoff]
    simp [hi, hfield]
  simp only [transactionOfWords, hoffset, hbe, getLsbD_frameWord0]
  simp

/-- The frame of a transaction decodes to the transaction's instruction. -/
theorem decode_frame (t : Transaction) (data : Word) :
    decode (wordBytes (frameWord0 t) ++ wordBytes data) = .ok (decodeTransaction { t with data := data }) := by
  rw [decode_wordBytes, if_pos (frameWord0_reserved t), transactionOfWords_frameWord0]

/-! ### Instructions and transactions (rules R104, R106, R111) -/

/-- The carrier of a command's word is the command. -/
theorem decodeTransaction_command (c : Command) :
    decodeTransaction (commandTransaction (encodeCommand c)) = instrOfCommand c := by
  cases c <;> rfl

theorem isCommandWrite_iff (off : BitVec 10) (be : BitVec 4) (data : Word) :
    isCommandWrite off be data = true ↔ wordIndex off = cmdIndex ∧ be = 15#4 ∧ ∃ c, data = encodeCommand c := by
  have hword : commandWords.contains data = true ↔ ∃ c, data = encodeCommand c := by
    simp only [commandWords, List.contains_iff_mem, List.mem_cons, List.not_mem_nil, or_false]
    constructor
    · rintro (rfl | rfl | rfl | rfl | rfl)
      exacts [⟨.nop, rfl⟩, ⟨.step, rfl⟩, ⟨.laneReset, rfl⟩, ⟨.fullReset, rfl⟩, ⟨.clearStatus, rfl⟩]
    · rintro ⟨c, rfl⟩
      cases c <;> simp [encodeCommand]
  simp only [isCommandWrite, Bool.and_eq_true, beq_iff_eq, hword, and_assoc]

/-- The decoder inverts the encoder on every well-formed instruction. -/
theorem decodeTransaction_encodeTransaction {i : Instr} (h : i.wf = true) :
    decodeTransaction (encodeTransaction i) = i := by
  cases i with
  | read off be => rfl
  | write off be data =>
    refine decodeTransaction_eq_write rfl fun hbe hoff c hdata => ?_
    have hcmd := (isCommandWrite_iff off be data).2 ⟨hoff, hbe, c, hdata⟩
    simp [Instr.wf, hcmd] at h
  | nop => exact decodeTransaction_command .nop
  | step => exact decodeTransaction_command .step
  | laneReset => exact decodeTransaction_command .laneReset
  | fullReset => exact decodeTransaction_command .fullReset
  | clearStatus => exact decodeTransaction_command .clearStatus

/-- Whatever the transaction, it decodes to a well-formed instruction. -/
theorem decodeTransaction_wf (t : Transaction) : (decodeTransaction t).wf = true := by
  rcases decodeTransaction_cases t with ⟨-, hread⟩ | ⟨c, -, -, -, hcommand⟩ | ⟨-, hnocmd, hwrite⟩
  · rw [hread]; rfl
  · rw [hcommand]; cases c <;> rfl
  · have hcmd : ¬ isCommandWrite t.offset t.be t.data = true := fun h => by
      obtain ⟨hoff, hbe, c, hdata⟩ := (isCommandWrite_iff _ _ _).1 h
      exact hnocmd hbe hoff c hdata
    rw [hwrite, Instr.wf, Bool.eq_false_iff.2 hcmd]; rfl

/-! ### Table words (log entry 3) -/

/-- Offering a table word puts the transaction it stands for at the head of the queue. -/
theorem step_withFetchWord (s : State) (nbits w : Nat) :
    step (s.withFetchWord nbits w) = exec (decodeTransaction (tableTransaction nbits w)) s :=
  step_transaction (s := s.withFetchWord nbits w) rfl

/-- A table word that the byte decoder takes is the instruction of its transaction. -/
theorem decodeTableWord_eq_some {nbits w : Nat} {i : Instr} (h : decodeTableWord nbits w = some i) :
    decodeTransaction (tableTransaction nbits w) = i := by
  unfold decodeTableWord at h
  dsimp only at h
  unfold tableTransaction
  by_cases hbits : nbits = 32
  · rw [if_pos hbits, decode_frame] at h
    rw [if_pos hbits]
    exact Option.some.inj h
  · rw [if_neg hbits, decode_wordBytes] at h
    rw [if_neg hbits]
    by_cases hreserved : (BitVec.ofNat 32 w).extractLsb' 15 17 = 0#17
    · rw [if_pos hreserved] at h
      exact Option.some.inj h
    · rw [if_neg hreserved] at h
      cases h

/-! ### The statements -/

/-- Settles O3: the frame gives the transaction back, and the transaction the instruction. -/
theorem decodeOfEncodeIsTheInstruction : Obligations.DecodeOfEncodeIsTheInstruction := by
  intro i hwf
  rw [encode, decode_frame]
  exact congrArg Except.ok (decodeTransaction_encodeTransaction hwf)

/-- Settles O5: the rows' words by evaluation. -/
theorem tableWordsDecodeToTheirRows : Obligations.TableWordsDecodeToTheirRows := by
  refine ⟨?_, ?_, ?_, ?_, ?_, ?_, ?_, ?_⟩ <;> decide

/-- Settles O6: the step on a transaction, and `decodeTransaction` both ways. -/
theorem stepRunsTheDecodedInstruction : Obligations.StepRunsTheDecodedInstruction :=
  ⟨fun _ t _ hq => ⟨decodeTransaction_wf t, step_transaction hq⟩, fun _ => decodeTransaction_encodeTransaction⟩

/-- Settles O7: the byte decoder and the offered transaction agree on the word. -/
theorem stepRunsTheOfferedTableWord : Obligations.StepRunsTheOfferedTableWord := by
  intro s nbits w i h
  rw [step_withFetchWord, decodeTableWord_eq_some h]

end Sys2Proof.Proofs.Encoding
end

section
/-! PROOFS. The host's queue: what a step takes from it and answers, that no instruction looks at what is queued behind
its transaction, and which events reach the lanes, with the statements about them (spec/20_memory.md section 3,
spec/60_exceptions.md). -/

namespace Sys2Proof.Proofs.HostQueue

open Sys2Proof Sys2Proof.Machine Sys2Proof.Config Sys2Proof.Safety Sys2Proof.Laws
open Sys2Proof.Proofs.Registers Sys2Proof.Proofs.BusWindow Sys2Proof.Proofs.Commands Sys2Proof.Proofs.HostCommands
open Sys2Proof.Proofs.ErrorBits

/-! ### The queue is passed through (rules R80, R81) -/

/-- The state with other events pending. -/
def withQueue (q : List HostEvent) (s : State) : State := { s with queue := q }

theorem performCommand_withQueue (p : Params) (q : List HostEvent) (s : State) (c : Command) :
    performCommand p (withQueue q s) c = withQueue q (performCommand p s c) := by
  cases c <;> rfl

theorem execute_withQueue (p : Params) (w : Word) (q : List HostEvent) (s : State) :
    execute p w (withQueue q s) = withQueue q (execute p w s) := by
  unfold execute
  cases decodeCommand w with
  | some c => exact performCommand_withQueue p q s c
  | none => rfl

theorem writeReg_withQueue (p : Params) (data : Word) (q : List HostEvent) (s : State) (r : Reg) :
    writeReg p data (withQueue q s) r = withQueue q (writeReg p data s r) := by
  cases r <;> rfl

theorem performWrite_withQueue (p : Params) (off : BitVec 10) (be : BitVec 4) (data : Word) (q : List HostEvent)
    (s : State) : performWrite p off be data (withQueue q s) = withQueue q (performWrite p off be data s) := by
  unfold performWrite
  split_ifs
  · cases regAt p.maxChannels off with
    | cmd => exact execute_withQueue p data q s
    | _ => exact writeReg_withQueue p data q s _
  · rfl

/-- No register holds the queue. -/
theorem readWindow_withQueue (p : Params) (q : List HostEvent) (s : State) (off : BitVec 10) :
    readWindow p (withQueue q s) off = readWindow p s off := by
  unfold readWindow
  cases regAt p.maxChannels off <;> rfl

/-- An instruction neither looks at the pending events nor changes them. -/
theorem buildExec_withQueue (p : Params) (i : Instr) (q : List HostEvent) (s : State) :
    buildExec p i (withQueue q s) = withQueue q (buildExec p i s) := by
  have hcommand (c : Command) : complete .writeDone (performCommand p (withQueue q s) c) =
      withQueue q (complete .writeDone (performCommand p s c)) := by
    rw [performCommand_withQueue]; rfl
  cases i with
  | read off be =>
    exact congrArg (fun w => complete (.readData w) (withQueue q s)) (readWindow_withQueue p q s off)
  | write off be data => simp only [buildExec, performWrite_withQueue]; rfl
  | nop => exact hcommand .nop
  | step => exact hcommand .step
  | laneReset => exact hcommand .laneReset
  | fullReset => exact hcommand .fullReset
  | clearStatus => exact hcommand .clearStatus

theorem buildExec_queue (p : Params) (i : Instr) (s : State) : (buildExec p i s).queue = s.queue := by
  have hpass := congrArg State.queue (buildExec_withQueue p i s.queue s)
  exact hpass

/-- A step takes the event at the head and leaves those behind it. -/
theorem buildStep_withQueue_cons (p : Params) (e : HostEvent) (rest : List HostEvent) (s : State) :
    buildStep p (withQueue (e :: rest) s) = withQueue rest (buildStep p (withQueue [e] s)) := by
  cases e with
  | hardReset t => rfl
  | transaction t =>
    exact (buildExec_withQueue p _ rest s).trans
      (congrArg (withQueue rest) (buildExec_withQueue p (decodeTransaction t) [] s)).symm

/-- As many steps as there are events leave the events behind them, which the outcome does not depend on. -/
theorem run_events (es : List HostEvent) (s : State) : ∃ t : State, ∀ later : List HostEvent,
    Host.Core.run core es.length (withQueue (es ++ later) s) = .next (withQueue later t) := by
  induction es generalizing s with
  | nil => exact ⟨s, fun _ => rfl⟩
  | cons e es ih =>
    obtain ⟨t, ht⟩ := ih (buildStep hw (withQueue [e] s))
    refine ⟨t, fun later => ?_⟩
    rw [List.length_cons, run_succ, List.cons_append, buildStep_withQueue_cons]
    exact ht later

/-! ### The report of a transaction (rules R77, R82, R230) -/

theorem response_of_read (p : Params) (s : State) {tr : Transaction} (h : tr.isWrite = false) :
    (buildExec p (decodeTransaction tr) s).response = .readData (readWindow p s tr.offset) := by
  simp [decodeTransaction, h, buildExec]

theorem response_of_write (p : Params) (s : State) {tr : Transaction} (h : tr.isWrite = true) :
    (buildExec p (decodeTransaction tr) s).response = .writeDone := by
  rcases decodeTransaction_cases tr with ⟨hread, -⟩ | ⟨c, -, -, -, hcommand⟩ | ⟨-, -, hwrite⟩
  · simp [h] at hread
  · rw [hcommand]; cases c <;> rfl
  · rw [hwrite]; rfl

/-! ### What reaches the lanes and the dispatch report (rules R32, R267) -/

/-- A WRITE that carries no command leaves the lanes and the report alone. -/
theorem performWrite_keeps_lanes (p : Params) {off : BitVec 10} {be : BitVec 4} {data : Word} (s : State)
    (h : be = 15#4 → wordIndex off = cmdIndex → ∀ c, data ≠ encodeCommand c) :
    (performWrite p off be data s).lanes = s.lanes ∧ (performWrite p off be data s).outChannels = s.outChannels ∧
      (performWrite p off be data s).activeGroups = s.activeGroups := by
  rcases performWrite_cases p off be data s with ⟨-, hbad⟩ | ⟨hbe, hcmd, hexecute⟩ | ⟨-, -, hreg⟩
  · rw [hbad]; exact ⟨rfl, rfl, rfl⟩
  · rw [hexecute, execute_of_reserved p s (h hbe ((regAt_eq_cmd_iff _ off).1 hcmd))]; exact ⟨rfl, rfl, rfl⟩
  · obtain ⟨hlanes, hout, hgroups, -⟩ := writeReg_frame p data s (regAt p.maxChannels off)
    rw [hreg]; exact ⟨hlanes, hout, hgroups⟩

/-- What a transaction does to the lanes and the report: nothing, or it is a command that does. -/
theorem buildExec_decodeTransaction_lanes (p : Params) (tr : Transaction) (s : State) :
    ((buildExec p (decodeTransaction tr) s).lanes = s.lanes ∨ decodeTransaction tr = .step ∨
        decodeTransaction tr = .laneReset ∨ decodeTransaction tr = .fullReset) ∧
      (((buildExec p (decodeTransaction tr) s).outChannels = s.outChannels ∧
          (buildExec p (decodeTransaction tr) s).activeGroups = s.activeGroups) ∨
        decodeTransaction tr = .step ∨ decodeTransaction tr = .fullReset) := by
  rcases decodeTransaction_cases tr with ⟨-, hread⟩ | ⟨c, -, -, -, hcommand⟩ | ⟨-, hnocmd, hwrite⟩
  · rw [hread]; exact ⟨.inl rfl, .inl ⟨rfl, rfl⟩⟩
  · rw [hcommand]
    cases c with
    | nop | clearStatus => exact ⟨.inl rfl, .inl ⟨rfl, rfl⟩⟩
    | step => exact ⟨.inr (.inl rfl), .inr (.inl rfl)⟩
    | laneReset => exact ⟨.inr (.inr (.inl rfl)), .inl ⟨rfl, rfl⟩⟩
    | fullReset => exact ⟨.inr (.inr (.inr rfl)), .inr (.inr rfl)⟩
  · obtain ⟨hlanes, hout, hgroups⟩ := performWrite_keeps_lanes p s hnocmd
    rw [hwrite]; exact ⟨.inl hlanes, .inl ⟨hout, hgroups⟩⟩

/-! ### The statements -/

/-- Settles O8: `step_eq_next`, and on a transaction the queue and the report of its instruction. -/
theorem everyTransactionCompletes : Obligations.EveryTransactionCompletes := by
  refine fun s => ⟨_, step_eq_next s, fun tr rest hq => ?_⟩
  have hstep : buildStep hw s = buildExec hw (decodeTransaction tr) (withQueue rest s) := by
    simp only [buildStep, hq]; rfl
  rw [hstep]
  refine ⟨buildExec_queue hw _ (withQueue rest s), response_of_write hw _, fun hread => ?_⟩
  rw [response_of_read hw _ hread, readWindow_withQueue]

/-- Settles O9: `run_events`, with nothing and with anything queued behind. -/
theorem eventsArePerformedInOrder : Obligations.EventsArePerformedInOrder := by
  intro es s
  obtain ⟨t, ht⟩ := run_events es s
  refine ⟨withQueue [] t, rfl, ?_, ht⟩
  have hnone := ht []
  rwa [List.append_nil] at hnone

/-- Settles O10: with the queue empty the step is the idle one. -/
theorem idleBlockKeepsItsState : Obligations.IdleBlockKeepsItsState := by
  intro s hq
  rw [step_eq_next, buildStep_of_queue_nil hw hq]

/-- Settles O28: both steps reset the block, and keep the same queue and counter. -/
theorem hardwareResetAbandonsTheTransaction : Obligations.HardwareResetAbandonsTheTransaction := by
  intro s s' t t' rest hcount
  have hreset (u : State) (x : Option Transaction) : step { u with queue := .hardReset x :: rest } =
      .next { State.reset with queue := rest, freeCount := u.freeCount } :=
    step_hardReset (s := { u with queue := .hardReset x :: rest }) rfl
  exact ⟨_, hreset s t, by rw [hreset s' t', hcount], rfl⟩

/-- Settles O54: an idle step changes nothing, and a transaction only what `buildExec_decodeTransaction_lanes` says. -/
theorem onlyCommandsChangeLaneState : Obligations.OnlyCommandsChangeLaneState := by
  intro s t hstep
  rcases step_cases s with ⟨-, hnext⟩ | ⟨x, rest, hq, hnext⟩ | ⟨tr, rest, hq, hnext⟩ <;>
    obtain rfl := Host.Outcome.next.inj (hnext.symm.trans hstep)
  · exact ⟨fun h => absurd rfl h, fun h => by simp at h⟩
  · exact ⟨fun _ => .inl ⟨x, rest, hq⟩, fun _ => .inl ⟨x, rest, hq⟩⟩
  · obtain ⟨hlanes, hreport⟩ := buildExec_decodeTransaction_lanes hw tr (withQueue rest s)
    refine ⟨fun h => .inr ⟨tr, rest, hq, hlanes.resolve_left h⟩, fun h => .inr ⟨tr, rest, hq, hreport.resolve_left ?_⟩⟩
    exact fun ⟨hout, hgroups⟩ => h.elim (· hout) (· hgroups)

end Sys2Proof.Proofs.HostQueue
end

section
/-! PROOFS. Register accesses: the words of the packed registers, what a write of one register leaves of the others,
and that a write repeated is the write, with the statements about them (spec/10_state.md section 5,
spec/44_host_commands.md section 1). -/

namespace Sys2Proof.Proofs.RegisterAccess

open Sys2Proof Sys2Proof.Machine Sys2Proof.Config Sys2Proof.Safety Sys2Proof.Laws
open Sys2Proof.Proofs.Registers Sys2Proof.Proofs.BusWindow Sys2Proof.Proofs.HostCommands

/-! ### The packed registers (rules R53, R54, R102) -/

theorem toNat_fieldAt {n lo : Nat} (v : BitVec n) (h : lo + n ≤ 32) : (fieldAt lo v).toNat = v.toNat <<< lo := by
  have hv : v.toNat * 2 ^ lo < 2 ^ 32 :=
    calc v.toNat * 2 ^ lo < 2 ^ n * 2 ^ lo := Nat.mul_lt_mul_of_pos_right v.isLt (by positivity)
      _ = 2 ^ (lo + n) := by rw [← pow_add, Nat.add_comm]
      _ ≤ 2 ^ 32 := Nat.pow_le_pow_right (by decide) h
  have hwidth : v.toNat < 2 ^ 32 := v.isLt.trans_le (Nat.pow_le_pow_right (by decide) (by omega))
  rw [fieldAt, BitVec.toNat_shiftLeft, BitVec.toNat_setWidth, Nat.mod_eq_of_lt hwidth, Nat.shiftLeft_eq,
    Nat.mod_eq_of_lt hv]

/-- STATUS is the sum of its fields, each at its weight. -/
theorem statusWord_eq (s : State) : statusWord s = BitVec.ofNat 32 (s.badCmd.toNat + 2 * s.badAcc.toNat +
    2 ^ 8 * s.outChannels.toNat + 2 ^ 16 * s.activeGroups.toNat) := by
  have hcmd : s.badCmd.toNat < 2 ^ 1 := Bool.toNat_lt _
  have hacc : s.badAcc.toNat < 2 ^ 1 := Bool.toNat_lt _
  have hout := s.outChannels.isLt
  have hgroups := s.activeGroups.isLt
  apply BitVec.eq_of_toNat_eq
  rw [statusWord]
  simp only [BitVec.toNat_or, toNat_fieldAt _ (show 16 + 5 ≤ 32 by decide), toNat_fieldAt _ (show 8 + 5 ≤ 32 by decide),
    toNat_fieldAt _ (show 1 + 1 ≤ 32 by decide), toNat_fieldAt _ (show 0 + 1 ≤ 32 by decide), BitVec.toNat_ofBool,
    Nat.or_assoc, Nat.shiftLeft_zero]
  rw [← Nat.shiftLeft_add_eq_or_of_lt hcmd, ← Nat.shiftLeft_add_eq_or_of_lt (i := 8) (by omega),
    ← Nat.shiftLeft_add_eq_or_of_lt (i := 16) (by omega), BitVec.toNat_ofNat]
  omega

/-- CTRL is the sum of its fields, each at its weight. -/
theorem ctrlWord_eq (s : State) : ctrlWord hw s =
    BitVec.ofNat 32 ((variantCode s.variant).toNat + 4 * s.lfoEn.toNat + 8 * s.detuneEn.toNat) := by
  unfold ctrlWord lfoOn
  cases s.variant <;> cases s.lfoEn <;> cases s.detuneEn <;> rfl

/-- Settles O11: the register at the word, and the two packed registers as sums. -/
theorem readReturnsTheRegisterAndChangesNothing : Obligations.ReadReturnsTheRegisterAndChangesNothing := by
  intro r off be s hr hword
  rw [exec_read, readWindow_of_wordIndex s hr (by rw [hword, wordIndex_regOffset])]
  refine congrArg (fun w => Host.Outcome.next (complete (.readData w) s)) ?_
  cases r with
  | ctrl =>
    refine (ctrlWord_eq s).trans ?_
    cases s.variant <;> rfl
  | status => exact statusWord_eq s
  | channels => exact BitVec.eq_of_toNat_eq (by simp [readReg])
  | reserved => exact absurd rfl hr
  | _ => rfl

/-! ### CTRL (rule R53) -/

/-- The variant that a code leaves in CTRL: the one it names, and the old one for the reserved code. -/
theorem variantOfCode_getD (code : BitVec 2) (v : Variant) : (variantOfCode code).getD v =
    match code.toNat with | 0 => .czSaw | 1 => .czSawPulse | 2 => .moogInvSaw | _ => v := by
  have hcode : ∀ c : BitVec 2, c = 0#2 ∨ c = 1#2 ∨ c = 2#2 ∨ c = 3#2 := by decide
  rcases hcode code with rfl | rfl | rfl | rfl <;> rfl

theorem variantCode_getD_of_ne {code : BitVec 2} (v : Variant) (h : code ≠ 3#2) :
    variantCode ((variantOfCode code).getD v) = code := by
  have hcode : ∀ c : BitVec 2, c ≠ 3#2 → c = 0#2 ∨ c = 1#2 ∨ c = 2#2 := by decide
  rcases hcode code h with rfl | rfl | rfl <;> rfl

theorem toNat_low_two_bits (data : Word) : (data.extractLsb' 0 2).toNat = data.toNat % 4 :=
  BitVec.extractLsb'_toNat ..

/-- Bits [3:0] of a word are the code, LFO_EN and DETUNE_EN of a CTRL write. -/
theorem toNat_mod_sixteen (data : Word) :
    data.toNat % 16 = data.toNat % 4 + 4 * (data.getLsbD 2).toNat + 8 * (data.getLsbD 3).toNat := by
  simp only [BitVec.getLsbD, Nat.toNat_testBit]
  omega

/-- The low two bits of CTRL as read are VARIANT's code. -/
theorem ctrlWord_mod_four (s : State) : (ctrlWord hw s).toNat % 4 = (variantCode s.variant).toNat := by
  have hcode := (variantCode s.variant).isLt
  rw [ctrlWord_eq, BitVec.toNat_ofNat]
  omega

/-- CTRL after a write reads as the stored code with the written bits 2 and 3. -/
theorem ctrlWord_writeCtrl (data : Word) (s : State) : ctrlWord hw (writeCtrl hw data s) =
    BitVec.ofNat 32 ((variantCode ((variantOfCode (data.extractLsb' 0 2)).getD s.variant)).toNat +
      (data.toNat % 16 - data.toNat % 4)) := by
  rw [ctrlWord_eq, toNat_mod_sixteen]
  congr 1
  simp only [writeCtrl_variant, writeCtrl_lfoEn, writeCtrl_detuneEn, show hw.lfoSupported = true from rfl, if_true]
  omega

/-- Settles O17: the next state, and CTRL as read from it, with a named code and with the reserved one. -/
theorem ctrlWriteStoresItsFields : Obligations.CtrlWriteStoresItsFields := by
  intro off data s hoff
  have hword : (wordIndex off).toNat = regIndex .ctrl := by rw [hoff]; rfl
  have hcode := toNat_low_two_bits data
  have hread : readWindow hw (complete .writeDone (writeReg hw data s .ctrl)) off = ctrlWord hw (writeCtrl hw data s) :=
    readWindow_writeReg_same (r := .ctrl) data s rfl hword
  refine ⟨_, exec_write_of_wordIndex (r := .ctrl) data s rfl hword, ?_, fun hne => ?_, fun heq => ?_⟩
  · rw [writeReg, writeCtrl, variantOfCode_getD, hcode]
    rfl
  · have hnamed : data.extractLsb' 0 2 ≠ 3#2 := fun h => hne (by rw [← hcode, h]; rfl)
    rw [hread, ctrlWord_writeCtrl, variantCode_getD_of_ne _ hnamed, hcode]
    congr 1
    omega
  · have hreserved : data.extractLsb' 0 2 = 3#2 := BitVec.eq_of_toNat_eq (hcode.trans heq)
    have hold : readWindow hw s off = ctrlWord hw s := readWindow_of_wordIndex (r := .ctrl) s (by simp) hword
    have hkept : (variantOfCode 3#2).getD s.variant = s.variant := rfl
    rw [hread, ctrlWord_writeCtrl, hreserved, hkept, hold, ctrlWord_mod_four, heq, Nat.add_comm]

/-! ### The frame of a register write (rule R231) -/

/-- A register write is not seen at any other register. -/
theorem readReg_writeReg_of_ne {r r' : Reg} (p : Params) (data : Word) (s : State) (hs : storesWrites r = true)
    (hne : r' ≠ r) : readReg p (writeReg p data s r) r' = readReg p s r' := by
  cases r with
  | ctrl | channels | sampleInterval | freqKnob | fineKnob | shapeKnob =>
    cases r' <;> first | rfl | exact absurd rfl hne
  | pitchCv i =>
    cases r' with
    | pitchCv j => exact Vector.getElem_set_ne i.isLt j.isLt fun h => hne (congrArg Reg.pitchCv (Fin.ext h.symm))
    | _ => rfl
  | shapeCv i =>
    cases r' with
    | shapeCv j => exact Vector.getElem_set_ne i.isLt j.isLt fun h => hne (congrArg Reg.shapeCv (Fin.ext h.symm))
    | _ => rfl
  | _ => cases hs

/-- The words of the storing registers: 3, 5 to 9 and 16 to 47 (rule R49). -/
theorem storesWrites_regAt {off : BitVec 10} (h : (wordIndex off).toNat = 3 ∨
    (5 ≤ (wordIndex off).toNat ∧ (wordIndex off).toNat < 10) ∨
    (16 ≤ (wordIndex off).toNat ∧ (wordIndex off).toNat < 48)) : storesWrites (regAt 16 off) = true := by
  by_contra hstores
  have hcmd : regAt 16 off ≠ .cmd := fun hc => by
    have hten := congrArg BitVec.toNat ((regAt_eq_cmd_iff 16 off).1 hc)
    simp only [cmdIndex, BitVec.toNat_ofNat] at hten
    omega
  have hwords := (regAt_not_stores_iff off).1 ⟨by simpa using hstores, hcmd⟩
  omega

/-- Different words that hold registers hold different ones. -/
theorem regAt_ne_of_wordIndex_ne {a b : BitVec 10} (h : wordIndex a ≠ wordIndex b)
    (hb : regAt 16 b ≠ .reserved) : regAt 16 a ≠ regAt 16 b := fun heq => by
  have ha := regIndex_regAt (off := a) (heq ▸ hb)
  rw [heq, regIndex_regAt hb] at ha
  exact h (BitVec.eq_of_toNat_eq ha.symm)

/-- Settles O21: the register at every other word is another one, and keeps its word. -/
theorem registerWriteFrame : Obligations.RegisterWriteFrame := by
  intro off data s w hw'
  have hstores : storesWrites (regAt 16 off) = true := storesWrites_regAt hw'
  have hreg := ne_reserved_of_storesWrites hstores
  obtain ⟨hlanes, -, -, -, hqueue, -, hcount⟩ := writeReg_frame hw data s (regAt 16 off)
  refine ⟨_, exec_write_of_wordIndex data s hstores (regIndex_regAt hreg).symm, fun a ha => ?_, hlanes, hqueue, hcount⟩
  have hread : readWindow hw (complete .writeDone (writeReg hw data s (regAt 16 off))) a = readWindow hw s a := by
    rw [readWindow_complete]
    exact readReg_writeReg_of_ne hw data s hstores (regAt_ne_of_wordIndex_ne ha hreg)
  rw [readWindowByte, readWindowByte, hread]

/-! ### Repeated writes (rule R77) -/

/-- Writing a register twice is writing it once. -/
theorem writeReg_writeReg (p : Params) (data : Word) (s : State) (r : Reg) :
    writeReg p data (writeReg p data s r) r = writeReg p data s r := by
  cases r with
  | ctrl =>
    have hvariant : ∀ (o : Option Variant) (v : Variant), o.getD (o.getD v) = o.getD v := by rintro (_ | _) _ <;> rfl
    have hlfo : (if p.lfoSupported then data.getLsbD 2 else if p.lfoSupported then data.getLsbD 2 else s.lfoEn) =
        if p.lfoSupported then data.getLsbD 2 else s.lfoEn := by split_ifs <;> rfl
    simp only [writeReg, writeCtrl, hvariant, hlfo]
  | pitchCv i => simp only [writeReg, Vector.set_set]
  | shapeCv i => simp only [writeReg, Vector.set_set]
  | _ => rfl

theorem performWrite_performWrite {p : Params} {off : BitVec 10} (be : BitVec 4) (data : Word) (s : State)
    (h : wordIndex off ≠ cmdIndex) :
    performWrite p off be data (performWrite p off be data s) = performWrite p off be data s := by
  have hcmd : regAt p.maxChannels off ≠ .cmd := mt (regAt_eq_cmd_iff _ off).1 h
  by_cases hbe : be = 15#4
  · have hwrite (u : State) : performWrite p off be data u = writeReg p data u (regAt p.maxChannels off) := by
      rcases performWrite_cases p off be data u with ⟨hpartial, -⟩ | ⟨-, hc, -⟩ | ⟨-, -, hu⟩
      · exact absurd hbe hpartial
      · exact absurd hc hcmd
      · exact hu
    rw [hwrite, hwrite, writeReg_writeReg]
  · rw [performWrite_of_partial p off data _ hbe, performWrite_of_partial p off data s hbe]; rfl

/-- Settles O22: `performWrite_performWrite`, the report being the same both times. -/
theorem registerWritesAreIdempotent : Obligations.RegisterWritesAreIdempotent := by
  refine fun off be data s h => ⟨_, exec_write off be data s, ?_⟩
  rw [exec_write, performWrite_complete, performWrite_performWrite be data s h]
  rfl

end Sys2Proof.Proofs.RegisterAccess
end

section
/-! PROOFS. The four operations: their results on zeros, infinities and NaNs beside the rounding of finite values, with
the statements about RN32 and the operations (spec/00_scope.md section 4). -/

namespace Sys2Proof.Proofs.Operations

open Sys2Proof Sys2Proof.Machine Sys2Proof.Config Sys2Proof.Safety Sys2Proof.Laws
open Sys2Proof.Proofs.Registers Sys2Proof.Proofs.RoundingError Sys2Proof.Proofs.NaiveSample
open Sys2Proof.Proofs.NearestRounding Sys2Proof.Proofs.TaylorExp2

/-- Settles O1: `roundMagnitude` is `roundRat` of the value, which is nearest. -/
theorem roundMagnitudeIsNearestTiesToEven : Obligations.RoundMagnitudeIsNearestTiesToEven := by
  intro n d e hd
  rw [roundMagnitude_eq_roundRat n d e hd]
  exact roundsTo_roundRat (by positivity)

/-! ### Zeros -/

theorem magnitude_eq_zero_iff {w : Word} (h : isFinite w = true) : magnitude w = 0 ↔ value w = 0 := by
  rw [← magValue_nonpos_iff ((isFinite_iff w).1 h), ← abs_value, abs_nonpos_iff]

theorem isZero_iff_value {w : Word} (h : isFinite w = true) : isZero w = true ↔ value w = 0 := by
  rw [isZero_iff, magnitude_eq_zero_iff h]

/-- A zero is the word of its sign. -/
theorem eq_zero_of_value {w : Word} (h : isFinite w = true) (h0 : value w = 0) :
    w = if signBit w then 0x80000000#32 else 0#32 := by
  apply BitVec.eq_of_toNat_eq
  rw [toNat_eq w, (magnitude_eq_zero_iff h).2 h0]
  cases signBit w <;> rfl

theorem value_posZero : value 0#32 = 0 := (value_of_lt (by decide)).trans (by simp [magValue])

/-- The rounding of an exact zero is the zero of the sign it is given. -/
theorem roundQ_exact_zero (zneg : Bool) : roundQ zneg 0 = if zneg then 0x80000000#32 else 0#32 := by
  rw [roundQ, if_pos rfl, abs_zero, roundRat, if_pos rfl]
  cases zneg <;> rfl

/-- An exact zero sum has a minus sign for two negative zeros alone. -/
theorem fadd_of_add_eq_zero {a b : Word} (ha : isFinite a = true) (hb : isFinite b = true)
    (h : value a + value b = 0) :
    fadd a b = if a = 0x80000000#32 ∧ b = 0x80000000#32 then 0x80000000#32 else 0#32 := by
  have hsigns : (signBit a && signBit b) = true ↔ a = 0x80000000#32 ∧ b = 0x80000000#32 := by
    rw [Bool.and_eq_true]
    constructor
    · rintro ⟨hsa, hsb⟩
      have hva : value a ≤ 0 := by rw [value_eq, if_pos hsa]; linarith [magValue_nonneg (magnitude a)]
      have hvb : value b ≤ 0 := by rw [value_eq, if_pos hsb]; linarith [magValue_nonneg (magnitude b)]
      have ha0 := eq_zero_of_value ha (by linarith)
      have hb0 := eq_zero_of_value hb (by linarith)
      rw [if_pos hsa] at ha0
      rw [if_pos hsb] at hb0
      exact ⟨ha0, hb0⟩
    · rintro ⟨rfl, rfl⟩
      decide
  rw [fadd_finite ha hb, h, roundQ_exact_zero]
  exact if_congr hsigns rfl rfl

theorem fneg_fneg (w : Word) : fneg (fneg w) = w := by simp [fneg]

theorem fneg_eq_negZero_iff (w : Word) : fneg w = 0x80000000#32 ↔ w = 0#32 := by
  constructor
  · intro h
    rw [← fneg_fneg w, h]
    rfl
  · rintro rfl
    rfl

/-- An exact zero difference has a minus sign for -0.0 less +0.0 alone. -/
theorem fsub_of_sub_eq_zero {a b : Word} (ha : isFinite a = true) (hb : isFinite b = true)
    (h : value a - value b = 0) : fsub a b = if a = 0x80000000#32 ∧ b = 0#32 then 0x80000000#32 else 0#32 := by
  rw [fsub, fadd_of_add_eq_zero ha (by rwa [isFinite_fneg]) (by rwa [value_fneg, ← sub_eq_add_neg])]
  simp only [fneg_eq_negZero_iff]

/-! ### Signs of products and quotients -/

theorem roundQ_product_zero (a b : Word) : roundQ (signBit a != signBit b) 0 =
    if signBit a = signBit b then 0#32 else 0x80000000#32 := by
  rw [roundQ_exact_zero]
  cases signBit a <;> cases signBit b <;> rfl

theorem withSign_product_zero (a b : Word) : withSign (signBit a != signBit b) 0 =
    if signBit a = signBit b then 0#32 else 0x80000000#32 := by
  cases signBit a <;> cases signBit b <;> rfl

theorem withSign_product_inf (a b : Word) : withSign (signBit a != signBit b) infMagnitude =
    if signBit a = signBit b then 0x7F800000#32 else 0xFF800000#32 := by
  cases signBit a <;> cases signBit b <;> rfl

/-! ### Finite operands -/

section Finite

variable {a b : Word}

theorem isRN32_fadd (ha : isFinite a = true) (hb : isFinite b = true) (h : value a + value b ≠ 0) :
    IsRN32 ((value a + value b : ℚ) : ℝ) (fadd a b) := by
  rw [fadd_finite ha hb]; exact isRN32_roundQ _ h

theorem isRN32_fsub (ha : isFinite a = true) (hb : isFinite b = true) (h : value a - value b ≠ 0) :
    IsRN32 ((value a - value b : ℚ) : ℝ) (fsub a b) := by
  rw [fsub_finite ha hb]; exact isRN32_roundQ _ h

theorem isRN32_fmul (ha : isFinite a = true) (hb : isFinite b = true) (h : value a * value b ≠ 0) :
    IsRN32 ((value a * value b : ℚ) : ℝ) (fmul a b) := by
  rw [fmul_finite ha hb]; exact isRN32_roundQ _ h

theorem isRN32_fdiv (ha : isFinite a = true) (hb : isFinite b = true) (ha0 : value a ≠ 0) (hb0 : value b ≠ 0) :
    IsRN32 ((value a / value b : ℚ) : ℝ) (fdiv a b) := by
  rw [fdiv_finite ha hb hb0]; exact isRN32_roundQ _ (div_ne_zero ha0 hb0)

theorem fmul_of_mul_eq_zero (ha : isFinite a = true) (hb : isFinite b = true) (h : value a * value b = 0) :
    fmul a b = if signBit a = signBit b then 0#32 else 0x80000000#32 := by
  rw [fmul_finite ha hb, h, roundQ_product_zero]

theorem fdiv_of_zero (ha : isFinite a = true) (hb : isFinite b = true) (ha0 : value a = 0) (hb0 : value b ≠ 0) :
    fdiv a b = if signBit a = signBit b then 0#32 else 0x80000000#32 := by
  rw [fdiv_finite ha hb hb0, ha0, zero_div, roundQ_product_zero]

/-- Division by a zero: the signed infinity, and a NaN for a zero dividend. -/
theorem fdiv_by_zero (ha : isFinite a = true) (hb : isFinite b = true) (hb0 : value b = 0) :
    fdiv a b = if value a = 0 then quietNaN
      else if signBit a = signBit b then 0x7F800000#32 else 0xFF800000#32 := by
  simp only [fdiv, not_isNaN_of_isFinite ha, not_isNaN_of_isFinite hb, not_isInf_of_isFinite ha,
    not_isInf_of_isFinite hb, (isZero_iff_value hb).2 hb0, isZero_iff_value ha, withSign_product_inf, Bool.or_self,
    Bool.false_eq_true, if_false, if_true]

end Finite

/-! ### NaNs and infinities -/

theorem isNaN_fneg (w : Word) : isNaN (fneg w) = isNaN w := by
  rw [Bool.eq_iff_iff, isNaN_iff, isNaN_iff, magnitude_fneg]

theorem isInf_fneg (w : Word) : isInf (fneg w) = isInf w := by
  rw [Bool.eq_iff_iff, isInf_iff, isInf_iff, magnitude_fneg]

theorem not_isNaN_of_isInf {w : Word} (h : isInf w = true) : isNaN w = false := by
  rw [isInf_iff] at h
  rw [Bool.eq_false_iff, ne_eq, isNaN_iff, h]
  exact lt_irrefl _

theorem not_isZero_of_isInf {w : Word} (h : isInf w = true) : isZero w = false := by
  rw [isInf_iff] at h
  rw [Bool.eq_false_iff, ne_eq, isZero_iff, h]
  decide

theorem isNaN_quietNaN : isNaN quietNaN = true := by decide

/-- A NaN operand makes every result a NaN. -/
theorem operations_of_isNaN {a b : Word} (h : isNaN a = true ∨ isNaN b = true) :
    fadd a b = quietNaN ∧ fsub a b = quietNaN ∧ fmul a b = quietNaN ∧ fdiv a b = quietNaN := by
  have hor : (isNaN a || isNaN b) = true := by simpa using h
  refine ⟨?_, ?_, ?_, ?_⟩
  · rw [fadd, if_pos hor]
  · rw [fsub, fadd, isNaN_fneg, if_pos hor]
  · rw [fmul, if_pos hor]
  · rw [fdiv, if_pos hor]

section OneInfinity

variable {a b : Word}

/-- An infinity absorbs a finite addend. -/
theorem fadd_of_isInf (ha : isInf a = true) (hb : isFinite b = true) : fadd a b = a := by
  simp [fadd, not_isNaN_of_isInf ha, not_isNaN_of_isFinite hb, ha, not_isInf_of_isFinite hb]

theorem fadd_of_isInf_right (ha : isInf a = true) (hb : isFinite b = true) : fadd b a = a := by
  simp [fadd, not_isNaN_of_isInf ha, not_isNaN_of_isFinite hb, ha, not_isInf_of_isFinite hb]

/-- An infinity times a finite value: a NaN for a zero, else the infinity of the product of the signs. -/
theorem fmul_of_isInf (ha : isInf a = true) (hb : isFinite b = true) : fmul a b =
    if value b = 0 then quietNaN else if signBit a = signBit b then 0x7F800000#32 else 0xFF800000#32 := by
  simp [fmul, not_isNaN_of_isInf ha, not_isNaN_of_isFinite hb, ha, not_isZero_of_isInf ha, isZero_iff_value hb,
    withSign_product_inf]

theorem fmul_comm (a b : Word) : fmul a b = fmul b a := by
  simp only [fmul, Bool.or_comm (isNaN a), Bool.or_comm (isInf a), Bool.or_comm (isZero a), bne_comm (a := signBit a),
    Nat.mul_comm (significand a), add_comm (ulpExponent a)]

theorem fdiv_of_isInf (ha : isInf a = true) (hb : isFinite b = true) :
    fdiv a b = if signBit a = signBit b then 0x7F800000#32 else 0xFF800000#32 := by
  simp [fdiv, not_isNaN_of_isInf ha, not_isNaN_of_isFinite hb, ha, not_isInf_of_isFinite hb, withSign_product_inf]

theorem fdiv_by_isInf (ha : isInf a = true) (hb : isFinite b = true) :
    fdiv b a = if signBit a = signBit b then 0#32 else 0x80000000#32 := by
  simp [fdiv, not_isNaN_of_isInf ha, not_isNaN_of_isFinite hb, ha, not_isInf_of_isFinite hb, withSign_product_zero,
    eq_comm]

end OneInfinity

section TwoInfinities

variable {a b : Word}

theorem fadd_of_isInf_isInf (ha : isInf a = true) (hb : isInf b = true) :
    fadd a b = if signBit a = signBit b then a else quietNaN := by
  simp [fadd, not_isNaN_of_isInf ha, not_isNaN_of_isInf hb, ha, hb]

theorem fsub_of_isInf_isInf (ha : isInf a = true) (hb : isInf b = true) :
    fsub a b = if signBit a = signBit b then quietNaN else a := by
  rw [fsub, fadd_of_isInf_isInf ha (by rwa [isInf_fneg]), signBit_fneg]
  cases signBit a <;> cases signBit b <;> rfl

theorem fmul_of_isInf_isInf (ha : isInf a = true) (hb : isInf b = true) :
    fmul a b = if signBit a = signBit b then 0x7F800000#32 else 0xFF800000#32 := by
  simp [fmul, not_isNaN_of_isInf ha, not_isNaN_of_isInf hb, ha, not_isZero_of_isInf ha, not_isZero_of_isInf hb,
    withSign_product_inf]

theorem fdiv_of_isInf_isInf (ha : isInf a = true) (hb : isInf b = true) : fdiv a b = quietNaN := by
  simp [fdiv, not_isNaN_of_isInf ha, not_isNaN_of_isInf hb, ha, hb]

end TwoInfinities

/-! ### The statement -/

/-- Settles O2: the finite operands by `roundQ`, then a NaN, one infinity and two. -/
theorem binaryOperationsRoundTheExactResult : Obligations.BinaryOperationsRoundTheExactResult := by
  refine fun a b => ⟨fun ha hb => ?_, fun hnan => ?_, fun ha hb => ?_, fun ha hb => ?_⟩
  · refine ⟨isRN32_fadd ha hb, fadd_of_add_eq_zero ha hb, isRN32_fsub ha hb, fsub_of_sub_eq_zero ha hb,
      isRN32_fmul ha hb, fmul_of_mul_eq_zero ha hb, isRN32_fdiv ha hb, fdiv_of_zero ha hb, fun ha0 hb0 => ?_,
      fun ha0 hb0 => ?_⟩
    · rw [fdiv_by_zero ha hb hb0, if_neg ha0]
    · rw [fdiv_by_zero ha hb hb0, if_pos ha0, isNaN_quietNaN]
  · obtain ⟨hadd, hsub, hmul, hdiv⟩ := operations_of_isNaN hnan
    rw [hadd, hsub, hmul, hdiv]
    exact ⟨isNaN_quietNaN, isNaN_quietNaN, isNaN_quietNaN, isNaN_quietNaN⟩
  · have hsub : fsub a b = a := fadd_of_isInf ha (by rwa [isFinite_fneg])
    have hsub' : fsub b a = fneg a := fadd_of_isInf_right (by rwa [isInf_fneg]) hb
    refine ⟨fadd_of_isInf ha hb, fadd_of_isInf_right ha hb, hsub, hsub', fun hb0 => ?_,
      fun hb0 => ⟨?_, fmul_comm b a⟩, fdiv_of_isInf ha hb, fdiv_by_isInf ha hb⟩
    · rw [fmul_comm b a, fmul_of_isInf ha hb, if_pos hb0]
      exact ⟨isNaN_quietNaN, isNaN_quietNaN⟩
    · rw [fmul_of_isInf ha hb, if_neg hb0]
  · rw [fadd_of_isInf_isInf ha hb, fsub_of_isInf_isInf ha hb, fmul_of_isInf_isInf ha hb, fdiv_of_isInf_isInf ha hb]
    refine ⟨fun hsame => ?_, fun hdiffer => ?_, isNaN_quietNaN⟩
    · simp only [if_pos hsame]; exact ⟨trivial, isNaN_quietNaN, trivial⟩
    · simp only [if_neg hdiffer]; exact ⟨isNaN_quietNaN, trivial, trivial⟩

end Sys2Proof.Proofs.Operations
end

section
/-! PROOFS. The mapper's inputs: the increment's clamp, the shape map composed with itself, the corners of EXP2 in mode
TAYLOR5 and the range of the frequency, with the statements about them (spec/43_control_mapper.md,
spec/40_phase_accumulator.md). -/

namespace Sys2Proof.Proofs.MapperInputs

open Sys2Proof Sys2Proof.Machine Sys2Proof.Config Sys2Proof.Safety Sys2Proof.Laws
open Sys2Proof.Proofs.Registers Sys2Proof.Proofs.RoundingError Sys2Proof.Proofs.PhaseAccumulator
open Sys2Proof.Proofs.NaiveSample Sys2Proof.Proofs.DelayLine Sys2Proof.Proofs.Mapper Sys2Proof.Proofs.TaylorExp2
open Sys2Proof.Proofs.NearestRounding Sys2Proof.Proofs.ExactExp2 Sys2Proof.Proofs.HostCommands
open Sys2Proof.Proofs.Operations

/-! ### The increment (rule R130) -/

/-- A clamp answers the low end for everything up to it. -/
theorem fclamp_of_fle {lo hi x : Word} (hpos : 0 < lo.toNat) (hlo : lo.toNat < 2 ^ 31) (hle : fle lo hi = true)
    (h : fle x lo = true) : fclamp x lo hi = lo := by
  obtain ⟨hnan, hnanlo, -⟩ := (fle_iff x lo).1 h
  by_cases hlt : flt x lo = true
  · simp [fclamp, hlt]
  · have hge : fle lo x = true := fle_of_not_flt hnan hnanlo (by simpa using hlt)
    obtain ⟨hlower, hupper⟩ := toNat_mem_of_inRange hpos hlo hlo ⟨hge, h⟩
    obtain rfl : x = lo := BitVec.eq_of_toNat_eq (le_antisymm hupper hlower)
    exact fclamp_of_inRange ⟨h, hle⟩

theorem flt_iff (a b : Word) :
    flt a b = true ↔ isNaN a = false ∧ isNaN b = false ∧ orderKey a < orderKey b := by
  simp [flt, and_assoc]

/-- A clamp answers the high end for everything above it. -/
theorem fclamp_of_flt {lo hi x : Word} (hle : fle lo hi = true) (h : flt hi x = true) : fclamp x lo hi = hi := by
  obtain ⟨hnanlo, -, hends⟩ := (fle_iff lo hi).1 hle
  obtain ⟨-, hnan, habove⟩ := (flt_iff hi x).1 h
  have hnotbelow : flt x lo = false := not_flt_of_fle ((fle_iff lo x).2 ⟨hnanlo, hnan, hends.trans habove.le⟩)
  simp [fclamp, hnan, hnotbelow, h]

/-- Settles O40: the clamp's range, its two ends and its middle. -/
theorem incrementIsClamped : Obligations.IncrementIsClamped := by
  refine fun freq dt => ⟨increment_ok freq dt, fun h => ?_, fun h => fclamp_of_flt (by decide) h, fclamp_of_inRange⟩
  rcases h with hnan | hle
  · exact fclamp_of_isNaN incMin incMax hnan
  · exact fclamp_of_fle (by decide) (by decide) (by decide) hle

/-! ### The pitch (rules R200–R203) -/

/-- Settles O34: MAP's formula as it stands, and FINE_KNOB's one place in it. -/
theorem pitchOfTheModes : Obligations.PitchOfTheModes := by
  refine fun p s i => ⟨rfl, fun hlfo x => ?_⟩
  have hon : lfoOn p s = true := hlfo
  have hon' : lfoOn p { s with fineKnob := x } = true := hlfo
  have hknob : knobOctaves p { s with fineKnob := x } = knobOctaves p s := by
    simp only [knobOctaves, hon, hon', if_true]
  simp only [laneFreq, pitchOctaves, hknob]

/-! ### The shape (rules R207, R212) -/

/-- Up to 0.1 the clamp cuts, and the shape is the lower bound. -/
theorem shapeOfRaw_of_le {x : Word} (h : x.toNat ≤ 0x3DCCCCCD) : shapeOfRaw x = 0x3C23D70B#32 := by
  have hle : fle x shapeRawLo = true := (fle_iff_of_le (h.trans (by decide)) (by decide)).2 h
  rw [shapeOfRaw, fclamp_of_fle (by decide) (by decide) (by decide) hle]
  decide

/-- On the shape range, which ends below 1.0, the map answers less than 0.1. -/
theorem shapeOfRaw_lt {x : Word} (hx : ShapeOk x) : (shapeOfRaw x).toNat < 0x3DCCCCCD := by
  obtain ⟨-, hmax⟩ := hx
  rcases le_total x.toNat 0x3DCCCCCD with hle | hge
  · rw [shapeOfRaw_of_le hle]; decide
  · have hinf : x.toNat ≤ infMagnitude := hmax.trans (by decide)
    have hkeep : fclamp x shapeRawLo shapeRawHi = x := fclamp_of_inRange
      ⟨(fle_iff_of_le (by decide) hinf).2 hge, (fle_iff_of_le hinf (by decide)).2 (hmax.trans (by decide))⟩
    have hmono : (fmul x shapeScale).toNat ≤ (fmul 0x3F7D70A3#32 shapeScale).toNat :=
      toNat_fmul_mono hmax (by decide) (by decide)
    rw [shapeOfRaw, hkeep]
    exact hmono.trans_lt (by decide)

/-- The shape map fixes the lower bound of its range alone (log entry 13). -/
theorem shapeOfRaw_eq_self_iff {x : Word} (hx : ShapeOk x) : shapeOfRaw x = x ↔ x = 0x3C23D70B#32 := by
  constructor
  · intro hfix
    have hlt := shapeOfRaw_lt hx
    rw [hfix] at hlt
    exact hfix.symm.trans (shapeOfRaw_of_le hlt.le)
  · rintro rfl
    exact shapeOfRaw_of_le (by decide)

/-- Settles O39: MAP's shape does not depend on the lane, and `shapeOfRaw_eq_self_iff`. -/
theorem repeatedStepKeepsTheShape : Obligations.RepeatedStepKeepsTheShape := by
  refine ⟨fun s i hactive => ⟨_, _, exec_step s, exec_step _, ?_, ?_⟩, fun x => shapeOfRaw_eq_self_iff⟩
  · have hactive' : i.val < activeCount (complete .writeDone (stepBlock hw s)) := hactive
    rw [readWindow_shape, readWindow_shape, lane_after_step_of_active hactive', lane_after_step_of_active hactive,
      stepLane_shape, stepLane_shape]
    rfl
  · rw [readWindow_shape, lane_after_step_of_active hactive, stepLane_shape]
    rfl

/-! ### EXP2 in mode TAYLOR5 as one rounding (rule R204) -/

/-- A value that is not zero is rounded with its own sign. -/
theorem roundQ_of_ne_zero (zneg : Bool) {q : ℚ} (h : q ≠ 0) : roundQ zneg q = roundQ false q := by
  rw [roundQ, roundQ, if_neg h, if_neg h]

/-- What `exp2Taylor` rounds: the polynomial, scaled. -/
def scaledPoly (x : Word) : ℚ := value (taylorPoly (fracPart x)) * 2 ^ ⌊value x⌋

theorem scaledPoly_pos {x : Word} (h : isFinite x = true) : 0 < scaledPoly x :=
  mul_pos (lt_of_lt_of_le one_pos (within_taylorPoly (within_fracPart h)).ge) (by positivity)

theorem toNat_exp2Taylor {x : Word} (h : isFinite x = true) : (exp2Taylor x).toNat = roundRat (scaledPoly x) := by
  have hpos := scaledPoly_pos h
  rw [exp2Taylor, floorInt_eq_floor h, ldexp32_eq (within_taylorPoly (within_fracPart h)).finite, ← scaledPoly,
    roundQ_of_ne_zero _ hpos.ne', toNat_roundQ hpos.le]

/-! ### The range of EXP2 and of the frequency (rules R33, R206) -/

theorem exp2_le_inf (p : Params) (x : Word) : (exp2 p x).toNat ≤ infMagnitude := by
  by_cases hnan : isNaN x = true
  · rw [exp2_of_isNaN p hnan]; decide
  rw [Bool.not_eq_true] at hnan
  cases hp : p.exp2Mode with
  | exact => exact toNat_exp2_le_inf hp hnan
  | taylor5 =>
    rcases isFinite_or_eq_inf hnan with hfin | rfl | rfl
    · rw [exp2_of_taylor5 hp hfin, toNat_exp2Taylor hfin]
      exact roundRat_le_inf (scaledPoly_pos hfin).le
    · rw [exp2_posInf]; decide
    · rw [exp2_negInf]; decide

/-- The reference frequency times +0.0, a positive finite value or +∞ is one of these again. -/
theorem freqOk_fmul_fRef {w : Word} (h : w.toNat ≤ infMagnitude) : FreqOk (fmul fRef w) := by
  rcases h.lt_or_eq with hfin | hinf
  · have hvalue : 0 ≤ value fRef * value w := by
      rw [value_of_lt hfin, value_of_lt (w := fRef) (by decide)]
      exact mul_nonneg (magValue_nonneg _) (magValue_nonneg _)
    rw [FreqOk, toNat_fmul (by decide) hfin]
    exact roundRat_le_inf hvalue
  · obtain rfl : w = 0x7F800000#32 := BitVec.eq_of_toNat_eq hinf
    unfold FreqOk
    decide

/-- Settles O35: EXP2's range, times F_REF. -/
theorem frequencyIsNeverNaNOrNegative : Obligations.FrequencyIsNeverNaNOrNegative :=
  fun p s i => freqOk_fmul_fRef (exp2_le_inf p (pitchOctaves p s i))

/-! ### Underflow of RN32 -/

/-- Half the least magnitude ties to zero, and less rounds to it. -/
theorem roundRat_of_underflow {x : ℚ} (h0 : 0 ≤ x) (h : x ≤ 2 ^ (-150 : ℤ)) : roundRat x = 0 := by
  have htie : roundRat (2 ^ (-150 : ℤ)) = 0 := by
    have hround := roundMagnitude_eq_roundRat 1 1 (-150) one_pos
    rw [show roundMagnitude 1 1 (-150) = 0 by decide] at hround
    rw [hround]
    norm_num
  exact Nat.le_zero.1 (htie ▸ roundRat_mono h0 h)

/-- Past the midpoint to the least magnitude the rounding is not zero. -/
theorem roundRat_pos {x : ℚ} (h : 2 ^ (-150 : ℤ) < x) : 0 < roundRat x := by
  have h0 : 0 ≤ x := le_trans (by positivity) h.le
  obtain ⟨-, -, habove⟩ := roundsTo_iff.1 (roundsTo_roundRat h0)
  by_contra hzero
  rw [Nat.not_lt, Nat.le_zero] at hzero
  have hmid := (habove 1 (by decide) (by omega)).1
  have hcast : 2 * x ≤ magValue 1 + magValue 0 := by rw [hzero] at hmid; exact_mod_cast hmid
  norm_num [magValue] at hcast h
  linarith

/-! ### The corners of mode TAYLOR5 -/

/-- One step of Horner's rule at a fraction, with a bound on the coefficient. -/
theorem within_horner_of_le {fr p t : Word} {b c : ℚ} (hfr : Within 0 1 fr) (hp : Within 0 b p)
    (ht : t.toNat ≤ 0x3F800000) (hc : value t ≤ c) (hb : Representable b) (hbc : Representable (b + c)) :
    Within 0 (b + c) (fadd (fmul fr p) t) := by
  have ht := within_unit_of_toNat_le ht
  have hmul : Within 0 b (fmul fr p) :=
    within_fmul hfr.finite hp.finite representable_zero hb (mul_nonneg hfr.ge hp.ge)
      ((mul_le_of_le_one_left hp.ge hfr.le).trans hp.le)
  exact within_fadd hmul.finite ht.finite representable_zero hbc (add_nonneg hmul.ge ht.ge) (add_le_add hmul.le hc)

/-- The polynomial is at most 2 on [0, 1]: its coefficients, each rounded up to a multiple of `2 ^ -16`, add up to
`2 - 2 ^ -13`. -/
theorem taylorPoly_le_two {fr : Word} (hfr : Within 0 1 fr) : value (taylorPoly fr) ≤ 2 := by
  have hp5 : Within 0 (88 / 2 ^ 16) taylorT5 := by
    refine ⟨by decide, ?_, ?_⟩ <;> rw [value_of_lt (by decide)] <;> norm_num [magValue, taylorT5]
  have hp4 := within_horner_of_le (t := 0x3C1D955B#32) (c := 631 / 2 ^ 16) hfr hp5 (by decide)
    (by rw [value_of_lt (by decide)]; norm_num [magValue]) (representable_of_eq 88 16) (representable_of_eq 719 16)
  have hp3 := within_horner_of_le (t := 0x3D635847#32) (c := 3638 / 2 ^ 16) hfr hp4 (by decide)
    (by rw [value_of_lt (by decide)]; norm_num [magValue]) (representable_of_eq 719 16) (representable_of_eq 4357 16)
  have hp2 := within_horner_of_le (t := 0x3E75FDF0#32) (c := 15744 / 2 ^ 16) hfr hp3 (by decide)
    (by rw [value_of_lt (by decide)]; norm_num [magValue]) (representable_of_eq 4357 16)
    (representable_of_eq 20101 16)
  have hp1 := within_horner_of_le (t := 0x3F317218#32) (c := 45427 / 2 ^ 16) hfr hp2 (by decide)
    (by rw [value_of_lt (by decide)]; norm_num [magValue]) (representable_of_eq 20101 16)
    (representable_of_eq 65528 16)
  have hp0 := within_horner_of_le (t := 0x3F800000#32) hfr hp1 (by decide) value_one.le (representable_of_eq 65528 16)
    (representable_of_eq 131064 16)
  exact hp0.le.trans (by norm_num)

/-- From a fraction of `2 ^ -16` up the polynomial is above 1, by more than RN32 can lose. -/
theorem le_taylorPoly {fr : Word} (hfr : Within (1 / 2 ^ 16) 1 fr) :
    1 + 1 / 2 ^ 17 ≤ value (taylorPoly fr) := by
  have hfr0 : Within 0 1 fr := hfr.mono (by positivity) le_rfl
  have hp5 : Within 0 (1 : ℕ) taylorT5 := by simpa using within_unit_of_toNat_le (t := taylorT5) (by decide)
  have hp4 := within_horner_nonneg (t := 0x3C1D955B#32) (by norm_num) hfr0 hp5 (by decide)
  have hp3 := within_horner_nonneg (t := 0x3D635847#32) (by norm_num) hfr0 hp4 (by decide)
  have hp2 := within_horner_nonneg (t := 0x3E75FDF0#32) (by norm_num) hfr0 hp3 (by decide)
  have hp1 := within_horner (t := 0x3F317218#32) (by norm_num) hfr0 hp2 (by decide)
  have hT1 : 1 / 2 ≤ value 0x3F317218#32 := by rw [value_of_lt (by decide)]; norm_num [magValue]
  obtain ⟨hfin, hge, hle⟩ := hp1
  have hmul : Within (1 / 2 ^ 17) 5 (fmul fr _) :=
    within_fmul hfr.finite hfin (representable_of_eq 1 17) (representable_of_eq 5 0)
      (by nlinarith [hfr.ge, hfr.le]) (by norm_num at hle; nlinarith [hfr.ge, hfr.le])
  have hp0 : Within (1 + 1 / 2 ^ 17) 6 (fadd (fmul fr _) 0x3F800000#32) :=
    within_fadd hmul.finite (by decide) (representable_of_eq (2 ^ 17 + 1) 17) (representable_of_eq 6 0)
      (by rw [value_one]; linarith [hmul.ge]) (by rw [value_one]; linarith [hmul.le])
  exact hp0.ge

theorem value_minus150 : value 0xC3160000#32 = -150 := by
  have hmag : value 0x43160000#32 = 150 := (value_of_lt (by decide)).trans (by norm_num [magValue])
  exact (value_fneg 0x43160000#32).trans (congrArg Neg.neg hmag)

/-- At -150 and below the scaled polynomial is at most half the least magnitude. -/
theorem scaledPoly_le_of_le {x : Word} (h : isFinite x = true) (hx : value x ≤ -150) :
    scaledPoly x ≤ 2 ^ (-150 : ℤ) := by
  have hfloor : ⌊value x⌋ ≤ -150 := by exact_mod_cast (Int.floor_le (value x)).trans hx
  rcases hfloor.lt_or_eq with hlt | heq
  · have hpow : (2 : ℚ) ^ ⌊value x⌋ ≤ 2 ^ (-151 : ℤ) := zpow_le_zpow_right₀ (by norm_num) (by omega)
    calc scaledPoly x ≤ 2 * 2 ^ (-151 : ℤ) :=
          mul_le_mul (taylorPoly_le_two (within_fracPart h)) hpow (by positivity) (by norm_num)
      _ = 2 ^ (-150 : ℤ) := by norm_num
  · have hge : -150 ≤ value x := by
      have := Int.floor_le (value x)
      rw [heq] at this
      exact_mod_cast this
    have hfrac : fracPart x = 0#32 := by
      rw [fracPart_eq h, heq, le_antisymm hx hge]
      norm_num [roundQ_zero]
    have hpoly : taylorPoly 0#32 = 0x3F800000#32 := by decide
    rw [scaledPoly, heq, hfrac, hpoly, value_one, one_mul]

/-- The next value above -150 is `2 ^ -16` away. -/
theorem le_value_of_flt_minus150 {x : Word} (hx : flt 0xC3160000#32 x = true) :
    -150 + 1 / 2 ^ 16 ≤ value x := by
  obtain ⟨-, -, hkey⟩ := (flt_iff _ _).1 hx
  have hbound : orderKey 0xC3160000#32 = -0x43160000 := by decide
  rw [hbound, orderKey] at hkey
  rw [value_eq]
  split_ifs at hkey ⊢
  · have hmag : magValue (magnitude x) ≤ magValue 0x4315FFFF := magValue_mono (by omega) (by decide)
    norm_num [magValue] at hmag ⊢
    linarith
  · exact le_trans (by norm_num) (magValue_nonneg _)

/-- Above -150 the scaled polynomial is more than half the least magnitude. -/
theorem lt_scaledPoly {x : Word} (h : isFinite x = true) (hx : flt 0xC3160000#32 x = true) :
    2 ^ (-150 : ℤ) < scaledPoly x := by
  have hnext := le_value_of_flt_minus150 hx
  have hfloor : -150 ≤ ⌊value x⌋ := Int.le_floor.2 (by push_cast; linarith [show (0 : ℚ) < 1 / 2 ^ 16 by norm_num])
  rcases hfloor.lt_or_eq with hlt | heq
  · have hpow : (2 : ℚ) ^ (-149 : ℤ) ≤ 2 ^ ⌊value x⌋ := zpow_le_zpow_right₀ (by norm_num) (by omega)
    calc (2 : ℚ) ^ (-150 : ℤ) < 2 ^ (-149 : ℤ) := zpow_lt_zpow_right₀ (by norm_num) (by norm_num)
      _ ≤ 2 ^ ⌊value x⌋ := hpow
      _ ≤ scaledPoly x := le_mul_of_one_le_left (by positivity) (within_taylorPoly (within_fracPart h)).ge
  · have hfrac : Within (1 / 2 ^ 16) 1 (fracPart x) := by
      rw [fracPart_eq h]
      refine within_roundQ false (representable_of_eq 1 16) representable_one ?_ (fract_value_mem x).2
      rw [← heq]
      push_cast
      linarith
    have hpoly : 1 < value (taylorPoly (fracPart x)) := lt_of_lt_of_le (by norm_num) (le_taylorPoly hfrac)
    rw [scaledPoly, ← heq]
    exact lt_mul_of_one_lt_left (by positivity) hpoly

theorem flt_zero_of_pos {w : Word} (h0 : 0 < w.toNat) (h : w.toNat ≤ infMagnitude) : flt 0#32 w = true := by
  have hle := (fle_iff_of_le (a := 0#32) (by decide) h).2 (Nat.zero_le _)
  obtain ⟨hnan0, hnan, -⟩ := (fle_iff _ _).1 hle
  rw [flt_iff, orderKey_of_lt (h.trans_lt (by decide)), orderKey_of_lt (w := 0#32) (by decide)]
  exact ⟨hnan0, hnan, by exact_mod_cast h0⟩

/-- Settles O36: a NaN and the two ends, by the scaled polynomial against `2 ^ 128` and `2 ^ -150`. -/
theorem taylorExp2Corners : Obligations.TaylorExp2Corners := by
  intro p x hp
  refine ⟨exp2_of_isNaN p, exp2_of_128_le hp, fun hle => ?_, fun hlt => flt_zero_of_pos ?_ (exp2_le_inf p x)⟩
  · obtain ⟨hnan, -, -⟩ := (fle_iff _ _).1 hle
    rcases isFinite_or_eq_inf hnan with hfin | rfl | rfl
    · have hx : value x ≤ -150 := value_minus150 ▸ (fle_iff_value_le hfin (by decide)).1 hle
      apply BitVec.eq_of_toNat_eq
      rw [exp2_of_taylor5 hp hfin, toNat_exp2Taylor hfin,
        roundRat_of_underflow (scaledPoly_pos hfin).le (scaledPoly_le_of_le hfin hx)]
      rfl
    · exact absurd hle (by decide)
    · exact exp2_negInf p
  · obtain ⟨-, hnan, -⟩ := (flt_iff _ _).1 hlt
    rcases isFinite_or_eq_inf hnan with hfin | rfl | rfl
    · rw [exp2_of_taylor5 hp hfin, toNat_exp2Taylor hfin]
      exact roundRat_pos (lt_scaledPoly hfin hlt)
    · rw [exp2_posInf]; decide
    · exact absurd hlt (by decide)

end Sys2Proof.Proofs.MapperInputs
end

section
/-! PROOFS. The waveforms at their points: the pulse's position in the first half of the cycle, every variant's peak at
phase +0.0, and the statements about the formulas (spec/41_waveform_shaper.md). -/

namespace Sys2Proof.Proofs.Waveforms

open Sys2Proof Sys2Proof.Machine Sys2Proof.Config Sys2Proof.Safety Sys2Proof.Laws
open Sys2Proof.Proofs.Registers Sys2Proof.Proofs.RoundingError Sys2Proof.Proofs.PhaseAccumulator
open Sys2Proof.Proofs.NaiveSample Sys2Proof.Proofs.Operations

section Positions

variable {φ s : Word}

/-! ### The peak at phase +0.0 -/

/-- A zero no greater than the other operand adds nothing to +0.0, whatever its sign. -/
theorem fadd_zero_fmin {a b : Word} (ha : Within 0 0 a) (hb : Within 0 1 b) : fadd 0#32 (fmin a b) = 0#32 := by
  obtain ⟨⟨hfin, hge, -⟩, hle⟩ := within_fmin ha hb
  have hsum : value 0#32 + value (fmin a b) = 0 := by
    rw [value_posZero, zero_add]
    exact le_antisymm (hle.trans ha.le) hge
  rw [fadd_of_add_eq_zero (by decide) hfin hsum]
  exact if_neg fun h => absurd h.1 (by decide)

/-- At phase +0.0 the rising ramp is a zero and the falling one not below it, so nothing is added to the phase. -/
theorem czSawPosition_zero (hs : ShapeOk s) : czSawPosition 0#32 s = 0#32 := by
  obtain ⟨⟨hufin, -, -⟩, hdfin, hdge, hdle⟩ := within_czSaw_slopes (within_czSaw_join hs)
  have hone : value (fsub one 0#32) = 1 := by
    rw [show fsub one 0#32 = one by decide, value_unit]
  refine fadd_zero_fmin (within_fmul (by decide) hufin representable_zero representable_zero ?_ ?_)
    (within_fmul (by decide) hdfin representable_zero representable_one ?_ ?_)
  · rw [value_posZero, zero_mul]
  · rw [value_posZero, zero_mul]
  · rwa [hone, one_mul]
  · rwa [hone, one_mul]

/-- `c` at phase +0.0: `a` is 2.0 and the ramp starts below zero, so their difference is at least 2.0. -/
theorem within_pulse_difference_two {k : Word} (hk : Within 0 128 k) :
    Within 1 65 (fmul half (fsub two (fmin two (fmul (fsub one two) k)))) := by
  have hminus : value (fsub one two) = -1 := by
    rw [show fsub one two = minusOne by decide, value_minusOne]
  have hramp : Within (-128) 0 (fmul (fsub one two) k) := by
    apply within_fmul (by decide) hk.finite (representable_of_eq 128 0).neg representable_zero <;> rw [hminus] <;>
      linarith [hk.ge, hk.le]
  obtain ⟨⟨hmfin, hmge, hmle⟩, -⟩ := within_fmin (a := two) ⟨by decide, by rw [value_two]; norm_num, le_rfl⟩ hramp
  obtain ⟨hdfin, hdge, hdle⟩ : Within 2 130 (fsub two (fmin two (fmul (fsub one two) k))) := by
    apply within_fsub (by decide) hmfin (representable_of_eq 2 0) (representable_of_eq 130 0) <;> rw [value_two] <;>
      linarith
  apply within_fmul (by decide) hdfin representable_one (representable_of_eq 65 0) <;> rw [value_half] <;> linarith

theorem fmin_zero_of_pos {c hi : ℚ} {w : Word} (hc : 0 < c) (hw : Within c hi w) : fmin w 0#32 = 0#32 := by
  refine if_neg fun h => ?_
  have hle := (fle_iff_value_le hw.finite (by decide)).1 h
  rw [value_posZero] at hle
  exact absurd (hc.trans_le hw.ge) hle.not_gt

theorem czSawPulsePosition_zero (hs : ShapeOk s) : czSawPulsePosition 0#32 s = 0#32 := by
  have htwo : fmul two (fsub one 0#32) = two := by decide
  simp only [czSawPulsePosition, htwo]
  exact fmin_zero_of_pos one_pos (within_pulse_difference_two (within_pulse_ratio hs))

/-! ### The pulse's position (rule R152) -/

/-- `c` where `a` is at most 1.0: half of what a ramp that is not negative leaves of `a`. -/
theorem within_pulse_difference_half {a k : Word} (ha : Within 0 1 a) (hk : Within 0 128 k) :
    Within 0 (1 / 2) (fmul half (fsub a (fmin a (fmul (fsub one a) k)))) := by
  obtain ⟨hofin, hoge, hole⟩ : Within 0 1 (fsub one a) := by
    apply within_fsub (by decide) ha.finite representable_zero representable_one <;> rw [value_unit] <;>
      linarith [ha.ge, ha.le]
  have hramp : Within 0 128 (fmul (fsub one a) k) :=
    within_fmul hofin hk.finite representable_zero (representable_of_eq 128 0) (mul_nonneg hoge hk.ge)
      ((mul_le_of_le_one_left hk.ge hole).trans hk.le)
  obtain ⟨⟨hmfin, hmge, -⟩, hmle⟩ := within_fmin ha hramp
  obtain ⟨hdfin, hdge, hdle⟩ : Within 0 1 (fsub a (fmin a (fmul (fsub one a) k))) :=
    within_fsub ha.finite hmfin representable_zero representable_one (by linarith) (by linarith [ha.le])
  apply within_fmul (by decide) hdfin representable_zero representable_half <;> rw [value_half] <;> linarith

/-- The lesser of `c` and the phase is at most 0.5: where the phase is not, `a` is at most 1.0. -/
theorem within_czSawPulsePosition_half (hφ : PhaseOk φ) (hs : ShapeOk s) :
    Within 0 (1 / 2) (czSawPulsePosition φ s) := by
  have hpos := within_czSawPulsePosition hφ hs
  rcases le_total (value φ) (1 / 2) with hlow | hhigh
  · exact hpos.mono le_rfl hlow
  · obtain ⟨hfin, -, hle⟩ := within_phase hφ
    obtain ⟨homfin, homge, homle⟩ : Within 0 (1 / 2) (fsub one φ) := by
      apply within_fsub (by decide) hfin representable_zero representable_half <;> rw [value_unit] <;> linarith
    have ha : Within 0 1 (fmul two (fsub one φ)) := by
      apply within_fmul (by decide) homfin representable_zero representable_one <;> rw [value_two] <;> linarith
    have hc := within_pulse_difference_half ha (within_pulse_ratio hs)
    exact ⟨hpos.finite, hpos.ge, (within_fmin hc (within_phase hφ)).2.trans hc.le⟩

end Positions

/-! ### The statements -/

/-- Settles O45: both positions are +0.0, where every legal cosine is 1.0, and MOOG_INVSAW by evaluation. -/
theorem naiveSampleAtPhaseZero : Obligations.NaiveSampleAtPhaseZero := by
  intro p v s hp hs
  have hscale : fmul twoPi 0#32 = 0#32 := by decide
  cases v with
  | czSaw => rw [naiveSample, czSawPosition_zero hs, hscale, hp.cos_zero]; rfl
  | czSawPulse => rw [naiveSample, czSawPulsePosition_zero hs, hscale, hp.cos_zero]; rfl
  | moogInvSaw => change moogInvSaw 0#32 = 0x3F800000#32; decide

/-- The formulas' example points. -/
theorem waveform_examples :
    fmul twoPi (czSawPosition 0x3E800000#32 0x3F000000#32) = 0x40490FDB#32 ∧
    czSawPulsePosition 0x3F19999A#32 0x3F000000#32 = 0x3E999998#32 ∧
    moogInvSaw 0x3E800000#32 = 0x3EA00000#32 ∧ moogInvSaw 0x3F000000#32 = 0xBE800000#32 ∧
    moogInvSaw 0x3F7FFFFF#32 = 0xBF7FFFFF#32 := by
  decide +kernel

/-- Settles O59: the formulas as they stand, the positions' ranges, and the examples. -/
theorem naiveSampleFollowsTheFormulas : Obligations.NaiveSampleFollowsTheFormulas := by
  refine ⟨fun p φ s => ⟨rfl, rfl, rfl⟩, fun φ s hφ hs => ⟨?_, ?_⟩, fun p => ?_⟩
  · have h := within_czSawPosition hφ hs
    rw [← value_posZero, ← value_unit] at h
    exact h.inRange (by decide) (by decide)
  · have h := within_czSawPulsePosition_half hφ hs
    rw [← value_posZero, ← value_half] at h
    exact h.inRange (by decide) (by decide)
  · obtain ⟨hsaw, hpulse, hquarter, hhalf, hlast⟩ := waveform_examples
    exact ⟨congrArg p.cos32 hsaw, congrArg (fun m => p.cos32 (fmul twoPi m)) hpulse,
      fun _ => ⟨hquarter, hhalf, hlast⟩⟩

end Sys2Proof.Proofs.Waveforms
end

section
/-! PROOFS. LOOKUP: the table point below a time and the exact rest, the entries at the points and past the span, and
the size of what is interpolated, with the statements about them (spec/42_minblep.md section 1). -/

namespace Sys2Proof.Proofs.Lookup

open Sys2Proof Sys2Proof.Machine Sys2Proof.Config Sys2Proof.Safety Sys2Proof.Laws
open Sys2Proof.Proofs.Registers Sys2Proof.Proofs.RoundingError Sys2Proof.Proofs.PhaseAccumulator
open Sys2Proof.Proofs.NaiveSample Sys2Proof.Proofs.Operations Sys2Proof.Proofs.TaylorExp2 Sys2Proof.Proofs.Mapper
open Sys2Proof.Proofs.MapperInputs

/-! ### Words by their fields, and the rounding of a word's own value -/

theorem word_ext {a b : Word} (hmag : magnitude a = magnitude b) (hsign : signBit a = signBit b) : a = b := by
  apply BitVec.eq_of_toNat_eq
  rw [toNat_eq a, toNat_eq b, hmag, hsign]

theorem magnitude_roundQ (zneg : Bool) (x : ℚ) : magnitude (roundQ zneg x) = roundRat |x| :=
  (withSign_fields _ ((roundRat_le_inf (abs_nonneg x)).trans_lt (by decide))).1

theorem roundQ_value (zneg : Bool) {w : Word} (h : isFinite w = true) (h0 : value w ≠ 0) :
    roundQ zneg (value w) = w := by
  have hround : roundRat |value w| = magnitude w := by
    rw [abs_value, roundRat_magValue ((isFinite_iff w).1 h)]
  obtain ⟨hmag, hsign⟩ := roundQ_fields zneg (hround.trans_lt ((isFinite_iff w).1 h))
  rw [if_neg h0, value_neg_iff w h0] at hsign
  exact word_ext (hmag.trans hround) hsign

theorem isFinite_roundQ_of_representable (zneg : Bool) {q : ℚ} (h : Representable q) :
    isFinite (roundQ zneg q) = true := (within_roundQ zneg h h le_rfl le_rfl).finite

theorem isFinite_or_isInf {w : Word} (h : isNaN w = false) : isFinite w = true ∨ isInf w = true := by
  rcases isFinite_or_eq_inf h with hfin | rfl | rfl
  · exact .inl hfin
  · exact .inr (by decide)
  · exact .inr (by decide)

/-- Adding a zero changes nothing but -0.0. -/
theorem fadd_of_value_eq_zero {a z : Word} (ha : isNaN a = false) (hneg : a ≠ 0x80000000#32)
    (hz : isFinite z = true) (hz0 : value z = 0) : fadd a z = a := by
  rcases isFinite_or_isInf ha with hfin | hinf
  · by_cases ha0 : value a = 0
    · have hword : a = 0#32 := by
        have h := eq_zero_of_value hfin ha0
        split_ifs at h
        · exact absurd h hneg
        · exact h
      rw [fadd_of_add_eq_zero hfin hz (by rw [ha0, hz0, add_zero]), if_neg fun h => hneg h.1, hword]
    · rw [fadd_finite hfin hz, hz0, add_zero, roundQ_value _ hfin ha0]
  · exact fadd_of_isInf hinf hz

theorem flt_iff_value_lt {a b : Word} (ha : isFinite a = true) (hb : isFinite b = true) :
    flt a b = true ↔ value a < value b := by
  rw [← not_le, ← fle_iff_value_le hb ha, flt_iff, fle_iff, not_isNaN_of_isFinite ha, not_isNaN_of_isFinite hb]
  simp

/-! ### Small integers and multiples -/

theorem f32Nat_eq (k : ℕ) : f32Nat k = roundQ false k := by
  rw [f32Nat, rn32_eq _ _ _ _ one_pos, roundQ]
  simp [abs_of_nonneg, (Nat.cast_nonneg k).not_gt]

/-- `f32` keeps the integers of 24 bits. -/
theorem value_f32Nat {k : ℕ} (h : k < 2 ^ 24) : value (f32Nat k) = k := by
  rw [f32Nat_eq, value_roundQ_of_representable false (representable_natCast h)]

theorem isFinite_f32Nat {k : ℕ} (h : k < 2 ^ 24) : isFinite (f32Nat k) = true := by
  rw [f32Nat_eq]
  exact isFinite_roundQ_of_representable false (representable_natCast h)

/-- A finite value's sixteenfold is a binary32 value while its exponent has room. -/
theorem representable_mul_sixteen {w : Word} (h : magnitude w < 0x42000000) : Representable (value w * 16) := by
  have hlt := significand_lt w
  have hexp : ulpExponent w = (max (magnitude w / 2 ^ 23) 1 : ℕ) - 150 := ulpExponent_eq w
  obtain ⟨m, hm, hvalue⟩ := exists_magValue_eq (max (magnitude w / 2 ^ 23) 1 + 3) (significand w) hlt (by omega)
  refine ⟨m, hm, ?_⟩
  have hpow : ((max (magnitude w / 2 ^ 23) 1 + 3 : ℕ) : ℤ) - 149 = ulpExponent w + 4 := by
    rw [hexp]; push_cast; ring
  rw [hvalue, hpow, abs_mul, abs_value, ← significand_mul_eq_magValue, zpow_add₀ (by norm_num)]
  norm_num
  ring

/-! ### Inside the span (rule R173) -/

section Span

variable {t : Word}

theorem value_pointsPerSample : value pointsPerSample = 16 :=
  (value_of_lt (by decide)).trans (by norm_num [magValue, pointsPerSample])

theorem value_spanPoints : value Machine.spanPoints = 512 :=
  (value_of_lt (by decide)).trans (by norm_num [magValue, Machine.spanPoints])

theorem value_thirtyTwo : value 0x42000000#32 = 32 := (value_of_lt (by decide)).trans (by norm_num [magValue])

/-- A time in the span, as its value says it: finite, not negative and below 32. -/
structure InSpan (t : Word) : Prop where
  finite : isFinite t = true
  nonneg : 0 ≤ value t
  lt : value t < 32

theorem inSpan_of_order (h0 : fle 0#32 t = true) (h1 : flt t 0x42000000#32 = true) : InSpan t := by
  obtain ⟨hnan, hnan32, hkey⟩ := (flt_iff _ _).1 h1
  have hfin : isFinite t = true :=
    isFinite_of_inRange (lo := 0#32) (hi := 0x42000000#32) (by decide) (by decide)
      ⟨h0, (fle_iff _ _).2 ⟨hnan, hnan32, hkey.le⟩⟩
  refine ⟨hfin, ?_, value_thirtyTwo ▸ (flt_iff_value_lt hfin (by decide)).1 h1⟩
  exact value_posZero ▸ (fle_iff_value_le (by decide) hfin).1 h0

/-- The scaling to table points is exact. -/
theorem value_fmul_points (h : InSpan t) :
    isFinite (fmul t pointsPerSample) = true ∧ value (fmul t pointsPerSample) = value t * 16 := by
  obtain ⟨hfin, h0, hlt⟩ := h
  have hmag : magnitude t < 0x42000000 := by
    by_contra hge
    have hle := magValue_mono (not_lt.1 hge) ((isFinite_iff t).1 hfin)
    rw [← abs_value, abs_of_nonneg h0] at hle
    norm_num [magValue] at hle
    linarith
  have hrep := representable_mul_sixteen hmag
  rw [fmul_finite hfin (by decide), value_pointsPerSample]
  exact ⟨isFinite_roundQ_of_representable _ hrep, value_roundQ_of_representable _ hrep⟩

/-- The table point at or below a time. -/
def tablePoint (t : Word) : ℕ := (floorInt (fmul t pointsPerSample)).toNat

/-- How far past its table point a time is, in points. -/
def tableRest (t : Word) : Word := fsub (fmul t pointsPerSample) (f32Nat (tablePoint t))

theorem tablePoint_eq (h : InSpan t) : (tablePoint t : ℤ) = ⌊value t * 16⌋ := by
  obtain ⟨hfin, hvalue⟩ := value_fmul_points h
  rw [tablePoint, floorInt_eq_floor hfin, hvalue]
  exact Int.toNat_of_nonneg (Int.floor_nonneg.2 (mul_nonneg h.nonneg (by norm_num)))

theorem tablePoint_lt (h : InSpan t) : tablePoint t < 512 := by
  have hfloor : ⌊value t * 16⌋ < 512 := Int.floor_lt.2 (by push_cast; linarith [h.lt])
  rw [← tablePoint_eq h] at hfloor
  exact_mod_cast hfloor

/-- Subtracting the table point is exact. -/
theorem value_tableRest (h : InSpan t) :
    isFinite (tableRest t) = true ∧ value (tableRest t) = value t * 16 - tablePoint t := by
  obtain ⟨hfin, hvalue⟩ := value_fmul_points h
  have hpoint : tablePoint t < 2 ^ 24 := (tablePoint_lt h).trans (by norm_num)
  have hnonneg : 0 ≤ value (fmul t pointsPerSample) := hvalue ▸ mul_nonneg h.nonneg (by norm_num)
  have hrest : value (fmul t pointsPerSample) - ⌊value (fmul t pointsPerSample)⌋ = value t * 16 - tablePoint t := by
    rw [hvalue, ← tablePoint_eq h, Int.cast_natCast]
  have hrep := representable_fract hnonneg
  rw [hrest] at hrep
  rw [tableRest, fsub_finite hfin (isFinite_f32Nat hpoint), hvalue, value_f32Nat hpoint]
  exact ⟨isFinite_roundQ_of_representable _ hrep, value_roundQ_of_representable _ hrep⟩

/-- LOOKUP inside the span: the interpolation from the table point by the rest. -/
theorem lookup_of_inSpan (p : Params) (h : InSpan t) : lookup p t =
    fadd (p.rom (tablePoint t)) (fmul (fsub (p.rom (tablePoint t + 1)) (p.rom (tablePoint t))) (tableRest t)) := by
  obtain ⟨hfin, hvalue⟩ := value_fmul_points h
  have hspan : ¬ fle Machine.spanPoints (fmul t pointsPerSample) = true := by
    rw [fle_iff_value_le (by decide) hfin, hvalue, value_spanPoints]
    linarith [h.lt]
  rw [lookup, if_neg hspan]
  rfl

end Span

/-! ### Past the span -/

theorem fle_posInf {w : Word} (h : isNaN w = false) : fle w 0x7F800000#32 = true := by
  have hmag : ¬ infMagnitude < magnitude w := fun hlt => by simp [(isNaN_iff w).2 hlt] at h
  have hinf : orderKey 0x7F800000#32 = infMagnitude := by decide
  refine (fle_iff _ _).2 ⟨h, by decide, ?_⟩
  rw [hinf, orderKey]
  split_ifs <;> omega

/-- From 32 samples on the scaled time is at least 512, +∞ included. -/
theorem lookup_of_le (p : Params) {t : Word} (h : fle 0x42000000#32 t = true) : lookup p t = p.rom 512 := by
  obtain ⟨-, hnan, -⟩ := (fle_iff _ _).1 h
  obtain ⟨hlo, hhi⟩ := toNat_mem_of_inRange (by decide) (by decide) (by decide) ⟨h, fle_posInf hnan⟩
  refine if_pos ?_
  rcases hhi.lt_or_eq with hfin | hinf
  · have hmono := toNat_fmul_mono (c := pointsPerSample) hlo hfin (by decide)
    have hspan : fmul 0x42000000#32 pointsPerSample = Machine.spanPoints := by decide
    have hle : (fmul t pointsPerSample).toNat ≤ infMagnitude := by
      rw [toNat_fmul hfin (by decide), value_of_lt hfin, value_of_lt (w := pointsPerSample) (by decide)]
      exact roundRat_le_inf (mul_nonneg (magValue_nonneg _) (magValue_nonneg _))
    rw [hspan] at hmono
    exact (fle_iff_of_le (by decide) hle).2 hmono
  · obtain rfl : t = 0x7F800000#32 := BitVec.eq_of_toNat_eq hinf
    decide

/-! ### The statements -/

/-- Settles O60: `tablePoint` and `tableRest`, both exact. -/
theorem lookupInterpolatesBetweenTablePoints : Obligations.LookupInterpolatesBetweenTablePoints := by
  intro p t h0 h1
  have h := inSpan_of_order h0 h1
  obtain ⟨hfin, hvalue⟩ := value_tableRest h
  exact ⟨tablePoint t, tableRest t, tablePoint_lt h, tablePoint_eq h, hfin, hvalue, rfl, lookup_of_inSpan p h⟩

/-- The time of the `k`-th table point is exact. -/
theorem inSpan_tableTime {k : ℕ} (h : k < 512) :
    InSpan (fmul (f32Nat k) 0x3D800000#32) ∧ value (fmul (f32Nat k) 0x3D800000#32) = k / 16 := by
  have hsixteenth : value 0x3D800000#32 = 1 / 16 := (value_of_lt (by decide)).trans (by norm_num [magValue])
  have hk : k < 2 ^ 24 := h.trans (by norm_num)
  have hk' : (k : ℚ) < 512 := by exact_mod_cast h
  have hrep : Representable ((k : ℚ) * (1 / 16)) := representable_of_eq k 4 (by ring) hk
  have hvalue : value (fmul (f32Nat k) 0x3D800000#32) = k / 16 := by
    rw [fmul_finite (isFinite_f32Nat hk) (by decide), value_f32Nat hk, hsixteenth, value_roundQ_of_representable _ hrep]
    ring
  refine ⟨⟨?_, by rw [hvalue]; positivity, by rw [hvalue]; linarith⟩, hvalue⟩
  rw [fmul_finite (isFinite_f32Nat hk) (by decide), value_f32Nat hk, hsixteenth]
  exact isFinite_roundQ_of_representable _ hrep

/-- At a table point the rest is a zero, and so is what is added to the entry. -/
theorem lookup_tableTime {p : Params} (hp : p.Legal) {k : ℕ} (hk : k < 512)
    (hdiff : isFinite (fsub (p.rom (k + 1)) (p.rom k)) = true) (hneg : p.rom k ≠ 0x80000000#32) :
    lookup p (fmul (f32Nat k) 0x3D800000#32) = p.rom k := by
  obtain ⟨hspan, hvalue⟩ := inSpan_tableTime hk
  have hpoint : tablePoint (fmul (f32Nat k) 0x3D800000#32) = k := by
    have hfloor := tablePoint_eq hspan
    rw [hvalue, div_mul_cancel₀ _ (by norm_num), Int.floor_natCast] at hfloor
    exact_mod_cast hfloor
  obtain ⟨hrestfin, hrest⟩ := value_tableRest hspan
  rw [hpoint, hvalue, div_mul_cancel₀ _ (by norm_num), sub_self] at hrest
  have hzero : Within 0 0 (fmul (fsub (p.rom (k + 1)) (p.rom k)) (tableRest (fmul (f32Nat k) 0x3D800000#32))) :=
    within_fmul hdiff hrestfin representable_zero representable_zero (by rw [hrest, mul_zero])
      (by rw [hrest, mul_zero])
  rw [lookup_of_inSpan p hspan, hpoint]
  exact fadd_of_value_eq_zero (not_isNaN_of_isFinite (hp.rom_finite k hk.le)) hneg hzero.finite
    (le_antisymm hzero.le hzero.ge)

/-- Settles O46: the table points, and the last entry past the span. -/
theorem lookupAtTablePoints : Obligations.LookupAtTablePoints := by
  refine fun p hp => ⟨fun k hk hdiff hneg => lookup_tableTime hp hk hdiff hneg, fun t ht => ?_⟩
  rw [lookup_of_le p ht, hp.rom_last]
  rfl

end Sys2Proof.Proofs.Lookup
end

section
/-! PROOFS. The corrections: what INSERT leaves of every entry, the size of a correction, what a STEP leaves of a delay
line, and the statements about it (spec/42_minblep.md sections 2 and 3). -/

namespace Sys2Proof.Proofs.Corrections

open Sys2Proof Sys2Proof.Machine Sys2Proof.Config Sys2Proof.Safety Sys2Proof.Laws
open Sys2Proof.Proofs.Registers Sys2Proof.Proofs.RoundingError Sys2Proof.Proofs.PhaseAccumulator
open Sys2Proof.Proofs.NaiveSample Sys2Proof.Proofs.DelayLine Sys2Proof.Proofs.NearestRounding
open Sys2Proof.Proofs.TaylorExp2 Sys2Proof.Proofs.Operations Sys2Proof.Proofs.MapperInputs Sys2Proof.Proofs.Waveforms
open Sys2Proof.Proofs.Lookup

/-! ### INSERT entry by entry (rule R174) -/

section Insert

variable (p : Params) (count lane : Nat) (d J : Word) (pos : Fin 32) (dl : Vector Word 32)

theorem offset_injective {pos : Fin 32} {j n : Nat} (hj : j < 32) (hn : n < 32)
    (h : pos + Fin.ofNat 32 j = pos + Fin.ofNat 32 n) : j = n := by
  have hval := congrArg Fin.val (add_left_cancel h)
  simpa [Nat.mod_eq_of_lt hj, Nat.mod_eq_of_lt hn] using hval

/-- After `n` turns of the loop the first `n` entries from the index have their corrections and the others none. -/
theorem foldl_insertAt_getElem {n j : Nat} (hn : n ≤ 32) (hj : j < 32) :
    ((List.range n).foldl (insertAt p count lane d J pos) dl)[pos + Fin.ofNat 32 j] =
      if j < n then storedBits p count lane j (fadd dl[pos + Fin.ofNat 32 j] (correction p d J j))
      else dl[pos + Fin.ofNat 32 j] := by
  induction n with
  | zero => rfl
  | succ n ih =>
    have ih := ih (by omega)
    rw [List.range_succ, List.foldl_append, List.foldl_cons, List.foldl_nil]
    by_cases hjn : j = n
    · subst hjn
      rw [insertAt_self, ih, if_neg (lt_irrefl j), if_pos (Nat.lt_succ_self j)]
    · rw [insertAt_other _ _ _ _ _ _ _ _ _ fun h => hjn (offset_injective hj (by omega) h), ih]
      exact if_congr (by omega) rfl rfl

/-- INSERT on the entry due `j` samples from now. -/
theorem insert_getElem_offset {j : Nat} (hj : j < 32) :
    (Machine.insert p count lane d J pos dl)[pos + Fin.ofNat 32 j] =
      storedBits p count lane j (fadd dl[pos + Fin.ofNat 32 j] (correction p d J j)) := by
  rw [Machine.insert, foldl_insertAt_getElem p count lane d J pos dl le_rfl hj, if_pos hj]

/-- The same of an entry named by its index. -/
theorem insert_getElem_of_eq {j : Nat} {k : Fin 32} (hj : j < 32) (hk : k = pos + Fin.ofNat 32 j) :
    (Machine.insert p count lane d J pos dl)[k] =
      storedBits p count lane j (fadd dl[k] (correction p d J j)) := by
  subst hk
  exact insert_getElem_offset p count lane d J pos dl hj

/-- Every entry is due some number of samples below 32 from now. -/
theorem exists_offset (pos k : Fin 32) : ∃ j < 32, k = pos + Fin.ofNat 32 j :=
  ⟨(k - pos).val, (k - pos).isLt, by simp⟩

/-- What holds of every entry's sum as it is stored holds of the delay line after INSERT. -/
theorem insert_forall {P : Word → Prop}
    (h : ∀ (k : Fin 32) (j : Nat), j < 32 → P (storedBits p count lane j (fadd dl[k] (correction p d J j))))
    (k : Fin 32) : P (Machine.insert p count lane d J pos dl)[k] := by
  obtain ⟨j, hj, rfl⟩ := exists_offset pos k
  rw [insert_getElem_offset p count lane d J pos dl hj]
  exact h _ j hj

end Insert

/-- Settles O47: what is stored of a sum, and INSERT entry by entry. -/
theorem insertAddsEveryCorrection : Obligations.InsertAddsEveryCorrection := by
  refine ⟨fun p count lane site x => ⟨storedBits_of_not_isNaN p count lane site, fun hp hnan => ?_⟩,
    fun p count lane d J pos dl j hj => insert_getElem_offset p count lane d J pos dl hj⟩
  rcases storedBits_cases hp count lane site x with h | ⟨-, h⟩
  · rw [h]; exact hnan
  · exact h

/-! ### The size of a correction (rule R179) -/

/-- A 24-bit integer times a power of two in the exponent range is a binary32 value. -/
theorem representable_scaled (k n : ℕ) (hk : k < 2 ^ 24 := by norm_num) (hn : n ≤ 104 := by norm_num) :
    Representable ((k : ℚ) * 2 ^ n) := by
  obtain ⟨m, hm, hvalue⟩ := exists_magValue_eq (n + 149) k hk (by omega)
  have hpow : ((n + 149 : ℕ) : ℤ) - 149 = n := by push_cast; ring
  refine ⟨m, hm, ?_⟩
  rw [hvalue, hpow, zpow_natCast, abs_of_nonneg (mul_nonneg (Nat.cast_nonneg k) (pow_nonneg (by norm_num) n))]

/-- `w` is finite, and worth at most `2 ^ 100 * k` in size. -/
def Sized (k : ℕ) (w : Word) : Prop := Within (-((k : ℚ) * 2 ^ 100)) ((k : ℚ) * 2 ^ 100) w

section Size

variable {a b : Word} {k l : ℕ}

theorem Sized.abs_value_le (h : Sized k a) : |value a| ≤ k * 2 ^ 100 := abs_le.2 ⟨h.ge, h.le⟩

theorem sized_fadd (ha : Sized k a) (hb : Sized l b) (h : k + l < 2 ^ 24) : Sized (k + l) (fadd a b) := by
  have hrep := representable_scaled (k + l) 100 h
  apply within_fadd ha.finite hb.finite hrep.neg hrep <;> push_cast <;> linarith [ha.ge, ha.le, hb.ge, hb.le]

theorem sized_fneg (h : Sized k a) : Sized k (fneg a) :=
  ⟨by rw [isFinite_fneg]; exact h.finite, by rw [value_fneg]; linarith [h.le], by rw [value_fneg]; linarith [h.ge]⟩

theorem sized_fsub (ha : Sized k a) (hb : Sized l b) (h : k + l < 2 ^ 24) : Sized (k + l) (fsub a b) :=
  sized_fadd ha (sized_fneg hb) h

/-- Scaling by at most `c`. -/
theorem sized_fmul {c : ℕ} (ha : Sized k a) (hb : Within 0 c b) (h : k * c < 2 ^ 24) : Sized (k * c) (fmul a b) := by
  have hrep := representable_scaled (k * c) 100 h
  have hprod : |value a * value b| ≤ (k * c : ℕ) * 2 ^ 100 := by
    rw [abs_mul, abs_of_nonneg hb.ge]
    push_cast
    calc |value a| * value b ≤ k * 2 ^ 100 * c := mul_le_mul ha.abs_value_le hb.le hb.ge (by positivity)
      _ = k * c * 2 ^ 100 := by ring
  obtain ⟨hge, hle⟩ := abs_le.1 hprod
  exact within_fmul ha.finite hb.finite hrep.neg hrep hge hle

theorem sized_one : Sized 1 one := ⟨by decide, by rw [value_unit]; norm_num, by rw [value_unit]; norm_num⟩

theorem sized_rom {p : Params} (hp : TableBounded p) {k : Nat} (hk : k ≤ 512) : Sized 1 (p.rom k) := by
  have hlt := hp k hk
  have hbound : magValue 0x71800000 = 2 ^ 100 := by norm_num [magValue]
  have hmag := magValue_mono hlt.le (by decide)
  rw [hbound, ← abs_value] at hmag
  obtain ⟨hge, hle⟩ := abs_le.1 hmag
  exact ⟨(isFinite_iff _).2 (hlt.trans (by decide)), by push_cast; linarith, by push_cast; linarith⟩

end Size

theorem within_tableRest {t : Word} (h : InSpan t) : Within 0 (1 : ℕ) (tableRest t) := by
  obtain ⟨hfin, hvalue⟩ := value_tableRest h
  have hfract := Int.fract_nonneg (value t * 16)
  have hfract' := (Int.fract_lt_one (value t * 16)).le
  rw [Int.fract, ← tablePoint_eq h, Int.cast_natCast] at hfract hfract'
  exact ⟨hfin, hvalue ▸ hfract, by rw [hvalue]; exact_mod_cast hfract'⟩

/-- LOOKUP at any time in the span or at its end is at most three times the table's bound. -/
theorem sized_lookup {p : Params} (hp : p.Legal) (hb : TableBounded p) {t : Word} (ht : Within 0 32 t) :
    Sized 3 (lookup p t) := by
  rcases ht.le.lt_or_eq with hlt | heq
  · have hspan : InSpan t := ⟨ht.finite, ht.ge, hlt⟩
    have hpoint := tablePoint_lt hspan
    have hdiff := sized_fsub (sized_rom hb (k := tablePoint t + 1) hpoint) (sized_rom hb hpoint.le) (by norm_num)
    rw [lookup_of_inSpan p hspan]
    exact sized_fadd (sized_rom hb hpoint.le) (sized_fmul hdiff (within_tableRest hspan) (by norm_num)) (by norm_num)
  · have hend : fle 0x42000000#32 t = true := by
      rw [fle_iff_value_le (by decide) ht.finite, value_thirtyTwo, heq]
    rw [lookup_of_le p hend, hp.rom_last]
    exact sized_one.mono (by norm_num) (by norm_num)

/-- The times INSERT looks up, for an offset of at most 1.0. -/
theorem within_insertTime {d : Word} (hd : d.toNat ≤ 0x3F800000) {j : Nat} (hj : j < 32) :
    Within 0 32 (fadd (f32Nat j) d) := by
  have hd := within_unit_of_toNat_le hd
  have hj24 : j < 2 ^ 24 := hj.trans (by norm_num)
  have hj31 : (j : ℚ) ≤ 31 := by exact_mod_cast Nat.le_of_lt_succ hj
  have hj0 : (0 : ℚ) ≤ j := Nat.cast_nonneg j
  apply within_fadd (isFinite_f32Nat hj24) hd.finite representable_zero (representable_of_eq 32 0) <;>
    rw [value_f32Nat hj24] <;> linarith [hd.ge, hd.le]

/-- A correction by a jump of at most 2.0 is at most `2 ^ 103`. -/
theorem sized_correction {p : Params} (hp : p.Legal) (hb : TableBounded p) {d J : Word} (hd : d.toNat ≤ 0x3F800000)
    {c : ℕ} (hJ : Within 0 c J) (hc : c ≤ 2) {j : Nat} (hj : j < 32) : Sized (4 * c) (correction p d J j) := by
  have hstep := sized_fsub (sized_lookup hp hb (within_insertTime hd hj)) sized_one (by norm_num)
  rw [correction, fmul_comm]
  exact sized_fmul hstep hJ (by omega)

/-! ### INSERT with no jump (rule R175) -/

theorem within_zero : Within 0 (0 : ℕ) 0#32 := ⟨by decide, value_posZero.ge, by rw [value_posZero]; norm_num⟩

/-- Settles O48: every correction is a zero, which changes no entry. -/
theorem insertWithoutJumpChangesNothing : Obligations.InsertWithoutJumpChangesNothing := by
  intro p count lane d pos dl hp hb hd hdl
  have hentry (k : Fin 32) : (Machine.insert p count lane d 0#32 pos dl)[k] = dl[k] := by
    obtain ⟨j, hj, rfl⟩ := exists_offset pos k
    obtain ⟨hneg, hnan⟩ := hdl (pos + Fin.ofNat 32 j)
    have hzero : Within 0 0 (correction p d 0#32 j) := by
      simpa [Sized] using sized_correction hp hb hd within_zero (by norm_num) hj
    rw [insert_getElem_offset p count lane d 0#32 pos dl hj,
      fadd_of_value_eq_zero hnan hneg hzero.finite (le_antisymm hzero.le hzero.ge),
      storedBits_of_not_isNaN p count lane j hnan]
  exact Vector.ext fun k hk => hentry ⟨k, hk⟩

/-! ### The delay line after a STEP (rules R176, R178) -/

/-- The entries before PROCESS: INSERT's on a wrap, else those before the STEP. -/
theorem stepLane_dl_of_ne (p : Params) (s : State) (i : Fin 16) (l : Lane) {k : Fin 32} (hk : k ≠ l.pos) :
    (stepLane p s i l).dl[k] = (insertOnWrap p s i (mapAdvance p s i l).2 (mapAdvance p s i l).1).dl[k] := by
  rw [stepLane_dl]
  exact Vector.getElem_set_ne l.pos.isLt k.isLt (Fin.val_ne_of_ne hk.symm)

/-- The corrected sample: the naive one and the entry due now, INSERT's addition included. -/
theorem stepLane_out (p : Params) (s : State) (i : Fin 16) (l : Lane) : (stepLane p s i l).out =
    storedBits p s.freeCount i outSite
      (fadd (naiveSample p s.variant (mapAdvance p s i l).1.phase (mapAdvance p s i l).1.shape)
        (insertOnWrap p s i (mapAdvance p s i l).2 (mapAdvance p s i l).1).dl[l.pos]) := by
  simp only [stepLane, emit_out, process_correction, insertOnWrap_pos, mapAdvance_pos]

/-- What holds of +0.0, of the entries before, and on a wrap of those INSERT leaves, holds of those after a STEP. -/
theorem stepLane_dl_forall {P : Word → Prop} (p : Params) (s : State) (i : Fin 16) (l : Lane) (hzero : P 0#32)
    (hold : ∀ k : Fin 32, P l.dl[k])
    (hinsert : (mapAdvance p s i l).2.wrapped = true → ∀ k : Fin 32,
      P (Machine.insert p s.freeCount i (mapAdvance p s i l).2.d (jump s.variant) l.pos l.dl)[k])
    (k : Fin 32) : P (stepLane p s i l).dl[k] := by
  by_cases hk : k = l.pos
  · rw [hk, stepLane_dl_due]
    exact hzero
  · rw [stepLane_dl_of_ne p s i l hk, insertOnWrap_dl, mapAdvance_pos, mapAdvance_dl]
    split_ifs with hwrap
    · exact hinsert hwrap k
    · exact hold k

/-- The `n` entries behind a lane's index, those it has passed last, are +0.0. -/
def Drained (n : Nat) (l : Lane) : Prop :=
  ∀ k : Nat, k < n → ∀ m : Fin 32, m = l.pos - Fin.ofNat 32 (k + 1) → l.dl[m] = 0#32

/-- The entry `k + 1` behind the next index is the one `k` behind this one. -/
theorem pos_succ_sub (pos : Fin 32) (k : Nat) : pos + 1 - Fin.ofNat 32 (k + 1) = pos - Fin.ofNat 32 k := by
  have hsucc : Fin.ofNat 32 (k + 1) = Fin.ofNat 32 k + 1 := by
    apply Fin.ext
    simp [Fin.val_add]
  rw [hsucc, add_sub_add_right_eq_sub]

/-- Without a wrap a STEP clears the due entry and leaves the others. -/
theorem stepLane_dl_of_not_wrapped (p : Params) (s : State) (i : Fin 16) (l : Lane)
    (hwrap : (mapAdvance p s i l).2.wrapped = false) {k : Fin 32} (hk : k ≠ l.pos) :
    (stepLane p s i l).dl[k] = l.dl[k] := by
  rw [stepLane_dl_of_ne p s i l hk, insertOnWrap_dl, hwrap]
  rfl

theorem stepLane_drained {p : Params} {s : State} {i : Fin 16} {l : Lane} {n : Nat}
    (hwrap : (mapAdvance p s i l).2.wrapped = false) (h : Drained n l) : Drained (n + 1) (stepLane p s i l) := by
  intro k hk m hm
  rw [stepLane_pos, pos_succ_sub] at hm
  by_cases hdue : m = l.pos
  · rw [hdue]
    exact stepLane_dl_due p s i l
  · rw [stepLane_dl_of_not_wrapped p s i l hwrap hdue]
    cases k with
    | zero => exact absurd (hm.trans (sub_zero l.pos)) hdue
    | succ k => exact h k (by omega) m hm

/-- Every index is one of the 32 behind another. -/
theorem exists_behind (pos k : Fin 32) : ∃ j < 32, k = pos - Fin.ofNat 32 (j + 1) := by
  refine ⟨(pos - k - 1).val, (pos - k - 1).isLt, ?_⟩
  have hback : Fin.ofNat 32 ((pos - k - 1).val + 1) = pos - k := by
    apply Fin.ext
    have hsub := congrArg Fin.val (sub_add_cancel (pos - k) 1)
    rw [Fin.val_add] at hsub
    exact hsub
  rw [hback, sub_sub_cancel]

/-- Settles O51: `stepLane_drained` on an active lane, and 32 entries behind the index are all of them. -/
theorem delayLineDrainsOneEntryAStep : Obligations.DelayLineDrainsOneEntryAStep := by
  refine ⟨fun s i j hactive _ hwrap hbehind => ⟨_, exec_step s, ?_⟩, fun l h k => ?_⟩
  · have hdrained : Drained j s.lanes[i] := fun k hk m hm => by rw [hm]; exact hbehind k hk
    have hafter : Drained (j + 1) (complete .writeDone (stepBlock hw s)).lanes[i] := by
      rw [lane_after_step_of_active hactive]
      exact stepLane_drained hwrap hdrained
    exact fun k hk => hafter k hk _ rfl
  · obtain ⟨j, hj, rfl⟩ := exists_behind l.pos k
    exact h j hj

/-! ### An exact wrap (rule R181) -/

/-- At an exact wrap the offset is +0.0. -/
theorem advance_d_of_exact {phase inc : Word} (hinc : IncrementOk inc) (hwrap : (advance phase inc).wrapped = true)
    (hphase : (advance phase inc).phase = 0#32) : (advance phase inc).d = 0#32 := by
  have hd : (advance phase inc).d = fdiv (advance phase inc).phase inc := by
    unfold advance at hwrap ⊢
    dsimp only at hwrap ⊢
    split_ifs at hwrap ⊢
    rfl
  rw [hd, hphase, fdiv_of_zero (by decide) (isFinite_of_lt (inc_lt_inf hinc)) value_posZero (value_inc_pos hinc).ne',
    signBit_of_lt ((inc_lt_inf hinc).trans (by decide))]
  rfl

/-- Subtracting +0.0 leaves a finite value finite. -/
theorem isFinite_fsub_zero {a : Word} (h : isFinite a = true) : isFinite (fsub a 0#32) = true := by
  rw [fsub_finite h (by decide), value_posZero, sub_zero]
  exact isFinite_roundQ_of_representable _ (representable_value h)

/-- The step response starts at +0.0 for every legal table. -/
theorem lookup_zero {p : Params} (hp : p.Legal) : lookup p 0#32 = 0#32 := by
  have htime : fmul (f32Nat 0) 0x3D800000#32 = 0#32 := by decide
  have hstart := lookup_tableTime hp (k := 0) (by norm_num)
    (by rw [hp.rom_first]; exact isFinite_fsub_zero (hp.rom_finite 1 (by norm_num))) (by rw [hp.rom_first]; decide)
  rwa [htime, hp.rom_first] at hstart

/-- The correction of a jump of 2.0 that is due now at an exact wrap: the whole jump back. -/
theorem correction_of_exact {p : Params} (hp : p.Legal) : correction p 0#32 two 0 = 0xC0000000#32 := by
  have htime : fadd (f32Nat 0) 0#32 = 0#32 := by decide
  rw [correction, htime, lookup_zero hp]
  decide

/-- Settles O52: the naive sample is 1.0 after the wrap, and the due correction -2.0. -/
theorem exactWrapOutputsThePreWrapValue : Obligations.ExactWrapOutputsThePreWrapValue := by
  intro p s i l hp hvariant hwrap hphase hdue
  have hd := advance_d_of_exact (increment_ok _ _) hwrap hphase
  have hcorr : (insertOnWrap p s i (mapAdvance p s i l).2 (mapAdvance p s i l).1).dl[l.pos] = 0xC0000000#32 := by
    rw [insertOnWrap_dl, mapAdvance_advanced, if_pos hwrap, mapAdvance_pos, mapAdvance_dl, hd, hvariant]
    have hentry := insert_getElem_of_eq p s.freeCount i 0#32 two l.pos l.dl (j := 0) (by norm_num)
      (add_zero l.pos).symm
    rw [hdue, correction_of_exact hp] at hentry
    exact hentry
  have hy : naiveSample p s.variant (mapAdvance p s i l).1.phase (mapAdvance p s i l).1.shape = one := by
    rw [hvariant, mapAdvance_phase, hphase]
    exact (by decide : moogInvSaw 0#32 = one)
  have hsum : fadd one 0xC0000000#32 = 0xBF800000#32 := by decide
  rw [stepLane_out, hy, hcorr, hsum]
  exact storedBits_of_not_isNaN p s.freeCount i outSite (by decide)

end Sys2Proof.Proofs.Corrections
end

section
/-! PROOFS. The invariants: what every step keeps of every lane, no -0.0 and no overflow in a delay line, the block's
ranges, and the first STEP, with the statements about them (spec/10_state.md, spec/42_minblep.md section 3,
spec/70_reset_and_hazards.md section 1). -/

namespace Sys2Proof.Proofs.Invariants

open Sys2Proof Sys2Proof.Machine Sys2Proof.Config Sys2Proof.Safety Sys2Proof.Laws
open Sys2Proof.Proofs.Registers Sys2Proof.Proofs.BusWindow Sys2Proof.Proofs.RoundingError
open Sys2Proof.Proofs.PhaseAccumulator Sys2Proof.Proofs.NaiveSample Sys2Proof.Proofs.DelayLine
open Sys2Proof.Proofs.Mapper Sys2Proof.Proofs.TaylorExp2 Sys2Proof.Proofs.HostCommands Sys2Proof.Proofs.Operations
open Sys2Proof.Proofs.MapperInputs Sys2Proof.Proofs.Lookup Sys2Proof.Proofs.Corrections

/-! ### Every step, lane by lane -/

/-- What holds of a lane at reset and is kept by the STEP of a lane is kept by every step of every lane. -/
theorem buildStep_lanes_forall {P : Lane → Prop} {p : Params} (hreset : P Lane.reset)
    (hstep : ∀ (s : State) (i : Fin 16) (l : Lane), P l → P (stepLane p s i l)) {s : State}
    (h : ∀ i : Fin 16, P s.lanes[i]) (i : Fin 16) : P (buildStep p s).lanes[i] := by
  have hresetLanes : P (Vector.replicate 16 Lane.reset)[i] := by simpa using hreset
  rcases buildStep_cases p s with ⟨-, hnext⟩ | ⟨t, rest, -, hnext⟩ | ⟨t, rest, -, hnext⟩
  · rw [hnext]; exact h i
  · rw [hnext]; exact hresetLanes
  · rw [hnext]
    rcases buildExec_lanes p (decodeTransaction t) { s with queue := rest } with hlanes | hlanes | hlanes
    · rw [hlanes]; exact h i
    · rw [hlanes, stepLanes_getElem]
      split_ifs
      · exact hstep _ i _ (h i)
      · exact h i
    · rw [hlanes]; exact hresetLanes

/-! ### No -0.0 (rule R179) -/

/-- A finite value counts the least binary32 spacing. -/
theorem exists_value_eq (w : Word) : ∃ n : ℤ, value w = n * 2 ^ (-149 : ℤ) := by
  obtain ⟨e, he⟩ := Int.eq_ofNat_of_zero_le (show 0 ≤ ulpExponent w + 149 by unfold ulpExponent; omega)
  have hexp : ulpExponent w = e + (-149) := by omega
  refine ⟨signedSignificand w * 2 ^ e, ?_⟩
  rw [value, hexp, zpow_add₀ (by norm_num), zpow_natCast]
  push_cast
  ring

/-- A nonzero sum of two finite values is at least the least magnitude, so it does not round to a zero. -/
theorem magnitude_fadd_pos {a b : Word} (ha : isFinite a = true) (hb : isFinite b = true)
    (h : value a + value b ≠ 0) : 0 < magnitude (fadd a b) := by
  obtain ⟨m, hm⟩ := exists_value_eq a
  obtain ⟨n, hn⟩ := exists_value_eq b
  have hsum : value a + value b = (m + n : ℤ) * 2 ^ (-149 : ℤ) := by rw [hm, hn]; push_cast; ring
  have hne : m + n ≠ 0 := by
    intro h0
    rw [hsum, h0] at h
    simp at h
  have hone : (1 : ℚ) ≤ |((m + n : ℤ) : ℚ)| := by exact_mod_cast Int.one_le_abs hne
  rw [fadd_finite ha hb, magnitude_roundQ, hsum, abs_mul, abs_of_pos (show (0 : ℚ) < 2 ^ (-149 : ℤ) by positivity)]
  apply roundRat_pos
  calc (2 : ℚ) ^ (-150 : ℤ) < 1 * 2 ^ (-149 : ℤ) := by norm_num
    _ ≤ |((m + n : ℤ) : ℚ)| * 2 ^ (-149 : ℤ) := by gcongr

/-- A sum is -0.0 only if its first addend is. -/
theorem fadd_ne_negZero {a : Word} (b : Word) (h : a ≠ 0x80000000#32) : fadd a b ≠ 0x80000000#32 := by
  by_cases hnan : isNaN a = true ∨ isNaN b = true
  · rw [(operations_of_isNaN hnan).1]; decide
  simp only [not_or, Bool.not_eq_true] at hnan
  rcases isFinite_or_isInf hnan.1 with ha | ha <;> rcases isFinite_or_isInf hnan.2 with hb | hb
  · by_cases hsum : value a + value b = 0
    · rw [fadd_of_add_eq_zero ha hb hsum, if_neg fun hboth => h hboth.1]
      decide
    · intro hneg
      have hpos := magnitude_fadd_pos ha hb hsum
      rw [hneg] at hpos
      exact absurd hpos (by decide)
  · rw [fadd_of_isInf_right hb ha]
    rintro rfl
    exact absurd hb (by decide)
  · rw [fadd_of_isInf ha hb]
    exact h
  · rw [fadd_of_isInf_isInf ha hb]
    split_ifs
    · exact h
    · decide

/-- No entry of a delay line is -0.0. -/
def NoNegZero (l : Lane) : Prop := ∀ k : Fin 32, l.dl[k] ≠ 0x80000000#32

theorem reset_dl (k : Fin 32) : Lane.reset.dl[k] = 0#32 := by simp [Lane.reset]

theorem reset_noNegZero : NoNegZero Lane.reset := fun k => by rw [reset_dl]; decide

/-- What is stored of a sum whose first addend is not -0.0 is not -0.0: the sum, or a NaN. -/
theorem storedBits_fadd_ne_negZero {p : Params} (hp : p.Legal) (count lane site : Nat) {a : Word} (b : Word)
    (h : a ≠ 0x80000000#32) : storedBits p count lane site (fadd a b) ≠ 0x80000000#32 := by
  rcases storedBits_cases hp count lane site (fadd a b) with hstored | ⟨-, hnan⟩
  · rw [hstored]
    exact fadd_ne_negZero b h
  · intro hneg
    rw [hneg] at hnan
    exact absurd hnan (by decide)

theorem stepLane_noNegZero {p : Params} (hp : p.Legal) (s : State) (i : Fin 16) {l : Lane} (h : NoNegZero l) :
    NoNegZero (stepLane p s i l) := by
  have hinsert (d : Word) (k : Fin 32) :
      (Machine.insert p s.freeCount i d (jump s.variant) l.pos l.dl)[k] ≠ 0x80000000#32 :=
    insert_forall (P := (· ≠ 0x80000000#32)) p s.freeCount i d (jump s.variant) l.pos l.dl
      (fun k j _ => storedBits_fadd_ne_negZero hp s.freeCount i j _ (h k)) k
  exact stepLane_dl_forall (P := (· ≠ 0x80000000#32)) p s i l (by decide) h fun _ => hinsert _

theorem buildStep_noNegZero {p : Params} (hp : p.Legal) {s : State} (h : ∀ i : Fin 16, NoNegZero s.lanes[i])
    (i : Fin 16) : NoNegZero (buildStep p s).lanes[i] :=
  buildStep_lanes_forall reset_noNegZero (fun s i _ => stepLane_noNegZero hp s i) h i

/-! ### No overflow (rule R179) -/

/-- `2 ^ 127` and a correction of `2 ^ 103`, half the spacing there, tie to `2 ^ 127`. -/
theorem roundRat_correction_bound : roundRat (2 ^ 127 + 2 ^ 103) = 0x7F000000 := by
  have hround := roundMagnitude_eq_roundRat (2 ^ 24 + 1) 1 103 one_pos
  rw [show roundMagnitude (2 ^ 24 + 1) 1 103 = 0x7F000000 by decide] at hround
  rw [hround]
  norm_num

/-- A correction keeps an entry finite and at most `2 ^ 127`. -/
theorem magnitude_fadd_le {a b : Word} (ha : magnitude a ≤ 0x7F000000) (hb : Sized 8 b) :
    magnitude (fadd a b) ≤ 0x7F000000 := by
  have hfin : isFinite a = true := (isFinite_iff a).2 (ha.trans_lt (by decide))
  have hvalue : |value a| ≤ 2 ^ 127 := by
    rw [abs_value]
    exact (magValue_mono ha (by decide)).trans_eq (by norm_num [magValue])
  have hcorr := hb.abs_value_le
  have hsum : |value a + value b| ≤ 2 ^ 127 + 2 ^ 103 := by
    refine (abs_add_le _ _).trans (add_le_add hvalue (hcorr.trans_eq ?_))
    norm_num
  rw [fadd_finite hfin hb.finite, magnitude_roundQ, ← roundRat_correction_bound]
  exact roundRat_mono (abs_nonneg _) hsum

theorem within_jump (v : Variant) : Within 0 (2 : ℕ) (jump v) := by
  cases v with
  | czSaw | czSawPulse => exact within_zero.mono le_rfl (by norm_num)
  | moogInvSaw =>
    have hjump : value (jump .moogInvSaw) = 2 := value_two
    exact ⟨by decide, by rw [hjump]; norm_num, by rw [hjump]; norm_num⟩

/-- The offset of a wrap is at most 1.0 (rule R131). -/
theorem advance_d_le {phase inc : Word} (hphase : PhaseOk phase) (hinc : IncrementOk inc)
    (hwrap : (advance phase inc).wrapped = true) : (advance phase inc).d.toNat ≤ 0x3F800000 := by
  rcases le_or_gt 1 (value (fadd phase inc)) with hge | hlt
  · rw [advance_of_wrap hphase hinc hge]
    exact toNat_fdiv_le_one (toNat_fsub_fadd_one_le hphase hinc hge) (inc_lt_inf hinc) (value_inc_pos hinc)
  · rw [advance_of_lt_one hphase hinc hlt] at hwrap
    cases hwrap

/-- What rule R179 says of a lane: its phase in range, which bounds the offset, and its corrections bounded. -/
def Clean (l : Lane) : Prop := PhaseOk l.phase ∧ CorrectionsBounded l

theorem stepLane_clean {p : Params} (hp : p.Legal) (hb : TableBounded p) (s : State) (i : Fin 16) {l : Lane}
    (h : Clean l) : Clean (stepLane p s i l) := by
  obtain ⟨hphase, hdl⟩ := h
  have hinc := increment_ok (laneFreq p s i) s.sampleInterval
  have hinsert {d : Word} (hd : d.toNat ≤ 0x3F800000) (k : Fin 32) :
      magnitude (Machine.insert p s.freeCount i d (jump s.variant) l.pos l.dl)[k] ≤ 0x7F000000 := by
    refine insert_forall (P := (magnitude · ≤ 0x7F000000)) p s.freeCount i d (jump s.variant) l.pos l.dl
      (fun k j hj => ?_) k
    have hsum := magnitude_fadd_le (hdl k) (sized_correction hp hb hd (within_jump s.variant) le_rfl hj)
    have hnan := not_isNaN_of_isFinite ((isFinite_iff _).2 (hsum.trans_lt (by decide)))
    rw [storedBits_of_not_isNaN p s.freeCount i j hnan]
    exact hsum
  refine ⟨by rw [stepLane_phase]; exact advance_phaseOk hphase hinc, ?_⟩
  exact stepLane_dl_forall (P := (magnitude · ≤ 0x7F000000)) p s i l (by decide) hdl fun hwrap =>
    hinsert (advance_d_le hphase hinc hwrap)

theorem buildStep_clean {p : Params} (hp : p.Legal) (hb : TableBounded p) {s : State}
    (h : ∀ i : Fin 16, Clean s.lanes[i]) (i : Fin 16) : PhaseOk (buildStep p s).lanes[i].phase ∧
      CorrectionsBounded (buildStep p s).lanes[i] ∧ ∀ k : Fin 32, isFinite (buildStep p s).lanes[i].dl[k] = true := by
  have hreset : Clean Lane.reset := ⟨reset_lane_phaseOk, fun k => by rw [reset_dl]; decide⟩
  obtain ⟨hphase, hdl⟩ := buildStep_lanes_forall hreset (fun s i _ => stepLane_clean hp hb s i) h i
  exact ⟨hphase, hdl, fun k => (isFinite_iff _).2 ((hdl k).trans_lt (by decide))⟩

/-- Settles O50: `buildStep_noNegZero` and `buildStep_clean`, the machine's step being the hardware build's. -/
theorem delayLineStaysClean : Obligations.DelayLineStaysClean := by
  refine ⟨fun s t h hstep => ?_, fun s t hb h hstep => ?_,
    fun p s hp => ⟨buildStep_noNegZero hp, fun hb h => buildStep_clean hp hb h⟩, fun i k => ?_⟩
  · obtain rfl := Host.Outcome.next.inj ((step_eq_next s).symm.trans hstep)
    exact buildStep_noNegZero hw_legal h
  · obtain rfl := Host.Outcome.next.inj ((step_eq_next s).symm.trans hstep)
    exact buildStep_clean hw_legal hb h
  · rw [reset_lane, reset_dl]

/-! ### The block's invariants (rules R32–R34, R55, R57–R59, R102) -/

theorem reset_laneSound : LaneSound Lane.reset where
  phase := reset_lane_phaseOk
  shape := by unfold ShapeOk; decide
  freq := by unfold FreqOk; decide
  noNegZero := reset_noNegZero

theorem stepLane_laneSound {p : Params} (hp : p.Legal) (s : State) (i : Fin 16) {l : Lane} (h : LaneSound l) :
    LaneSound (stepLane p s i l) where
  phase := by rw [stepLane_phase]; exact advance_phaseOk h.phase (increment_ok _ _)
  shape := by rw [stepLane_shape]; exact shapeOfRaw_ok _
  freq := by rw [stepLane_freq]; exact frequencyIsNeverNaNOrNegative p s i
  noNegZero := stepLane_noNegZero hp s i h.noNegZero

/-- The invariants that are not the lanes'. -/
structure RangesSound (p : Params) (s : State) : Prop where
  channels : s.channels.toNat ≤ p.maxChannels
  outChannels : s.outChannels.toNat ≤ p.maxChannels
  activeGroups : s.activeGroups.toNat ≤ groupsOf p p.maxChannels
  freqKnob : InRange 0xC2580000#32 0x42580000#32 s.freqKnob
  fineKnob : InRange minusOne one s.fineKnob
  shapeKnob : InRange 0x00000000#32 0x41200000#32 s.shapeKnob

theorem sound_iff (p : Params) (s : State) : Sound p s ↔ (∀ i : Fin 16, LaneSound s.lanes[i]) ∧ RangesSound p s where
  mp h := ⟨h.lanes, h.channels, h.outChannels, h.activeGroups, h.freqKnob, h.fineKnob, h.shapeKnob⟩
  mpr h := ⟨h.1, h.2.channels, h.2.outChannels, h.2.activeGroups, h.2.freqKnob, h.2.fineKnob, h.2.shapeKnob⟩

section Ranges

variable {p : Params} {s : State}

theorem reset_rangesSound (p : Params) : RangesSound p State.reset where
  channels := Nat.zero_le _
  outChannels := Nat.zero_le _
  activeGroups := Nat.zero_le _
  freqKnob := by unfold InRange; decide
  fineKnob := by unfold InRange; decide
  shapeKnob := by unfold InRange; decide

/-- The ranges hold of no other field. -/
theorem RangesSound.of_eq {t : State} (h : RangesSound p s) (hchannels : t.channels = s.channels)
    (hout : t.outChannels = s.outChannels) (hgroups : t.activeGroups = s.activeGroups)
    (hfreq : t.freqKnob = s.freqKnob) (hfine : t.fineKnob = s.fineKnob) (hshape : t.shapeKnob = s.shapeKnob) :
    RangesSound p t :=
  ⟨hchannels ▸ h.channels, hout ▸ h.outChannels, hgroups ▸ h.activeGroups, hfreq ▸ h.freqKnob, hfine ▸ h.fineKnob,
    hshape ▸ h.shapeKnob⟩

theorem groupsOf_mono (p : Params) {m n : Nat} (h : m ≤ n) : groupsOf p m ≤ groupsOf p n :=
  Nat.div_le_div_right (by omega)

/-- The dispatch report stays within the build's channels. -/
theorem stepBlock_rangesSound (hp : p.Legal) (h : RangesSound p s) : RangesSound p (stepBlock p s) := by
  have hcount : activeCount s ≤ p.maxChannels := max_le hp.channels_pos h.channels
  refine ⟨h.channels, ?_, ?_, h.freqKnob, h.fineKnob, h.shapeKnob⟩
  · rw [outChannels_stepBlock]
    exact hcount
  · rw [stepBlock_activeGroups, BitVec.toNat_ofNat]
    exact (Nat.mod_le _ _).trans (groupsOf_mono p hcount)

theorem performCommand_rangesSound (hp : p.Legal) (h : RangesSound p s) (c : Command) :
    RangesSound p (performCommand p s c) := by
  cases c with
  | nop => exact h
  | step => exact stepBlock_rangesSound hp h
  | laneReset | clearStatus => exact h.of_eq rfl rfl rfl rfl rfl rfl
  | fullReset => exact (reset_rangesSound p).of_eq rfl rfl rfl rfl rfl rfl

/-- A WARL register stores a value of its range. -/
theorem writeReg_rangesSound (h : RangesSound p s) (data : Word) (r : Reg) : RangesSound p (writeReg p data s r) := by
  cases r with
  | channels =>
    refine ⟨?_, h.outChannels, h.activeGroups, h.freqKnob, h.fineKnob, h.shapeKnob⟩
    change (BitVec.ofNat 5 (min data.toNat p.maxChannels)).toNat ≤ p.maxChannels
    rw [BitVec.toNat_ofNat]
    exact (Nat.mod_le _ _).trans (min_le_right _ _)
  | freqKnob =>
    exact ⟨h.channels, h.outChannels, h.activeGroups, inRange_fclamp (by decide) data, h.fineKnob, h.shapeKnob⟩
  | fineKnob =>
    exact ⟨h.channels, h.outChannels, h.activeGroups, h.freqKnob, inRange_fclamp (by decide) data, h.shapeKnob⟩
  | shapeKnob =>
    exact ⟨h.channels, h.outChannels, h.activeGroups, h.freqKnob, h.fineKnob, inRange_fclamp (by decide) data⟩
  | _ => exact h.of_eq rfl rfl rfl rfl rfl rfl

theorem performWrite_rangesSound (hp : p.Legal) (h : RangesSound p s) (off : BitVec 10) (be : BitVec 4)
    (data : Word) : RangesSound p (performWrite p off be data s) := by
  rcases performWrite_cases p off be data s with ⟨-, hbad⟩ | ⟨-, -, hexecute⟩ | ⟨-, -, hwrite⟩
  · rw [hbad]; exact h.of_eq rfl rfl rfl rfl rfl rfl
  · rw [hexecute]
    rcases execute_cases p data s with ⟨c, -, hcommand⟩ | ⟨-, hbad⟩
    · rw [hcommand]; exact performCommand_rangesSound hp h c
    · rw [hbad]; exact h.of_eq rfl rfl rfl rfl rfl rfl
  · rw [hwrite]; exact writeReg_rangesSound h data _

/-- No range is over what the bus last reported. -/
theorem complete_rangesSound (r : BusResponse) (h : RangesSound p s) : RangesSound p (complete r s) :=
  h.of_eq rfl rfl rfl rfl rfl rfl

theorem buildExec_rangesSound (hp : p.Legal) (h : RangesSound p s) (i : Instr) : RangesSound p (buildExec p i s) := by
  cases i with
  | read off be => exact complete_rangesSound _ h
  | write off be data => exact complete_rangesSound _ (performWrite_rangesSound hp h off be data)
  | nop => exact complete_rangesSound _ (performCommand_rangesSound hp h .nop)
  | step => exact complete_rangesSound _ (performCommand_rangesSound hp h .step)
  | laneReset => exact complete_rangesSound _ (performCommand_rangesSound hp h .laneReset)
  | fullReset => exact complete_rangesSound _ (performCommand_rangesSound hp h .fullReset)
  | clearStatus => exact complete_rangesSound _ (performCommand_rangesSound hp h .clearStatus)

theorem buildStep_rangesSound (hp : p.Legal) (h : RangesSound p s) : RangesSound p (buildStep p s) := by
  rcases buildStep_cases p s with ⟨-, hnext⟩ | ⟨t, rest, -, hnext⟩ | ⟨t, rest, -, hnext⟩
  · rw [hnext]; exact h
  · rw [hnext]; exact (reset_rangesSound p).of_eq rfl rfl rfl rfl rfl rfl
  · rw [hnext]
    exact buildExec_rangesSound hp (s := { s with queue := rest }) (h.of_eq rfl rfl rfl rfl rfl rfl) _

end Ranges

/-- Every step of a legal build keeps its invariants. -/
theorem buildStep_sound {p : Params} (hp : p.Legal) {s : State} (h : Sound p s) : Sound p (buildStep p s) := by
  obtain ⟨hlanes, hranges⟩ := (sound_iff p s).1 h
  exact (sound_iff p _).2 ⟨buildStep_lanes_forall reset_laneSound (fun s i _ => stepLane_laneSound hp s i) hlanes,
    buildStep_rangesSound hp hranges⟩

/-- Settles O55: `buildStep_sound` for the hardware's build. -/
theorem stepKeepsTheInvariants : Obligations.StepKeepsTheInvariants := by
  intro s t h hstep
  obtain rfl := Host.Outcome.next.inj ((step_eq_next s).symm.trans hstep)
  exact buildStep_sound hw_legal h

/-- Settles O56: every lane is a reset lane, and every count and knob is 0. -/
theorem resetHasTheInvariants : Obligations.ResetHasTheInvariants :=
  (sound_iff hw State.reset).2 ⟨fun i => by rw [reset_lane]; exact reset_laneSound, reset_rangesSound hw⟩

/-! ### The first STEP (rules R130, R206, R210) -/

/-- FREQ[i] is the lane's frequency (rule R33). -/
theorem readWindow_freq (s : State) (i : Fin 16) : readWindow hw s (regOffset (.freq i)) = s.lanes[i].freq :=
  readWindow_of_wordIndex s (by simp) (wordIndex_regOffset _)

/-- With every input at its reset value a lane's frequency is F_REF. -/
theorem laneFreq_reset : laneFreq hw State.reset 0 = 0x4382D014#32 := by decide +kernel

/-- Settles O57: lane 0 by the stages of its STEP, lane 1 as an inactive lane, and the report of one channel. -/
theorem firstStepFromReset : Obligations.FirstStepFromReset := by
  have hactive : ((0 : Fin 16)).val < activeCount State.reset := by decide
  have hinactive : activeCount State.reset ≤ ((1 : Fin 16)).val := by decide
  have hlane := lane_after_step_of_active hactive
  have hadvance : (advance 0#32 (increment 0x4382D014#32 0#32)).phase = 0x358637BD#32 := by decide
  refine ⟨_, exec_step State.reset, ?_, ?_, ?_, ?_, ?_, ?_⟩
  · refine (readWindow_phase _ 0).trans ?_
    rw [hlane, stepLane_phase, laneFreq_reset]
    exact hadvance
  · refine (readWindow_freq _ 0).trans ?_
    rw [hlane, stepLane_freq, laneFreq_reset]
  · refine (readWindow_shape _ 0).trans ?_
    rw [hlane, stepLane_shape]
    decide
  · rw [readWindow_complete, readWindow_status]
    decide
  · refine (readWindow_phase _ 1).trans ?_
    rw [lane_after_step_of_inactive hinactive, reset_lane]
    rfl
  · refine (congrArg Lane.pos hlane).trans ?_
    rw [stepLane_pos]
    rfl

end Sys2Proof.Proofs.Invariants
end

section
/-! PROOFS. The STEP of a lane: its stages in one place, what of the state it looks at, and that the batching width is
none of it with detune off, with the statements about them (spec/44_host_commands.md section 2, spec/10_state.md
section 1, spec/00_scope.md section 3). -/

namespace Sys2Proof.Proofs.LaneStep

open Sys2Proof Sys2Proof.Machine Sys2Proof.Config Sys2Proof.Safety Sys2Proof.Laws
open Sys2Proof.Proofs.Registers Sys2Proof.Proofs.DelayLine Sys2Proof.Proofs.Mapper Sys2Proof.Proofs.Corrections

/-! ### The stages (rule R234) -/

theorem stepLane_outv (p : Params) (s : State) (i : Fin 16) (l : Lane) : (stepLane p s i l).outv =
    storedBits p s.freeCount i outvSite (outputVolts p s (stepLane p s i l).out) := by
  simp only [stepLane, emit_outv, emit_out]

/-- Settles O30: each field of an active lane by the stage that writes it, and the frame. -/
theorem stepRunsTheStagesOnEveryActiveLane : Obligations.StepRunsTheStagesOnEveryActiveLane := by
  refine fun s => ⟨_, exec_step s, rfl, fun i => ⟨lane_after_step_of_inactive, fun hactive => ?_⟩⟩
  rw [lane_after_step_of_active hactive]
  have hdl := insertOnWrap_dl hw s i (mapAdvance hw s i s.lanes[i]).2 (mapAdvance hw s i s.lanes[i]).1
  have hout := stepLane_out hw s i s.lanes[i]
  rw [hdl] at hout
  refine ⟨stepLane_phase .., stepLane_freq .., stepLane_shape .., hout, ?_, stepLane_pos .., stepLane_dl_due ..,
    fun k hk => ?_⟩
  · rw [stepLane_outv, hout]
    rfl
  · rw [stepLane_dl_of_ne hw s i s.lanes[i] hk, hdl]
    rfl

/-! ### What a lane's STEP looks at (rule R30) -/

/-- Two states agree on everything the STEP of lane `i` looks at beside the lane: the shared registers, the lane's two
control voltages and the model's counter. -/
structure SameInputs (s s' : State) (i : Fin 16) : Prop where
  variant : s.variant = s'.variant
  lfoEn : s.lfoEn = s'.lfoEn
  detuneEn : s.detuneEn = s'.detuneEn
  sampleInterval : s.sampleInterval = s'.sampleInterval
  freqKnob : s.freqKnob = s'.freqKnob
  fineKnob : s.fineKnob = s'.fineKnob
  shapeKnob : s.shapeKnob = s'.shapeKnob
  freeCount : s.freeCount = s'.freeCount
  pitchCv : s.pitchCv[i] = s'.pitchCv[i]
  shapeCv : s.shapeCv[i] = s'.shapeCv[i]

section Congruence

variable {p : Params} {s s' : State} {i : Fin 16}

theorem knobOctaves_congr (h : SameInputs s s' i) : knobOctaves p s = knobOctaves p s' := by
  unfold knobOctaves fineTerm lfoOn
  rw [h.lfoEn, h.freqKnob, h.fineKnob]

theorem laneFreq_congr (h : SameInputs s s' i) : laneFreq p s i = laneFreq p s' i := by
  unfold laneFreq pitchOctaves
  rw [knobOctaves_congr h, h.pitchCv, h.detuneEn]

theorem mapAdvance_congr (h : SameInputs s s' i) (l : Lane) : mapAdvance p s i l = mapAdvance p s' i l := by
  unfold mapAdvance mapLane laneShape
  rw [laneFreq_congr h, h.shapeCv, h.shapeKnob, h.sampleInterval]

theorem insertOnWrap_congr (h : SameInputs s s' i) (a : Advanced) (l : Lane) :
    insertOnWrap p s i a l = insertOnWrap p s' i a l := by
  unfold insertOnWrap
  rw [h.freeCount, h.variant]

theorem emit_congr (h : SameInputs s s' i) (y corr : Word) (l : Lane) : emit p s i y corr l = emit p s' i y corr l := by
  unfold emit outputVolts lfoOn
  rw [h.freeCount, h.lfoEn, h.fineKnob]

theorem stepLane_congr (h : SameInputs s s' i) (l : Lane) : stepLane p s i l = stepLane p s' i l := by
  rw [stepLane, stepLane, mapAdvance_congr h, insertOnWrap_congr h, emit_congr h, h.variant]

end Congruence

/-- Settles O32: the same lane, active or not, with the same inputs. -/
theorem lanesAreIndependent : Obligations.LanesAreIndependent := by
  intro s s' i hvariant hlfo hdetune hchannels hdt hfreq hfine hshape hcount hpitch hshapeCv hlane
  have hinputs : SameInputs s s' i := ⟨hvariant, hlfo, hdetune, hdt, hfreq, hfine, hshape, hcount, hpitch, hshapeCv⟩
  have hactive : activeCount s = activeCount s' := by rw [activeCount, activeCount, hchannels]
  refine ⟨_, _, exec_step s, exec_step s', ?_⟩
  change (stepLanes hw s)[i] = (stepLanes hw s')[i]
  rw [stepLanes_getElem, stepLanes_getElem, hactive, stepLane_congr hinputs, hlane]

/-! ### The batching width (rules R203, R210) -/

theorem knobOctaves_groupWidth (p : Params) (g : Nat) (s : State) :
    knobOctaves { p with groupWidth := g } s = knobOctaves p s := rfl

theorem exp2_groupWidth (p : Params) (g : Nat) (x : Word) : exp2 { p with groupWidth := g } x = exp2 p x := rfl

/-- With detune off a lane's pitch does not depend on the batching width. -/
theorem pitchOctaves_groupWidth (p : Params) (g : Nat) {s : State} (h : s.detuneEn = false) (i : Fin 16) :
    pitchOctaves { p with groupWidth := g } s i = pitchOctaves p s i := by
  simp only [pitchOctaves, h, Bool.false_eq_true, if_false, knobOctaves_groupWidth]

theorem laneFreq_groupWidth (p : Params) (g : Nat) {s : State} (h : s.detuneEn = false) (i : Fin 16) :
    laneFreq { p with groupWidth := g } s i = laneFreq p s i := by
  rw [laneFreq, laneFreq, pitchOctaves_groupWidth p g h, exp2_groupWidth]

theorem mapAdvance_groupWidth (p : Params) (g : Nat) {s : State} (h : s.detuneEn = false) (i : Fin 16) (l : Lane) :
    mapAdvance { p with groupWidth := g } s i l = mapAdvance p s i l := by
  unfold mapAdvance mapLane
  rw [laneFreq_groupWidth p g h]

/-- The stages after ADVANCE look at the width in no case. -/
theorem insertOnWrap_groupWidth (p : Params) (g : Nat) (s : State) (i : Fin 16) (a : Advanced) (l : Lane) :
    insertOnWrap { p with groupWidth := g } s i a l = insertOnWrap p s i a l := rfl

theorem naiveSample_groupWidth (p : Params) (g : Nat) (v : Variant) (φ x : Word) :
    naiveSample { p with groupWidth := g } v φ x = naiveSample p v φ x := rfl

theorem emit_groupWidth (p : Params) (g : Nat) (s : State) (i : Fin 16) (y corr : Word) (l : Lane) :
    emit { p with groupWidth := g } s i y corr l = emit p s i y corr l := rfl

theorem stepLane_groupWidth (p : Params) (g : Nat) {s : State} (h : s.detuneEn = false) (i : Fin 16) (l : Lane) :
    stepLane { p with groupWidth := g } s i l = stepLane p s i l := by
  rw [stepLane, stepLane, mapAdvance_groupWidth p g h, insertOnWrap_groupWidth, naiveSample_groupWidth,
    emit_groupWidth]

/-- Settles O33: every lane's STEP is the same, so only the report of the groups differs. -/
theorem groupWidthIsNotSemantic : Obligations.GroupWidthIsNotSemantic := by
  intro p g s h
  have hlanes : stepLanes { p with groupWidth := g } s = stepLanes p s := by
    simp only [stepLanes, stepLane_groupWidth p g h]
  refine ⟨BitVec.ofNat 5 (groupsOf { p with groupWidth := g } (activeCount s)), ?_⟩
  rw [stepBlock, hlanes]
  rfl

end Sys2Proof.Proofs.LaneStep
end
